-- ==== Sys2Proof/Word.lean ====
section
/-! DEFINITION. The word types of the block: 64-bit register and buffer words, 32-bit command words
(00_scope.md R2, 20_memory.md R60, 30_encoding.md R90). -/

namespace Sys2Proof

/-- A word of the register space or of the sample buffer (20_memory.md R60). An f64 value is held as
its binary64 bit pattern (00_scope.md R2). -/
abbrev Word := BitVec 64

/-- A command word (30_encoding.md R90). -/
abbrev CmdWord := BitVec 32

end Sys2Proof
end

