-- ==== Sys2Proof/Syntax.lean ====
section
/-! DEFINITION. The commands of the block, one constructor per row of spec/opcode_table.json
(30_encoding.md R94). -/

namespace Sys2Proof

/-- A command. `sel` is the 4-bit field `SEL`, the only operand a command word carries
(30_encoding.md R92). -/
inductive Instr where
  /-- 44_control.md R260. -/
  | nop
  /-- 43_synth_graph.md R222. -/
  | init
  /-- 40_fastmath.md R140. -/
  | psin
  /-- 40_fastmath.md R141. -/
  | exp2
  /-- 40_fastmath.md R142. -/
  | wrap01
  /-- 41_phase_accumulator.md R175. -/
  | pastep (sel : BitVec 4)
  /-- 42_oscillators.md R194. -/
  | tonestep (sel : BitVec 4)
  /-- 42_oscillators.md R197. -/
  | quadstep (sel : BitVec 4)
  /-- 43_synth_graph.md R229. -/
  | gstep
  /-- 43_synth_graph.md R230. -/
  | render
  deriving DecidableEq, Repr

end Sys2Proof
end

