-- ==== Sys2Proof/WellFormed.lean ====
section
/-! DEFINITION. Which commands a legal command word stands for (30_encoding.md R92, R95). -/

namespace Sys2Proof

/-- `SEL` names one of the three oscillators (30_encoding.md R92). -/
def selInRange (sel : BitVec 4) : Bool := decide (sel.toNat ≤ 2)

/-- The commands of the 16 legal words: `SEL` is 0, 1 or 2 where the command takes it
(30_encoding.md R95). -/
def Instr.wellFormed : Instr → Bool
  | .nop => true
  | .init => true
  | .psin => true
  | .exp2 => true
  | .wrap01 => true
  | .pastep sel => selInRange sel
  | .tonestep sel => selInRange sel
  | .quadstep sel => selInRange sel
  | .gstep => true
  | .render => true

end Sys2Proof
end

