-- ==== Sys2Proof/Decode.lean ====
section
/-! DEFINITION. The decoder of a `CMD` write and the encoder of a command word
(30_encoding.md R90 to R96). -/

namespace Sys2Proof

/-- Why a `CMD` write is illegal: the five checks of 30_encoding.md R91. Each raises `ERR_CMD`
(60_exceptions.md R301), so each is a recorded error of the block and no stop of the model. -/
inductive DecodeError where
  /-- Bits 63:32 of the written word are not zero (10_state.md R23). -/
  | upperHalfNonzero
  /-- `OPC` is not in the table of R94. -/
  | undefinedOpc
  /-- `RSV1` or `RSV0` is not zero. -/
  | reservedNonzero
  /-- `SEL > 2` on a command that takes `SEL`. -/
  | selOutOfRange
  /-- `SEL ≠ 0` on a command that takes none. -/
  | selNotTaken
  deriving DecidableEq, Repr

/-- A row of the opcode map: the command, or the command that a `SEL` value completes. -/
inductive OpcodeRow where
  | plain (i : Instr)
  | withSel (command : BitVec 4 → Instr)

/-- The opcode map (30_encoding.md R94). -/
def opcodeRow (opc : BitVec 8) : Option OpcodeRow :=
  match opc with
  | 0x00#8 => some (.plain .nop)
  | 0x01#8 => some (.plain .init)
  | 0x10#8 => some (.plain .psin)
  | 0x11#8 => some (.plain .exp2)
  | 0x12#8 => some (.plain .wrap01)
  | 0x20#8 => some (.withSel .pastep)
  | 0x21#8 => some (.withSel .tonestep)
  | 0x22#8 => some (.withSel .quadstep)
  | 0x30#8 => some (.plain .gstep)
  | 0x31#8 => some (.plain .render)
  | _ => none

/-- The fields of the one format (30_encoding.md R90). -/
def fieldOpc (w : CmdWord) : BitVec 8 := w.extractLsb' 24 8
def fieldRsv1 (w : CmdWord) : BitVec 4 := w.extractLsb' 20 4
def fieldSel (w : CmdWord) : BitVec 4 := w.extractLsb' 16 4
def fieldRsv0 (w : CmdWord) : BitVec 16 := w.extractLsb' 0 16

/-- The checks on the 32 command bits, in the order of 30_encoding.md R91. -/
def decodeCommand (w : CmdWord) : Except DecodeError Instr :=
  match opcodeRow (fieldOpc w) with
  | none => .error .undefinedOpc
  | some row =>
    if fieldRsv1 w ≠ 0 ∨ fieldRsv0 w ≠ 0 then .error .reservedNonzero
    else
      match row with
      | .withSel command =>
        if (fieldSel w).toNat > 2 then .error .selOutOfRange else .ok (command (fieldSel w))
      | .plain i => if fieldSel w ≠ 0 then .error .selNotTaken else .ok i

/-- What the block decodes from the 64-bit word written to `CMD` (30_encoding.md R91). -/
def decode (v : Word) : Except DecodeError Instr :=
  if v.extractLsb' 32 32 ≠ 0 then .error .upperHalfNonzero
  else decodeCommand (v.extractLsb' 0 32)

/-! The encoder, from the same table. -/

/-- The command's `OPC` (30_encoding.md R94). -/
def Instr.opc : Instr → BitVec 8
  | .nop => 0x00
  | .init => 0x01
  | .psin => 0x10
  | .exp2 => 0x11
  | .wrap01 => 0x12
  | .pastep _ => 0x20
  | .tonestep _ => 0x21
  | .quadstep _ => 0x22
  | .gstep => 0x30
  | .render => 0x31

/-- The command's `SEL`: 0 where it takes none (30_encoding.md R91). -/
def Instr.sel : Instr → BitVec 4
  | .nop => 0
  | .init => 0
  | .psin => 0
  | .exp2 => 0
  | .wrap01 => 0
  | .pastep sel => sel
  | .tonestep sel => sel
  | .quadstep sel => sel
  | .gstep => 0
  | .render => 0

/-- The command word: `OPC`, `RSV1 = 0`, `SEL`, `RSV0 = 0` (30_encoding.md R90). -/
def encode (i : Instr) : CmdWord := i.opc ++ 0#4 ++ i.sel ++ 0#16

/-- The word the host writes to `CMD`: bits 63:32 are 0 (10_state.md R23). -/
def encodeWrite (i : Instr) : Word := (encode i).setWidth 64

/-- The word written to `CMD` that carries the `nbits` low bits of `w` and zeros above them. -/
def tableWrite (nbits w : Nat) : Word := BitVec.ofNat 64 (w % 2 ^ nbits)

/-- What the decoder reads from an instruction of the opcode table given by number. A number that
does not fit one `CMD` write is no command. -/
def decodeTableWord (nbits w : Nat) : Option Instr :=
  if w % 2 ^ nbits < 2 ^ 64 then
    match decode (tableWrite nbits w) with
    | .ok i => some i
    | .error _ => none
  else none

end Sys2Proof
end

