-- ==== Sys2Proof/Machine/F64.lean ====
section
/-! DEFINITION. IEEE 754 binary64 arithmetic on bit patterns (00_scope.md R2 to R7). Every operation
computes the exact result on integers and rounds it once, to nearest, ties to even (R3).

A finite binary64 value is an integer multiple of the smallest subnormal, 2^-1074. Below, a
"quantum" is that unit: a magnitude is held as its number of quanta, a Nat. -/

namespace Sys2Proof.F64

/-! ## The values the pseudocode writes as literals -/

def one : Word := 0x3FF0000000000000#64
def half : Word := 0x3FE0000000000000#64
def quarter : Word := 0x3FD0000000000000#64
def twelve : Word := 0x4028000000000000#64
def hundred : Word := 0x4059000000000000#64

/-! ## The format (R2) -/

/-- The sign, bit 63. -/
def sign (w : Word) : Bool := w.msb

/-- Bits 62:0: the biased exponent and the fraction. Magnitudes compare as these numbers do. -/
def mag (w : Word) : Nat := w.toNat % 2 ^ 63

/-- Bits 62:0 of an infinity: exponent 2047, fraction 0. -/
def infMag : Nat := 2047 * 2 ^ 52

def isNaN (w : Word) : Bool := decide (infMag < mag w)
def isInf (w : Word) : Bool := decide (mag w = infMag)
def isZero (w : Word) : Bool := decide (mag w = 0)
def isFinite (w : Word) : Bool := decide (mag w < infMag)

/-- The pattern with this sign and these bits 62:0. -/
def pack (s : Bool) (m : Nat) : Word := BitVec.ofNat 64 (if s then 2 ^ 63 + m else m)

/-- The quanta in the finite magnitude whose bits 62:0 are `m`: a subnormal is its fraction, a normal
number is `2^52 + fraction` scaled by its exponent. -/
def quanta (m : Nat) : Nat :=
  if m < 2 ^ 52 then m else (2 ^ 52 + m % 2 ^ 52) * 2 ^ (m / 2 ^ 52 - 1)

/-- The quanta in 1.0. -/
def quantaOne : Nat := 2 ^ 1074

/-- The value of a finite pattern, in quanta. -/
def scaled (w : Word) : Int := if sign w then -(quanta (mag w) : Int) else (quanta (mag w) : Int)

/-- The value of a finite pattern. -/
def toRat (w : Word) : ℚ := (scaled w : ℚ) / 2 ^ 1074

/-! ## Rounding (R3) -/

/-- `n / d` rounded to the nearest integer, ties to even; `d` is positive. -/
def roundDiv (n d : Nat) : Nat :=
  if 2 * (n % d) < d then n / d
  else if d < 2 * (n % d) then n / d + 1
  else n / d + n / d % 2

/-- Bits 62:0 of the binary64 number nearest `n / d` quanta, ties to even. A magnitude of 53 bits at
exponent step `k` has the bits `k * 2^52 + magnitude`, for subnormals too, and a rounding carry into
the next exponent is this same sum. What overflows is infinity. -/
def roundMag (n d : Nat) : Nat :=
  let k := (n / d).log2 - 52
  min (k * 2 ^ 52 + roundDiv n (d * 2 ^ k)) infMag

/-! ## Operations that only touch the sign (R3) -/

def neg (w : Word) : Word := w ^^^ 0x8000000000000000#64
def abs (w : Word) : Word := w &&& 0x7FFFFFFFFFFFFFFF#64

/-! ## Comparisons (R5) -/

/-- The order of the non-NaN patterns, both zeros at 0. -/
def key (w : Word) : Int := if sign w then -(mag w : Int) else (mag w : Int)

def lt (a b : Word) : Bool := !isNaN a && !isNaN b && decide (key a < key b)
def le (a b : Word) : Bool := !isNaN a && !isNaN b && decide (key a ≤ key b)
def gt (a b : Word) : Bool := lt b a
def ge (a b : Word) : Bool := le b a
def eq (a b : Word) : Bool := !isNaN a && !isNaN b && decide (key a = key b)

/-! ## Arithmetic (R3)

`nan` is the pattern the operation gives when its result is a NaN: R6 leaves it open, so the caller
supplies it. -/

/-- The sum of two finite values. An exact zero is +0.0 unless both operands are negative zeros. -/
def addFinite (a b : Word) : Word :=
  if scaled a + scaled b = 0 then pack (sign a && sign b) 0
  else pack (decide (scaled a + scaled b < 0)) (roundMag (scaled a + scaled b).natAbs 1)

def add (nan a b : Word) : Word :=
  if isNaN a || isNaN b then nan
  else if isInf a then (if isInf b && (sign a != sign b) then nan else a)
  else if isInf b then b
  else addFinite a b

def sub (nan a b : Word) : Word := add nan a (neg b)

def mul (nan a b : Word) : Word :=
  if isNaN a || isNaN b then nan
  else if isInf a || isInf b then
    (if isZero a || isZero b then nan else pack (sign a != sign b) infMag)
  else pack (sign a != sign b) (roundMag (quanta (mag a) * quanta (mag b)) quantaOne)

def div (nan a b : Word) : Word :=
  if isNaN a || isNaN b then nan
  else if isInf a then (if isInf b then nan else pack (sign a != sign b) infMag)
  else if isInf b then pack (sign a != sign b) 0
  else if isZero b then (if isZero a then nan else pack (sign a != sign b) infMag)
  else pack (sign a != sign b) (roundMag (quanta (mag a) * quantaOne) (quanta (mag b)))

/-- `fmod(x, y)`: the remainder with the sign of `x`, exact (00_scope.md section 6). -/
def fmod (nan x y : Word) : Word :=
  if isNaN x || isNaN y || isInf x || isZero y then nan
  else if isInf y then x
  else pack (sign x) (roundMag (quanta (mag x) % quanta (mag y)) 1)

/-! ## Integral values -/

/-- The nearest integral value of a finite `x`, ties away from zero, with the sign of `x`
(40_fastmath.md R126). -/
def roundHalfAway (x : Word) : Word :=
  pack (sign x) (roundMag ((quanta (mag x) + 2 ^ 1073) / 2 ^ 1074 * quantaOne) 1)

/-- An integral finite value as an integer (R7). -/
def toInt (x : Word) : Int :=
  if sign x then -((quanta (mag x) / quantaOne : Nat) : Int) else ((quanta (mag x) / quantaOne : Nat) : Int)

/-- The binary64 number nearest `±n / d`, ties to even: the literals of 30_encoding.md R97. -/
def ofFraction (s : Bool) (n d : Nat) : Word := pack s (roundMag (n * quantaOne) d)

end Sys2Proof.F64
end

