-- ==== Sys2Proof/Config.lean ====
section
/-! DEFINITION. The implementation parameters (00_scope.md section 4), the binary64 constants
(00_scope.md section 5), and the values the spec leaves open, as constants with no body. -/

namespace Sys2Proof.Config

open F64

/-! ## Parameters with the value the spec gives (00_scope.md section 4, 92_eei_decisions.md D29) -/

/-- `N_OSC`, the number of oscillator records. -/
def nOsc : Nat := 3
/-- `F_CLAMP` = 20480.0 Hz. -/
def fClamp : Word := 0x40D4000000000000#64
/-- `PSIN_P`, the binary64 number nearest 0.225. -/
def psinP : Word := 0x3FCCCCCCCCCCCCCD#64
/-- `REF_FREQ` = 440.0 Hz. -/
def refFreq : Word := 0x407B800000000000#64
/-- `LFO_FREQ` = 0.5 Hz. -/
def lfoFreq : Word := 0x3FE0000000000000#64
/-- `OSC2_DETUNE_CENTS` = +2.5. -/
def osc2DetuneCents : Word := 0x4004000000000000#64
/-- `EXP2_BIAS`. -/
def exp2Bias : Int := 1023
/-- `EXP2_SHIFT`, the place of the exponent field. -/
def exp2Shift : Nat := 52
/-- `BATCH`, the software batch size. No rule depends on it (43_synth_graph.md R232). -/
def batch : Nat := 64

/-! ## Binary64 constants (00_scope.md section 5, 40_fastmath.md R121) -/

/-- `PI`, the binary64 number nearest π. -/
def pi : Word := 0x400921FB54442D18#64
/-- `TAU = 2 * PI`. -/
def tau : Word := 0x401921FB54442D18#64
/-- `PSIN_B = 4.0 / PI`. -/
def psinB : Word := 0x3FF45F306DC9C883#64
/-- `PSIN_C = -(4.0 / (PI * PI))`. -/
def psinC : Word := 0xBFD9F02F6222C720#64

/-! ## BUF_LEN (20_memory.md R63): an OPEN parameter, an integer of at least 1 -/

/-- `BUF_LEN - 1`. The register `BUF_LEN` reads as the parameter (10_state.md R30), so the parameter
fits 64 bits. -/
opaque bufLenLessOne : Fin 18446744073709551615

/-- `BUF_LEN`. -/
def bufLen : Word := BitVec.ofNat 64 (bufLenLessOne.val + 1)

/-! ## BYTE_ORDER and PLACEMENT: OPEN parameters that no rule reads (20_memory.md R66, R75) -/

/-- The byte order an integration chooses when it maps the two spaces onto a byte-addressed bus. -/
inductive ByteOrder where
  | leastSignificantFirst
  | mostSignificantFirst
  deriving DecidableEq, Repr, Inhabited

/-- `BYTE_ORDER` (20_memory.md R66). -/
opaque byteOrder : ByteOrder
/-- `PLACEMENT` (20_memory.md R75). -/
opaque placement : Nat

/-! ## EXP2_FRAC (40_fastmath.md R128): an OPEN function parameter with three required properties -/

/-- Property 2 of R128: on [-0.5, 0.5] the relative error against 2^f is at most 1e-5. -/
def Exp2FracAccurate (g : Word → Word) : Prop :=
  ∀ f : Word, isFinite f = true → |toRat f| ≤ 1 / 2 →
    isFinite (g f) = true ∧
    |((toRat (g f) : ℚ) : ℝ) - (2 : ℝ) ^ ((toRat f : ℚ) : ℝ)|
      ≤ 1 / 100000 * (2 : ℝ) ^ ((toRat f : ℚ) : ℝ)

/-! Lean declares a constant of a type only where the type has an element, so one function with
property 2 is built here. Nothing else uses it: the parameter below has no body. -/

/-- The Taylor polynomial of `exp (x * ln 2)` to the sixth power. -/
def exp2Series (x : ℚ) : ℚ :=
  ∑ m ∈ Finset.range 7, (6931471805 / 10000000000 * x) ^ m / (m.factorial : ℚ)

/-- The binary64 number `n / 2^20`, for `2^19 ≤ n < 2^21`. -/
def exp2Grid (n : Nat) : Word :=
  if n < 2 ^ 20 then BitVec.ofNat 64 (1022 * 2 ^ 52 + (n - 2 ^ 19) * 2 ^ 33)
  else BitVec.ofNat 64 (1023 * 2 ^ 52 + (n - 2 ^ 20) * 2 ^ 32)

theorem exp2Series_close (x : ℚ) (hx : |x| ≤ 1 / 2) :
    |((exp2Series x : ℚ) : ℝ) - (2 : ℝ) ^ (x : ℝ)| ≤ 1 / 1000000 ∧
      7 / 10 ≤ (2 : ℝ) ^ (x : ℝ) ∧ (2 : ℝ) ^ (x : ℝ) ≤ 3 / 2 := by
  have hx' : |(x : ℝ)| ≤ 1 / 2 := by
    have h : ((|x| : ℚ) : ℝ) ≤ ((1 / 2 : ℚ) : ℝ) := Rat.cast_le.mpr hx
    simpa using h
  obtain ⟨hlo, hhi⟩ := abs_le.mp hx'
  have hbound : 7 / 10 ≤ (2 : ℝ) ^ (x : ℝ) ∧ (2 : ℝ) ^ (x : ℝ) ≤ 3 / 2 := by
    have key : ((2 : ℝ) ^ (1 / 2 : ℝ)) * (2 : ℝ) ^ (1 / 2 : ℝ) = 2 := by
      rw [← Real.rpow_add two_pos]; norm_num
    have hpos : 0 < (2 : ℝ) ^ (1 / 2 : ℝ) := Real.rpow_pos_of_pos two_pos _
    have hr : (2 : ℝ) ^ (1 / 2 : ℝ) ≤ 1415 / 1000 := by nlinarith
    have h1 : (2 : ℝ) ^ (x : ℝ) ≤ (2 : ℝ) ^ (1 / 2 : ℝ) :=
      Real.rpow_le_rpow_of_exponent_le (by norm_num) hhi
    have h2 : (2 : ℝ) ^ (-(1 / 2) : ℝ) ≤ (2 : ℝ) ^ (x : ℝ) :=
      Real.rpow_le_rpow_of_exponent_le (by norm_num) hlo
    have h3 : (7 : ℝ) / 10 ≤ (2 : ℝ) ^ (-(1 / 2) : ℝ) := by
      rw [Real.rpow_neg two_pos.le, le_inv_comm₀ (by norm_num) hpos]
      linarith
    constructor <;> linarith
  refine ⟨?_, hbound⟩
  set y : ℝ := 6931471805 / 10000000000 * (x : ℝ) with hy
  have hys : ((exp2Series x : ℚ) : ℝ) = ∑ m ∈ Finset.range 7, y ^ m / (m.factorial : ℝ) := by
    simp [exp2Series, hy]
  have hyabs : |y| ≤ 35 / 100 := by
    rw [hy, abs_mul, abs_of_pos (by norm_num : (0:ℝ) < 6931471805 / 10000000000)]
    linarith
  have htaylor := Real.exp_bound (x := y) (by linarith) (n := 7) (by norm_num)
  have hy7 : |y| ^ 7 ≤ (35 / 100) ^ 7 := pow_le_pow_left₀ (abs_nonneg y) hyabs 7
  have htaylor' : |Real.exp y - ∑ m ∈ Finset.range 7, y ^ m / (m.factorial : ℝ)| ≤ 2 / 10000000 := by
    refine htaylor.trans ?_
    norm_num [Nat.factorial] at hy7 ⊢
    nlinarith
  have h2x : (2 : ℝ) ^ (x : ℝ) = Real.exp y * Real.exp ((Real.log 2 - 6931471805 / 10000000000) * x) := by
    rw [← Real.exp_add, Real.rpow_def_of_pos two_pos, hy]; ring_nf
  have hd : |(Real.log 2 - 6931471805 / 10000000000) * (x : ℝ)| ≤ 1 / 1000000000 := by
    have h1 : |Real.log 2 - 6931471805 / 10000000000| ≤ 1 / 1000000000 := by
      have := Real.log_two_gt_d9
      have := Real.log_two_lt_d9
      rw [abs_le]; constructor <;> linarith
    rw [abs_mul]
    nlinarith [abs_nonneg (x : ℝ), abs_nonneg (Real.log 2 - 6931471805 / 10000000000)]
  have hsub := Real.abs_exp_sub_one_le (hd.trans (by norm_num))
  have hexpy : Real.exp y ≤ 2 := by
    have h1 := (abs_le.mp hyabs).2
    have : Real.exp y ≤ Real.exp (Real.log 2) :=
      Real.exp_le_exp.mpr (by have := Real.log_two_gt_d9; linarith)
    rwa [Real.exp_log two_pos] at this
  have hdiff : |Real.exp y - (2 : ℝ) ^ (x : ℝ)| ≤ 4 / 1000000000 := by
    have : Real.exp y - (2 : ℝ) ^ (x : ℝ)
        = -(Real.exp y * (Real.exp ((Real.log 2 - 6931471805 / 10000000000) * x) - 1)) := by
      rw [h2x]; ring
    rw [this, abs_neg, abs_mul, abs_of_pos (Real.exp_pos y)]
    nlinarith [Real.exp_pos y, abs_nonneg (Real.exp ((Real.log 2 - 6931471805 / 10000000000) * x) - 1)]
  rw [hys]
  rw [abs_le] at *
  constructor <;> linarith [htaylor'.1, htaylor'.2, hdiff.1, hdiff.2]


theorem scaled_of_bits (e f : Nat) (he1 : 1 ≤ e) (he2 : e ≤ 2046) (hf : f < 2 ^ 52) :
    isFinite (BitVec.ofNat 64 (e * 2 ^ 52 + f)) = true ∧
      scaled (BitVec.ofNat 64 (e * 2 ^ 52 + f)) = ((2 ^ 52 + f) * 2 ^ (e - 1) : Nat) := by
  have hlt : e * 2 ^ 52 + f < 2 ^ 63 := by omega
  have hm : mag (BitVec.ofNat 64 (e * 2 ^ 52 + f)) = e * 2 ^ 52 + f := by
    rw [mag, BitVec.toNat_ofNat]; omega
  have hs : sign (BitVec.ofNat 64 (e * 2 ^ 52 + f)) = false := by
    rw [sign, BitVec.msb_eq_decide, BitVec.toNat_ofNat]
    simp only [decide_eq_false_iff_not]; omega
  have hdiv : (e * 2 ^ 52 + f) / 2 ^ 52 = e := by omega
  have hmod : (e * 2 ^ 52 + f) % 2 ^ 52 = f := by omega
  refine ⟨?_, ?_⟩
  · rw [isFinite, hm, infMag]; simp only [decide_eq_true_eq]; omega
  · have hn : ¬(e * 2 ^ 52 + f < 2 ^ 52) := by omega
    rw [scaled, hs, hm, quanta, if_neg hn, hdiv, hmod]; rfl

theorem grid_quotient (n a b : Nat) :
    (((n * 2 ^ a * 2 ^ b : Nat) : ℤ) : ℚ) / 2 ^ (20 + (a + b)) = n / 2 ^ 20 := by
  push_cast
  rw [mul_assoc, ← pow_add, pow_add 2 20 (a + b)]
  exact mul_div_mul_right _ _ (by positivity)

theorem exp2Grid_value (n : Nat) (h1 : 2 ^ 19 ≤ n) (h2 : n < 2 ^ 21) :
    isFinite (exp2Grid n) = true ∧ toRat (exp2Grid n) = n / 2 ^ 20 := by
  unfold exp2Grid
  split
  · rename_i h
    obtain ⟨hf, hs⟩ := scaled_of_bits 1022 ((n - 2 ^ 19) * 2 ^ 33) (by norm_num) (by norm_num) (by omega)
    refine ⟨hf, ?_⟩
    rw [toRat, hs]
    have : (2 ^ 52 + (n - 2 ^ 19) * 2 ^ 33 : Nat) = n * 2 ^ 33 := by omega
    rw [this]; exact grid_quotient n 33 1021
  · rename_i h
    obtain ⟨hf, hs⟩ := scaled_of_bits 1023 ((n - 2 ^ 20) * 2 ^ 32) (by norm_num) (by norm_num) (by omega)
    refine ⟨hf, ?_⟩
    rw [toRat, hs]
    have : (2 ^ 52 + (n - 2 ^ 20) * 2 ^ 32 : Nat) = n * 2 ^ 32 := by omega
    rw [this]; exact grid_quotient n 32 1022

/-- A function with property 2 of R128: the Taylor polynomial, cut to a multiple of 2^-20. -/
def exp2Witness (f : Word) : Word := exp2Grid ⌊exp2Series (toRat f) * 2 ^ 20⌋.toNat

theorem exp2Witness_accurate : Exp2FracAccurate exp2Witness := by
  intro f _ hf
  obtain ⟨herr, hlo, hhi⟩ := exp2Series_close (toRat f) hf
  obtain ⟨herr1, herr2⟩ := abs_le.mp herr
  set r := exp2Series (toRat f)
  set z := ⌊r * 2 ^ 20⌋ with hz
  have hz1 : (z : ℝ) ≤ (r : ℝ) * 2 ^ 20 := by
    have h : ((z : ℚ) : ℝ) ≤ ((r * 2 ^ 20 : ℚ) : ℝ) := Rat.cast_le.mpr (Int.floor_le _)
    push_cast at h; exact h
  have hz2 : (r : ℝ) * 2 ^ 20 < (z : ℝ) + 1 := by
    have h : ((r * 2 ^ 20 : ℚ) : ℝ) < ((z : ℚ) + 1 : ℚ) := Rat.cast_lt.mpr (Int.lt_floor_add_one _)
    push_cast at h; exact h
  have hzlo : (2 ^ 19 : ℤ) ≤ z := by
    have : ((2 ^ 19 : ℤ) : ℝ) < (z : ℝ) + 1 := by push_cast; linarith
    have : (2 ^ 19 : ℤ) < z + 1 := by exact_mod_cast this
    omega
  have hzhi : z < (2 ^ 21 : ℤ) := by
    have : (z : ℝ) < ((2 ^ 21 : ℤ) : ℝ) := by push_cast; linarith
    exact_mod_cast this
  obtain ⟨hfin, hval⟩ := exp2Grid_value z.toNat (by omega) (by omega)
  refine ⟨hfin, ?_⟩
  have hcast : ((z.toNat : ℕ) : ℝ) = (z : ℝ) := by
    have : ((z.toNat : ℤ)) = z := Int.toNat_of_nonneg (by omega)
    exact_mod_cast this
  rw [exp2Witness, hval]
  push_cast
  rw [hcast, abs_le]
  constructor <;> linarith

/-- The functions with property 2, as one type. -/
abbrev AccurateExp2Frac := {g : Word → Word // Exp2FracAccurate g}

/-- Some function with property 2; nothing more is known of it. -/
opaque someExp2Frac [Inhabited AccurateExp2Frac] : AccurateExp2Frac

/-- `EXP2_FRAC`: 1.0 exactly at both zeros (property 1), accurate on [-0.5, 0.5] (property 2), a
function of its operand alone (property 3). -/
def exp2Frac (f : Word) : Word :=
  if isZero f then 0x3FF0000000000000#64
  else (@someExp2Frac ⟨⟨exp2Witness, exp2Witness_accurate⟩⟩).1 f

/-! ## Free values -/

/-- The free bits of the NaN that operation `k` at tick `t` may produce (00_scope.md R6). -/
opaque nanBits : Nat → Nat → Word

/-- A NaN pattern chosen by the bits of `w`: its sign, and a fraction from 1 to 2^52 - 1. Every NaN
pattern is the image of some word. -/
def nanOf (w : Word) : Word := pack (sign w) (infMag + 1 + mag w % (2 ^ 52 - 1))

/-- The NaN pattern of operation `k` at tick `t`: a draw over all NaN patterns (00_scope.md R6). -/
def nanPattern (t k : Nat) : Word := nanOf (nanBits t k)

/-- The value of `exp2` out of range at tick `t`: any f64 pattern (40_fastmath.md R130). -/
opaque exp2Draw : Nat → Word

end Sys2Proof.Config

namespace Sys2Proof

/-- Everything the arithmetic rules leave open, so that the datapath can be stated for every choice.
`nan t k` is the pattern of a NaN that operation `k` of tick `t` produces; the state's `draws` gives
the tick. -/
structure OpenValues where
  /-- `EXP2_FRAC` (40_fastmath.md R128). -/
  exp2Frac : Word → Word
  /-- NaN patterns (00_scope.md R6). -/
  nan : Nat → Nat → Word
  /-- `exp2` out of range (40_fastmath.md R130). -/
  exp2Draw : Nat → Word

/-- The block's own open values. -/
def Config.openValues : OpenValues where
  exp2Frac := Config.exp2Frac
  nan := Config.nanPattern
  exp2Draw := Config.exp2Draw

end Sys2Proof
end

