-- ==== Sys2Proof/Machine/State.lean ====
section
/-! DEFINITION. The state of the block (10_state.md), the host's transactions, and why a step stops. -/

namespace Sys2Proof.Machine

/-- The three oscillators: record 0 is osc1, 1 is osc2, 2 is the lfo (10_state.md R31). -/
inductive Osc where
  | osc1
  | osc2
  | lfo
  deriving DecidableEq, Repr

/-- An oscillator record (10_state.md R31). Every field is an f64 pattern but `wrap`. -/
structure OscRec where
  /-- `BASE_FREQ` (R32). -/
  baseFreq : Word
  /-- `OCTAVE` (R32). -/
  octave : Word
  /-- `SEMITONE` (R32). -/
  semitone : Word
  /-- `CENT` (R32). -/
  cent : Word
  /-- `AMPLITUDE` (R32). -/
  amplitude : Word
  /-- `PHASE`, the stored phase (R33). -/
  phase : Word
  /-- `FREQ_MOD` (R34). -/
  freqMod : Word
  /-- `FREQ_MOD_RATIO` (R34). -/
  freqModRatio : Word
  /-- `PHASE_MOD` (R34). -/
  phaseMod : Word
  /-- `AMP_MOD` (R34). -/
  ampMod : Word
  /-- `OUT` (R35). -/
  out : Word
  /-- `OUTQ` (R35). -/
  outQ : Word
  /-- `PUB_PHASE` (R36). -/
  pubPhase : Word
  /-- `INC` (R36). -/
  inc : Word
  /-- `WRAP`: the flag in bit 0, bits 63:1 zero (R37). -/
  wrap : Word
  deriving DecidableEq, Repr

/-- The record after reset: +0.0 and 0 (10_state.md R40). -/
def OscRec.reset : OscRec where
  baseFreq := 0
  octave := 0
  semitone := 0
  cent := 0
  amplitude := 0
  phase := 0
  freqMod := 0
  freqModRatio := 0
  phaseMod := 0
  ampMod := 0
  out := 0
  outQ := 0
  pubPhase := 0
  inc := 0
  wrap := 0

/-- The sample buffer (20_memory.md R63): the words that something has written since reset, by index,
indices strictly rising. An unlisted word holds no value (R64). The spec's unit is the whole 64-bit
word and it has no byte layout (R66), so the cells are words. -/
abbrev Memory := List (Nat × Word)

/-- A transaction of the host (20_memory.md section 5). -/
inductive HostOp where
  /-- Register read (R61). -/
  | readReg (index : BitVec 8)
  /-- Register write; at index 0 it executes a command (R62). -/
  | writeReg (index : BitVec 8) (value : Word)
  /-- Buffer read, `MemRead(k, 8)` (R63). -/
  | readBuf (k : Nat)
  /-- Buffer write, `MemWrite(k, 8, v)` (R63). -/
  | writeBuf (k : Nat) (value : Word)
  /-- Reset (70_reset_and_hazards.md R340). -/
  | reset
  deriving DecidableEq, Repr

/-- The state of the machine: the register space, the sample buffer, and the model's own `pending`,
`reply` and `draws`. `CMD` holds nothing (10_state.md R23). -/
structure State where
  /-- `STATUS` (R24). -/
  status : Word
  /-- `SAMPLE_RATE` (R22). -/
  sampleRate : Word
  /-- `ARG0` (R25). -/
  arg0 : Word
  /-- `RESULT0` (R26). -/
  result0 : Word
  /-- `MIX_OUT` (R27). -/
  mixOut : Word
  /-- `BUF_BASE` (R28). -/
  bufBase : Word
  /-- `BUF_COUNT` (R29). -/
  bufCount : Word
  /-- Record 0 (R31). -/
  osc1 : OscRec
  /-- Record 1. -/
  osc2 : OscRec
  /-- Record 2. -/
  lfo : OscRec
  /-- The sample buffer (20_memory.md R63). -/
  buffer : Memory
  /-- MODEL (DESIGN CHOICE): the host's transactions still to be performed, the next one first
  (20_memory.md R70). -/
  pending : List HostOp
  /-- MODEL (DESIGN CHOICE): the word the last transaction gave the host, if it gave one (R61, R63). -/
  reply : Option Word
  /-- MODEL (DESIGN CHOICE): the tick that indexes the free values of 00_scope.md R6 and
  40_fastmath.md R130. -/
  draws : Nat
  /-- `BUF_LEN`, constant (R30). -/
  bufLen : Word
  deriving DecidableEq, Repr

/-- Why the machine stops. -/
inductive Fault where
  /-- A host read of a buffer word that nothing has written since reset: the spec says that the read
  faults (20_memory.md R64). Raised by the host transaction `readBuf`. Safe. -/
  | unwrittenBufferWord
  deriving DecidableEq, Repr

/-- Why the model gives an instruction no meaning. -/
inductive Refusal where
  /-- An instruction whose meaning is not written yet, by its mnemonic. Raised by `exec` alone; no arm
  of it does, every command has its meaning. Safe. -/
  | notModelled (mnemonic : String)
  deriving DecidableEq, Repr

/-- What a command or a host transaction ends in. -/
abbrev Result := Host.Outcome State Fault Refusal

/-- The machine after reset (10_state.md R40, 20_memory.md R64). No transaction is pending. -/
def State.reset : State where
  status := 0
  sampleRate := 0
  arg0 := 0
  result0 := 0
  mixOut := 0
  bufBase := 0
  bufCount := 0
  osc1 := OscRec.reset
  osc2 := OscRec.reset
  lfo := OscRec.reset
  buffer := []
  pending := []
  reply := none
  draws := 0
  bufLen := Config.bufLen

end Sys2Proof.Machine
end

