-- ==== Sys2Proof/Machine/Flags.lean ====
section
/-! DEFINITION. The flags of the block: the STATUS bits and the wrap flag (10_state.md R24, R37, R42). -/

namespace Sys2Proof.Machine

/-- The fields of `STATUS` (10_state.md R24). -/
inductive StatusBit where
  /-- The synth graph has been constructed. -/
  | configured
  /-- An illegal command was written (60_exceptions.md R301). -/
  | errCmd
  /-- A command needed a constructed graph (R302). -/
  | errNotCfg
  /-- INIT found `SAMPLE_RATE` not above 0 (R303). -/
  | errSr
  /-- RENDER's range exceeds the buffer (R304). -/
  | errRange
  /-- A refused host access (R305). -/
  | errWr
  /-- An `exp2` evaluation was out of range (R306). -/
  | exp2Oor
  deriving DecidableEq, Repr

/-- The bit's place in `STATUS` (10_state.md R24). -/
def StatusBit.pos : StatusBit → Nat
  | .configured => 0
  | .errCmd => 1
  | .errNotCfg => 2
  | .errSr => 3
  | .errRange => 4
  | .errWr => 5
  | .exp2Oor => 6

/-- The bit alone. -/
def StatusBit.mask (b : StatusBit) : Word := 1#64 <<< b.pos

/-- `STATUS` with one more bit set (10_state.md R24: the block only sets bits). -/
def withBit (b : StatusBit) (status : Word) : Word := status ||| b.mask

/-- `STATUS` with one more bit set where `c` says so. -/
def withBitIf (c : Bool) (b : StatusBit) (status : Word) : Word :=
  if c then withBit b status else status

/-- Whether a `STATUS` bit is set. -/
def State.flag (s : State) (b : StatusBit) : Bool := s.status.getLsbD b.pos

/-- `zext_64(w)` of a wrap flag (10_state.md R37, 41_phase_accumulator.md R167). -/
def wrapWord (w : Bool) : Word := if w then 1 else 0

end Sys2Proof.Machine
end

