-- ==== Sys2Proof/Machine/Ops.lean ====
section
/-! DEFINITION. The named operations over the registers and the sample buffer, and raising an error,
which is what this block has in the place of an exception (60_exceptions.md R300, R310). -/

namespace Sys2Proof.Machine

/-! ## Register updates -/

def State.setStatus (v : Word) (s : State) : State := { s with status := v }
def State.setSampleRate (v : Word) (s : State) : State := { s with sampleRate := v }
def State.setArg0 (v : Word) (s : State) : State := { s with arg0 := v }
def State.setResult0 (v : Word) (s : State) : State := { s with result0 := v }
def State.setMixOut (v : Word) (s : State) : State := { s with mixOut := v }
def State.setBufBase (v : Word) (s : State) : State := { s with bufBase := v }
def State.setBufCount (v : Word) (s : State) : State := { s with bufCount := v }
def State.setOsc1 (r : OscRec) (s : State) : State := { s with osc1 := r }
def State.setOsc2 (r : OscRec) (s : State) : State := { s with osc2 := r }
def State.setLfo (r : OscRec) (s : State) : State := { s with lfo := r }
def State.setBuffer (m : Memory) (s : State) : State := { s with buffer := m }
def State.setPending (l : List HostOp) (s : State) : State := { s with pending := l }
def State.setReply (r : Option Word) (s : State) : State := { s with reply := r }
def State.setDraws (t : Nat) (s : State) : State := { s with draws := t }

/-- The record `O[i]` (10_state.md R31). -/
def State.oscRec (s : State) : Osc → OscRec
  | .osc1 => s.osc1
  | .osc2 => s.osc2
  | .lfo => s.lfo

/-- The state with the record `O[i]` replaced. -/
def State.setOsc (i : Osc) (r : OscRec) (s : State) : State :=
  match i with
  | .osc1 => s.setOsc1 r
  | .osc2 => s.setOsc2 r
  | .lfo => s.setLfo r

/-- The next free values (00_scope.md R6, 40_fastmath.md R130) are new ones. -/
def State.tick (s : State) : State := s.setDraws (s.draws + 1)

/-! ## The sample buffer (20_memory.md R63) -/

/-- `MemRead(k, 8)`: nothing for a word that nothing has written (R64). -/
def Memory.read : Memory → Nat → Option Word
  | [], _ => none
  | (j, w) :: m, k => if j = k then some w else Memory.read m k

/-- `MemWrite(k, 8, v)`, which keeps the indices strictly rising. -/
def Memory.write : Memory → Nat → Word → Memory
  | [], k, v => [(k, v)]
  | (j, w) :: m, k, v =>
    if k < j then (k, v) :: (j, w) :: m
    else if k = j then (k, v) :: m
    else (j, w) :: Memory.write m k v

/-- Every index listed is above `lo`, and the indices rise strictly. -/
def Memory.risingFrom : Nat → Memory → Bool
  | _, [] => true
  | lo, (j, _) :: m => decide (lo ≤ j) && Memory.risingFrom (j + 1) m

/-- The canonical form: indices strictly rising. An unlisted word has no value, so no entry can equal
what it reads as. -/
def Memory.wf (m : Memory) : Bool := Memory.risingFrom 0 m

/-- Every index listed is a word of the buffer (20_memory.md R60). -/
def Memory.below (m : Memory) (len : Nat) : Bool := m.all fun c => decide (c.1 < len)

/-! ## Errors -/

/-- `raise Err(BIT)`: the bit is set, nothing else changes and the machine goes on
(60_exceptions.md R300). The block has no trap, so nothing is saved and there is no return (R310). -/
def raiseErr (b : StatusBit) (s : State) : Result := .next (s.setStatus (withBit b s.status))

/-- The check of the commands that need a constructed graph (60_exceptions.md R302). -/
def whenConfigured (s : State) (next : Result) : Result :=
  if s.flag .configured then next else raiseErr .errNotCfg s

end Sys2Proof.Machine
end

