-- ==== Sys2Proof/Machine/Operands.lean ====
section
/-! DEFINITION. The operands: the `SEL` field (30_encoding.md R92) and the map of the register space
(10_state.md R21, R31). -/

namespace Sys2Proof.Machine

/-- The oscillator that `SEL` names (30_encoding.md R92); 3 to 15 name none. -/
def oscOfSel (sel : BitVec 4) : Option Osc :=
  match sel with
  | 0#4 => some .osc1
  | 1#4 => some .osc2
  | 2#4 => some .lfo
  | _ => none

/-- The fields of an oscillator record (10_state.md R31). -/
inductive Field where
  | baseFreq
  | octave
  | semitone
  | cent
  | amplitude
  | phase
  | freqMod
  | freqModRatio
  | phaseMod
  | ampMod
  | out
  | outQ
  | pubPhase
  | inc
  | wrap
  deriving DecidableEq, Repr

/-- Field `k` of a record; `k = 0xF` is reserved (10_state.md R31). -/
def fieldAt (k : BitVec 4) : Option Field :=
  match k with
  | 0x0#4 => some .baseFreq
  | 0x1#4 => some .octave
  | 0x2#4 => some .semitone
  | 0x3#4 => some .cent
  | 0x4#4 => some .amplitude
  | 0x5#4 => some .phase
  | 0x6#4 => some .freqMod
  | 0x7#4 => some .freqModRatio
  | 0x8#4 => some .phaseMod
  | 0x9#4 => some .ampMod
  | 0xA#4 => some .out
  | 0xB#4 => some .outQ
  | 0xC#4 => some .pubPhase
  | 0xD#4 => some .inc
  | 0xE#4 => some .wrap
  | _ => none

/-- The value of a field. -/
def OscRec.get (r : OscRec) : Field → Word
  | .baseFreq => r.baseFreq
  | .octave => r.octave
  | .semitone => r.semitone
  | .cent => r.cent
  | .amplitude => r.amplitude
  | .phase => r.phase
  | .freqMod => r.freqMod
  | .freqModRatio => r.freqModRatio
  | .phaseMod => r.phaseMod
  | .ampMod => r.ampMod
  | .out => r.out
  | .outQ => r.outQ
  | .pubPhase => r.pubPhase
  | .inc => r.inc
  | .wrap => r.wrap

/-- The record with one field replaced. -/
def OscRec.set (r : OscRec) (f : Field) (v : Word) : OscRec :=
  match f with
  | .baseFreq => { r with baseFreq := v }
  | .octave => { r with octave := v }
  | .semitone => { r with semitone := v }
  | .cent => { r with cent := v }
  | .amplitude => { r with amplitude := v }
  | .phase => { r with phase := v }
  | .freqMod => { r with freqMod := v }
  | .freqModRatio => { r with freqModRatio := v }
  | .phaseMod => { r with phaseMod := v }
  | .ampMod => { r with ampMod := v }
  | .out => { r with out := v }
  | .outQ => { r with outQ := v }
  | .pubPhase => { r with pubPhase := v }
  | .inc => { r with inc := v }
  | .wrap => { r with wrap := v }

/-- The registers that are not reserved (10_state.md R21). -/
inductive Reg where
  | cmd
  | status
  | sampleRate
  | arg0
  | result0
  | mixOut
  | bufBase
  | bufCount
  | bufLen
  | osc (i : Osc) (f : Field)
  deriving DecidableEq, Repr

/-- The register at an index; none where the index is reserved (10_state.md R21). -/
def regAt (j : BitVec 8) : Option Reg :=
  match j.extractLsb' 4 4 with
  | 0x0#4 =>
    match j.extractLsb' 0 4 with
    | 0x0#4 => some .cmd
    | 0x1#4 => some .status
    | 0x2#4 => some .sampleRate
    | 0x3#4 => some .arg0
    | 0x4#4 => some .result0
    | 0x5#4 => some .mixOut
    | 0x6#4 => some .bufBase
    | 0x7#4 => some .bufCount
    | 0x8#4 => some .bufLen
    | _ => none
  | 0x1#4 => (fieldAt (j.extractLsb' 0 4)).map (.osc .osc1)
  | 0x2#4 => (fieldAt (j.extractLsb' 0 4)).map (.osc .osc2)
  | 0x3#4 => (fieldAt (j.extractLsb' 0 4)).map (.osc .lfo)
  | _ => none

/-- The host's right to a register (10_state.md R21). -/
inductive Access where
  /-- `W`: `CMD`. -/
  | writeOnly
  /-- `R`. -/
  | readOnly
  /-- `RW`. -/
  | readWrite
  /-- `RW/R`: read-write while `CONFIGURED = 0`, read-only after. -/
  | readWriteUntilInit
  deriving DecidableEq, Repr

/-- The access column of R31. -/
def Field.access : Field → Access
  | .baseFreq => .readWrite
  | .octave => .readWrite
  | .semitone => .readWrite
  | .cent => .readWrite
  | .amplitude => .readWrite
  | .phase => .readWrite
  | .freqMod => .readWrite
  | .freqModRatio => .readWrite
  | .phaseMod => .readWrite
  | .ampMod => .readWrite
  | .out => .readOnly
  | .outQ => .readOnly
  | .pubPhase => .readOnly
  | .inc => .readOnly
  | .wrap => .readOnly

/-- The access column of R21. -/
def Reg.access : Reg → Access
  | .cmd => .writeOnly
  | .status => .readOnly
  | .sampleRate => .readWriteUntilInit
  | .arg0 => .readWrite
  | .result0 => .readOnly
  | .mixOut => .readOnly
  | .bufBase => .readWrite
  | .bufCount => .readWrite
  | .bufLen => .readOnly
  | .osc _ f => f.access

/-- The value a register holds; `CMD` reads as 0 (20_memory.md R61). -/
def State.regValue (s : State) : Reg → Word
  | .cmd => 0
  | .status => s.status
  | .sampleRate => s.sampleRate
  | .arg0 => s.arg0
  | .result0 => s.result0
  | .mixOut => s.mixOut
  | .bufBase => s.bufBase
  | .bufCount => s.bufCount
  | .bufLen => s.bufLen
  | .osc i f => (s.oscRec i).get f

/-- `x[i] <- v` for a register the host may write; the others hold what they held. -/
def State.storeReg (r : Reg) (v : Word) (s : State) : State :=
  match r with
  | .cmd => s
  | .status => s
  | .sampleRate => s.setSampleRate v
  | .arg0 => s.setArg0 v
  | .result0 => s
  | .mixOut => s
  | .bufBase => s.setBufBase v
  | .bufCount => s.setBufCount v
  | .bufLen => s
  | .osc i f => s.setOsc i ((s.oscRec i).set f v)

/-- What a host read of register index `j` returns: 0 for a reserved index (20_memory.md R61). -/
def State.readReg (s : State) (j : BitVec 8) : Word :=
  match regAt j with
  | none => 0
  | some r => s.regValue r

/-- Whether the host may write the register now (20_memory.md R62). -/
def State.writable (s : State) (r : Reg) : Bool :=
  match r.access with
  | .writeOnly => false
  | .readOnly => false
  | .readWrite => true
  | .readWriteUntilInit => !s.flag .configured

end Sys2Proof.Machine
end

