-- ==== Sys2Proof/Machine/Control.lean ====
section
/-! DEFINITION. The control command NOP (44_control.md). -/

namespace Sys2Proof.Machine

/-- `NOP`: no register, flag or buffer word changes (R260). -/
def execNop (s : State) : Result := .next s

end Sys2Proof.Machine
end

