-- ==== Sys2Proof/Machine/FastMath.lean ====
section
/-! DEFINITION. The FastMath unit: `parabolic_sine`, `exp2`, `wrap01` and the commands PSIN, EXP2 and
WRAP01 (40_fastmath.md).

A function that computes several binary64 operations takes `nan : Nat → Word`, one NaN pattern for
each of its operations (00_scope.md R6). -/

namespace Sys2Proof.Machine

open F64

/-- The NaN patterns from operation `k` on. -/
def sitesFrom (nan : Nat → Word) (k : Nat) : Nat → Word := fun i => nan (k + i)

/-! ## parabolic_sine (R120 to R124) -/

/-- The first stage, `y = B·x + C·x·|x|` (R122). -/
def psinFirst (nan : Nat → Word) (x : Word) : Word :=
  add (nan 3) (mul (nan 0) Config.psinB x) (mul (nan 2) (mul (nan 1) Config.psinC x) (F64.abs x))

/-- The second stage, `P·(y·|y| − y) + y` (R122). -/
def psinSecond (nan : Nat → Word) (y : Word) : Word :=
  add (nan 7) (mul (nan 6) Config.psinP (sub (nan 5) (mul (nan 4) y (F64.abs y)) y)) y

/-- `parabolic_sine(x)` (R122). -/
def parabolicSine (nan : Nat → Word) (x : Word) : Word := psinSecond nan (psinFirst nan x)

/-! ## exp2 (R125 to R131) -/

/-- What an `exp2` evaluation gives: its value, and whether it was out of range (R130). -/
structure Exp2Result where
  value : Word
  outOfRange : Bool
  deriving DecidableEq, Repr

/-- `n`, the integer part of a finite `x` (R127). -/
def exp2Int (x : Word) : Int := toInt (roundHalfAway x)

/-- `fp`, the fraction of a finite `x` (R127); the subtraction is exact. -/
def exp2Fp (nan : Word) (x : Word) : Word := sub nan x (roundHalfAway x)

/-- Whether `exp2(x)` is fixed: `x` is finite and `n + EXP2_BIAS` fits the exponent field of a normal
number (R129, R130). -/
def exp2InRange (x : Word) : Bool :=
  isFinite x && decide (1 ≤ exp2Int x + Config.exp2Bias) && decide (exp2Int x + Config.exp2Bias ≤ 2046)

/-- `2^n`, built in the exponent field (R129). -/
def exp2Scale (n : Int) : Word := BitVec.ofNat 64 (n + Config.exp2Bias).toNat <<< Config.exp2Shift

/-- `exp2(x)` (R129), or the draw with the flag (R130). -/
def exp2 (frac : Word → Word) (draw : Word) (nan : Nat → Word) (x : Word) : Exp2Result :=
  if exp2InRange x then
    { value := mul (nan 1) (frac (exp2Fp (nan 0) x)) (exp2Scale (exp2Int x)), outOfRange := false }
  else { value := draw, outOfRange := true }

/-- The default instance of `EXP2_FRAC` (R128, marked there as general knowledge). The block does not
use it: `Config.exp2Frac` is open. It serves the test vectors that 95_test_vectors.md marks F. -/
def exp2FracDefault (nan : Nat → Word) (f : Word) : Word :=
  let p0 := ofFraction false 230933477057345225087 (10 ^ 22)
  let p1 := ofFraction false 202020656693165307700 (10 ^ 19)
  let p2 := ofFraction false 151390680115615096133 (10 ^ 17)
  let q0 := ofFraction false 233184211722314911771 (10 ^ 18)
  let q1 := ofFraction false 436821166879210612817 (10 ^ 17)
  let xx := mul (nan 0) f f
  let px := mul (nan 5) f (add (nan 4) (mul (nan 3) (add (nan 2) (mul (nan 1) p0 xx) p1) xx) p2)
  let qx := add (nan 8) (mul (nan 7) (add (nan 6) xx q0) xx) q1
  let r := div (nan 10) px (sub (nan 9) qx px)
  add (nan 12) one (mul (nan 11) (ofFraction false 2 1) r)

/-! ## wrap01 (R132 to R135) -/

/-- `wrap01(x)` (R133). -/
def wrap01 (nan : Nat → Word) (x : Word) : Word :=
  if ge x 0 && lt x one then x
  else if lt (fmod (nan 0) x one) 0 then add (nan 1) (fmod (nan 0) x one) one
  else fmod (nan 0) x one

/-! ## The commands -/

/-- `PSIN` (R140). -/
def execPsin (s : State) : Result :=
  .next (s.setResult0 (parabolicSine (Config.openValues.nan s.draws) s.arg0)).tick

/-- `exp2` of `ARG0` with the open values `v` at the state's tick. -/
def exp2OfArg0 (v : OpenValues) (s : State) : Exp2Result :=
  exp2 v.exp2Frac (v.exp2Draw s.draws) (v.nan s.draws) s.arg0

/-- `RESULT0` and `EXP2_OOR` written from an `exp2` evaluation (R130, R141). -/
def State.putExp2 (r : Exp2Result) (s : State) : State :=
  ((s.setResult0 r.value).setStatus (withBitIf r.outOfRange .exp2Oor s.status)).tick

/-- `EXP2` (R141). -/
def execExp2 (s : State) : Result := .next (s.putExp2 (exp2OfArg0 Config.openValues s))

/-- `WRAP01` (R142). -/
def execWrap01 (s : State) : Result :=
  .next (s.setResult0 (wrap01 (Config.openValues.nan s.draws) s.arg0)).tick

end Sys2Proof.Machine
end

