-- ==== Sys2Proof/Machine/PhaseAccumulator.lean ====
section
/-! DEFINITION. The phase accumulator step and the command PASTEP (41_phase_accumulator.md). -/

namespace Sys2Proof.Machine

open F64

/-- What a step of an oscillator gives: its record after the step, and whether the step's `exp2` was out
of range. The phase the step returns is `osc.pubPhase` (R167). -/
structure StepResult where
  osc : OscRec
  outOfRange : Bool
  deriving DecidableEq, Repr

/-- A step of an oscillator: the open values, the tick, `SAMPLE_RATE` and the record (10_state.md R41). -/
abbrev OscStep := OpenValues → Nat → Word → OscRec → StepResult

/-- The pitch exponent `s`, in semitones (R161). -/
def pitchExponent (nan : Nat → Word) (o : OscRec) : Word :=
  add (nan 4) (add (nan 2) (add (nan 1) o.freqMod (mul (nan 0) o.octave twelve)) o.semitone)
    (div (nan 3) o.cent hundred)

/-- The pitch multiplier `m = exp2(s / 12.0)` (R162). -/
def pitchMultiplier (v : OpenValues) (t : Nat) (o : OscRec) : Exp2Result :=
  exp2 v.exp2Frac (v.exp2Draw t) (sitesFrom (v.nan t) 6)
    (div (v.nan t 5) (pitchExponent (v.nan t) o) twelve)

/-- `clamp(v, lo, hi)`; a NaN passes (R163). -/
def clamp (x lo hi : Word) : Word := if lt x lo then lo else if gt x hi then hi else x

/-- The frequency `f` for a pitch multiplier `m` (R164). -/
def stepFrequency (nan : Nat → Word) (o : OscRec) (m : Word) : Word :=
  clamp (mul (nan 9) (mul (nan 8) o.baseFreq o.freqModRatio) m) (neg Config.fClamp) Config.fClamp

/-- The increment `inc` (R165). -/
def stepIncrement (nan : Nat → Word) (sampleRate : Word) (o : OscRec) (m : Word) : Word :=
  div (nan 10) (stepFrequency nan o m) sampleRate

/-- The stored phase `p` meets the bound that matches the sign of `inc` (R166). -/
def foldsDown (inc p : Word) : Bool := gt inc 0 && ge p one
def foldsUp (inc p : Word) : Bool := lt inc 0 && le p 0

/-- The published phase: the stored phase folded at most once (R166). -/
def publishedPhase (nan : Nat → Word) (inc p : Word) : Word :=
  if foldsDown inc p then sub (nan 11) p one
  else if foldsUp inc p then add (nan 11) p one
  else p

/-- The wrap flag of the step (R166). -/
def wrapFlag (inc p : Word) : Bool := foldsDown inc p || foldsUp inc p

/-- Publish and advance (R167). -/
def publish (nan : Nat → Word) (inc : Word) (o : OscRec) : OscRec :=
  { o with
    pubPhase := publishedPhase nan inc o.phase
    wrap := wrapWord (wrapFlag inc o.phase)
    inc := inc
    phase := add (nan 12) (publishedPhase nan inc o.phase) inc }

/-- `PAStep(i)` on a record (R168). -/
def paStep : OscStep := fun v t sampleRate o =>
  { osc := publish (v.nan t) (stepIncrement (v.nan t) sampleRate o (pitchMultiplier v t o).value) o
    outOfRange := (pitchMultiplier v t o).outOfRange }

/-- Oscillator `i` advanced by a step: its record is replaced and `EXP2_OOR` recorded; no other record is
read or written (10_state.md R41, 40_fastmath.md R130). -/
def State.stepOsc (v : OpenValues) (i : Osc) (step : OscStep) (s : State) : State :=
  let r := step v s.draws s.sampleRate (s.oscRec i)
  ((s.setOsc i r.osc).setStatus (withBitIf r.outOfRange .exp2Oor s.status)).tick

/-- The oscillator commands: `SEL` must name an oscillator (30_encoding.md R91, which the decoder has
already checked), then the graph must be constructed (60_exceptions.md R307). -/
def onOscillator (sel : BitVec 4) (step : OscStep) (s : State) : Result :=
  match oscOfSel sel with
  | none => raiseErr .errCmd s
  | some i => whenConfigured s (.next (s.stepOsc Config.openValues i step))

/-- `PASTEP i` (R175). -/
def execPastep (sel : BitVec 4) (s : State) : Result := onOscillator sel paStep s

end Sys2Proof.Machine
end

