-- ==== Sys2Proof/Machine/Oscillators.lean ====
section
/-! DEFINITION. The tone and quadrature output stages and the commands TONESTEP and QUADSTEP
(42_oscillators.md). -/

namespace Sys2Proof.Machine

open F64

/-- `angle(q) = -((wrap01(q) * TAU) - PI)` (R190). -/
def angle (nan : Nat → Word) (q : Word) : Word :=
  neg (sub (nan 3) (mul (nan 2) (wrap01 nan q) Config.tau) Config.pi)

/-- The sample at phase `q`: the sine of its angle, times the static and then the modulation gain
(R190, R191). -/
def sampleAt (nan : Nat → Word) (o : OscRec) (q : Word) : Word :=
  mul (nan 13) (mul (nan 12) (parabolicSine (sitesFrom nan 4) (angle nan q)) o.amplitude) o.ampMod

/-- The tone output stage, on the record a step has published into (R192). -/
def toneOutput (nan : Nat → Word) (o : OscRec) : OscRec :=
  { o with out := sampleAt (sitesFrom nan 21) o (add (nan 20) o.pubPhase o.phaseMod) }

/-- `ToneStep(i)` on a record (R192). -/
def toneStep : OscStep := fun v t sampleRate o =>
  { osc := toneOutput (v.nan t) (paStep v t sampleRate o).osc
    outOfRange := (paStep v t sampleRate o).outOfRange }

/-- The quadrature output stage (R195): in phase at `p`, quadrature at `p + 0.25`; `PHASE_MOD` is not
read. -/
def quadOutput (nan : Nat → Word) (o : OscRec) : OscRec :=
  { o with
    out := sampleAt (sitesFrom nan 21) o o.pubPhase
    outQ := sampleAt (sitesFrom nan 41) o (add (nan 40) o.pubPhase quarter) }

/-- `QuadStep(i)` on a record (R195). -/
def quadStep : OscStep := fun v t sampleRate o =>
  { osc := quadOutput (v.nan t) (paStep v t sampleRate o).osc
    outOfRange := (paStep v t sampleRate o).outOfRange }

/-- `TONESTEP i` (R194). -/
def execTonestep (sel : BitVec 4) (s : State) : Result := onOscillator sel toneStep s

/-- `QUADSTEP i` (R197). -/
def execQuadstep (sel : BitVec 4) (s : State) : Result := onOscillator sel quadStep s

end Sys2Proof.Machine
end

