-- ==== Sys2Proof/Machine/SynthGraph.lean ====
section
/-! DEFINITION. The synth graph: INIT, GSTEP and RENDER (43_synth_graph.md). -/

namespace Sys2Proof.Machine

open F64

/-! ## Construction (R221 to R225) -/

/-- A record as INIT loads it, for a base frequency and a cent offset (R224). -/
def OscRec.constructed (baseFreq cent : Word) : OscRec where
  baseFreq := baseFreq
  octave := 0
  semitone := 0
  cent := cent
  amplitude := one
  phase := 0
  freqMod := 0
  freqModRatio := one
  phaseMod := 0
  ampMod := one
  out := 0
  outQ := 0
  pubPhase := 0
  inc := 0
  wrap := 0

/-- The construction values loaded into the three records (R221, R224). -/
def State.construct (s : State) : State :=
  ((s.setOsc1 (OscRec.constructed Config.refFreq 0)).setOsc2
    (OscRec.constructed Config.refFreq Config.osc2DetuneCents)).setLfo
    (OscRec.constructed Config.lfoFreq 0)

/-- `INIT` (R222): a second INIT raises `ERR_CMD` (R225), a rate not above 0 raises `ERR_SR` (R223). -/
def execInit (s : State) : Result :=
  if s.flag .configured then raiseErr .errCmd s
  else if !gt s.sampleRate 0 then raiseErr .errSr s
  else .next ((s.construct.setMixOut 0).setStatus (withBit .configured s.status))

/-! ## One graph sample (R226 to R229) -/

/-- The lfo's in-phase output copied into `FREQ_MOD` of both tone oscillators (R227). -/
def State.feedLfo (s : State) : State :=
  (s.setOsc1 { s.osc1 with freqMod := s.lfo.out }).setOsc2 { s.osc2 with freqMod := s.lfo.out }

/-- `(0.5 * a) + (0.5 * b)` (R228). -/
def mix (nan : Nat → Word) (a b : Word) : Word :=
  add (nan 2) (mul (nan 0) half a) (mul (nan 1) half b)

/-- `MIX_OUT` written from the two tone outputs (R228). -/
def State.putMix (v : OpenValues) (s : State) : State :=
  (s.setMixOut (mix (v.nan s.draws) s.osc1.out s.osc2.out)).tick

/-- `GraphSample()`: the lfo first, then both tone oscillators, then the mix (R226, R228). -/
def State.graphSample (v : OpenValues) (s : State) : State :=
  ((((s.stepOsc v .lfo quadStep).feedLfo).stepOsc v .osc1 toneStep).stepOsc v .osc2 toneStep).putMix v

/-- `GSTEP` (R229). -/
def execGstep (s : State) : Result := whenConfigured s (.next (s.graphSample Config.openValues))

/-! ## Render into the buffer (R230 to R233) -/

/-- `n` graph samples into the buffer from word `k` up (R230, 20_memory.md R76). -/
def State.renderLoop (v : OpenValues) (n k : Nat) (s : State) : State :=
  match n with
  | 0 => s
  | n + 1 =>
    let s' := s.graphSample v
    State.renderLoop v n (k + 1) (s'.setBuffer (s'.buffer.write k s'.mixOut))

/-- The range check, on exact integers (R231). -/
def State.renderFits (s : State) : Bool :=
  decide (s.bufBase.toNat + s.bufCount.toNat ≤ s.bufLen.toNat)

/-- `RENDER` (R230). -/
def execRender (s : State) : Result :=
  whenConfigured s
    (if s.renderFits then
      .next (s.renderLoop Config.openValues s.bufCount.toNat s.bufBase.toNat)
    else raiseErr .errRange s)

end Sys2Proof.Machine
end

