-- ==== Sys2Proof/Machine/Dispatch.lean ====
section
/-! DEFINITION. One arm per command (30_encoding.md R94). -/

namespace Sys2Proof.Machine

def exec (i : Instr) (s : State) : Host.Outcome State Fault Refusal :=
  match i with
  | .nop => Sys2Proof.Machine.execNop s
  | .init => Sys2Proof.Machine.execInit s
  | .psin => Sys2Proof.Machine.execPsin s
  | .exp2 => Sys2Proof.Machine.execExp2 s
  | .wrap01 => Sys2Proof.Machine.execWrap01 s
  | .pastep sel => Sys2Proof.Machine.execPastep sel s
  | .tonestep sel => Sys2Proof.Machine.execTonestep sel s
  | .quadstep sel => Sys2Proof.Machine.execQuadstep sel s
  | .gstep => Sys2Proof.Machine.execGstep s
  | .render => Sys2Proof.Machine.execRender s

end Sys2Proof.Machine
end

