-- ==== Sys2Proof/Machine/HostPort.lean ====
section
/-! DEFINITION. The host's transactions (20_memory.md R61 to R65, 70_reset_and_hazards.md R340). -/

namespace Sys2Proof.Machine

/-- A command write: decode, then execute; an illegal word raises `ERR_CMD` (30_encoding.md R91,
60_exceptions.md R301). -/
def writeCommand (v : Word) (s : State) : Result :=
  match decode v with
  | .error _ => raiseErr .errCmd s
  | .ok i => exec i s

/-- A host read of a register: the word goes back to the host, nothing else changes (20_memory.md R61). -/
def hostReadReg (j : BitVec 8) (s : State) : Result := .next (s.setReply (some (s.readReg j)))

/-- A host write of a register other than `CMD`: stored, or refused with `ERR_WR` (20_memory.md R62). -/
def hostStoreReg (j : BitVec 8) (v : Word) (s : State) : Result :=
  match regAt j with
  | none => raiseErr .errWr s
  | some r => if s.writable r then .next (s.storeReg r v) else raiseErr .errWr s

/-- A host write of register index `j` (20_memory.md R62). -/
def hostWriteReg (j : BitVec 8) (v : Word) (s : State) : Result :=
  if j = 0x00#8 then writeCommand v s else hostStoreReg j v s

/-- A host read of buffer word `k`: at or past `BUF_LEN` it returns 0 and records `ERR_WR`
(20_memory.md R65); a word that nothing has written faults (R64). -/
def hostReadBuf (k : Nat) (s : State) : Result :=
  if k < s.bufLen.toNat then
    match s.buffer.read k with
    | some w => .next (s.setReply (some w))
    | none => .fault .unwrittenBufferWord
  else raiseErr .errWr (s.setReply (some 0))

/-- A host write of buffer word `k`: at or past `BUF_LEN` it is ignored and records `ERR_WR`
(20_memory.md R63, R65). -/
def hostWriteBuf (k : Nat) (v : Word) (s : State) : Result :=
  if k < s.bufLen.toNat then .next (s.setBuffer (s.buffer.write k v)) else raiseErr .errWr s

/-- Reset: every register at its reset value, `BUF_LEN` at the parameter it always reads, no buffer word
with a value (70_reset_and_hazards.md R340). The host's further transactions stand, and the free
values are not used again. -/
def State.resetBlock (s : State) : State :=
  ((({ State.reset with bufLen := s.bufLen } : State).setPending s.pending).setReply s.reply).setDraws s.draws

/-- One transaction of the host. -/
def hostOp (op : HostOp) (s : State) : Result :=
  match op with
  | .readReg j => hostReadReg j s
  | .writeReg j v => hostWriteReg j v s
  | .readBuf k => hostReadBuf k s
  | .writeBuf k v => hostWriteBuf k v s
  | .reset => .next s.resetBlock

/-- The state a transaction starts from: it is no longer pending, and the host has no word from it yet. -/
def State.accept (rest : List HostOp) (s : State) : State := (s.setPending rest).setReply none

/-- The next transaction performed; with none pending the block is idle and its state does not change
(10_state.md R20). -/
def nextTransaction (s : State) : Result :=
  match s.pending with
  | [] => .next s
  | op :: rest => hostOp op (s.accept rest)

/-- The state with a command write as its next transaction. -/
def State.withCommandWrite (v : Word) (s : State) : State :=
  s.setPending (.writeReg 0x00#8 v :: s.pending)

end Sys2Proof.Machine
end

