-- ==== Sys2Proof/Machine/Step.lean ====
section
/-! DEFINITION. One step of the machine: the host's next transaction, a command with it
(20_memory.md R70, 70_reset_and_hazards.md R352). -/

namespace Sys2Proof.Machine

/-- One step: the next host transaction, whole. -/
def step (s : State) : Host.Outcome State Fault Refusal := nextTransaction s

/-- The state whose very next transaction is a write to `CMD` of the command with these bits. -/
def State.withFetchWord (s : State) (nbits w : Nat) : State := s.withCommandWrite (tableWrite nbits w)

end Sys2Proof.Machine
end

