-- ==== Sys2Proof/Machine/HostAsm.lean ====
section
/-! DEFINITION. The host assembly language, as abstract syntax: statements, literals and
pseudo-instructions (30_encoding.md R97, R98). A program is exactly its list of host transactions. -/

namespace Sys2Proof.Machine

/-- The index of a register (10_state.md R21, R31). -/
def Field.index : Field → BitVec 4
  | .baseFreq => 0x0
  | .octave => 0x1
  | .semitone => 0x2
  | .cent => 0x3
  | .amplitude => 0x4
  | .phase => 0x5
  | .freqMod => 0x6
  | .freqModRatio => 0x7
  | .phaseMod => 0x8
  | .ampMod => 0x9
  | .out => 0xA
  | .outQ => 0xB
  | .pubPhase => 0xC
  | .inc => 0xD
  | .wrap => 0xE

/-- The number of an oscillator in `SEL` position (R97). -/
def Osc.sel : Osc → BitVec 4
  | .osc1 => 0
  | .osc2 => 1
  | .lfo => 2

/-- The index a register name stands for: `O<i>.<FIELD>` is `0x10 + 0x10*i + k` (10_state.md R31). -/
def Reg.index : Reg → BitVec 8
  | .cmd => 0x00
  | .status => 0x01
  | .sampleRate => 0x02
  | .arg0 => 0x03
  | .result0 => 0x04
  | .mixOut => 0x05
  | .bufBase => 0x06
  | .bufCount => 0x07
  | .bufLen => 0x08
  | .osc i f => 0x10 + 0x10 * i.sel.setWidth 8 + f.index.setWidth 8

/-- A literal (R97). -/
inductive Literal where
  /-- `f:<decimal>`: `±digits / 10^places`. -/
  | float (negative : Bool) (digits places : Nat)
  /-- `0x<hex>`. -/
  | bits (w : Word)
  /-- `u:<decimal>`, an unsigned 64-bit integer. -/
  | unsigned (w : Word)
  deriving DecidableEq, Repr

/-- The 64-bit value of a literal: `f:` is the nearest binary64 number, ties to even (R97). -/
def Literal.word : Literal → Word
  | .float negative digits places => F64.ofFraction negative digits (10 ^ places)
  | .bits w => w
  | .unsigned w => w

/-- A statement of the host assembly language (R97) or a pseudo-instruction (R98). -/
inductive Stmt where
  | wr (r : Reg) (l : Literal)
  | rd (r : Reg)
  | wrbuf (k : Nat) (l : Literal)
  | rdbuf (k : Nat)
  | cmd (w : CmdWord)
  | reset
  /-- A command by its mnemonic. -/
  | mnemonic (i : Instr)
  | psinF (l : Literal)
  | exp2F (l : Literal)
  | wrap01F (l : Literal)
  | renderN (base n : Word)
  | boot (sr : Literal)
  deriving DecidableEq, Repr

/-- The word a mnemonic expands to (R98). -/
def mnemonicWord : Instr → CmdWord
  | .nop => 0x00000000
  | .init => 0x01000000
  | .psin => 0x10000000
  | .exp2 => 0x11000000
  | .wrap01 => 0x12000000
  | .pastep s => 0x20000000 ||| s.setWidth 32 <<< 16
  | .tonestep s => 0x21000000 ||| s.setWidth 32 <<< 16
  | .quadstep s => 0x22000000 ||| s.setWidth 32 <<< 16
  | .gstep => 0x30000000
  | .render => 0x31000000

/-- `cmd <word>` is `wr CMD, <word>` (R97). -/
def cmdOp (w : CmdWord) : HostOp := .writeReg Reg.cmd.index (w.setWidth 64)

/-- The transactions of a statement (R97, R98). -/
def Stmt.ops : Stmt → List HostOp
  | .wr r l => [.writeReg r.index l.word]
  | .rd r => [.readReg r.index]
  | .wrbuf k l => [.writeBuf k l.word]
  | .rdbuf k => [.readBuf k]
  | .cmd w => [cmdOp w]
  | .reset => [.reset]
  | .mnemonic i => [cmdOp (mnemonicWord i)]
  | .psinF l => [.writeReg Reg.arg0.index l.word, cmdOp 0x10000000, .readReg Reg.result0.index]
  | .exp2F l => [.writeReg Reg.arg0.index l.word, cmdOp 0x11000000, .readReg Reg.result0.index]
  | .wrap01F l => [.writeReg Reg.arg0.index l.word, cmdOp 0x12000000, .readReg Reg.result0.index]
  | .renderN base n =>
    [.writeReg Reg.bufBase.index base, .writeReg Reg.bufCount.index n, cmdOp 0x31000000]
  | .boot sr => [.writeReg Reg.sampleRate.index sr.word, cmdOp 0x01000000]

/-- The transactions of a program, in order (R97). -/
def programOps (p : List Stmt) : List HostOp := p.flatMap Stmt.ops

end Sys2Proof.Machine
end

