-- ==== Sys2Proof/Safety.lean ====
section
/-! DEFINITION. The terms that claims about the block use: its invariant, what a clean run is, what the
host can see of a state, and what it means that a pattern is a correctly rounded value. -/

namespace Sys2Proof.Machine

open F64

/-! ## What the host can see -/

/-- The reserved indices, by number (93_implementation_defined.md I13). -/
def reservedIndex (j : BitVec 8) : Bool :=
  (decide (0x09 ≤ j.toNat) && decide (j.toNat ≤ 0x0F)) || decide (j.toNat = 0x1F) ||
    decide (j.toNat = 0x2F) || decide (j.toNat = 0x3F) || decide (0x40 ≤ j.toNat)

/-- The read-only indices, by number (60_exceptions.md R305): `STATUS`, `RESULT0`, `MIX_OUT`, `BUF_LEN`,
and `OUT`, `OUTQ`, `PUB_PHASE`, `INC`, `WRAP` of each record. -/
def readOnlyIndex (j : BitVec 8) : Bool :=
  decide (j.toNat = 0x01) || decide (j.toNat = 0x04) || decide (j.toNat = 0x05) ||
    decide (j.toNat = 0x08) ||
    (decide (0x1A ≤ j.toNat) && decide (j.toNat ≤ 0x1E)) ||
    (decide (0x2A ≤ j.toNat) && decide (j.toNat ≤ 0x2E)) ||
    (decide (0x3A ≤ j.toNat) && decide (j.toNat ≤ 0x3E))

/-- Nothing changes from `s` to `t` but the registers at the indices `written`, and the tick of the free
values: every other register, every buffer word, the host's further transactions and its last word
stand. -/
def UnchangedBut (written : List (BitVec 8)) (s t : State) : Prop :=
  (∀ j, j ∉ written → t.readReg j = s.readReg j) ∧
    (∀ k, t.buffer.read k = s.buffer.read k) ∧ t.pending = s.pending ∧ t.reply = s.reply

/-- `raise Err(BIT)` took `s` to `t`: the bit of `STATUS` that `mask` holds by number (10_state.md R24) is
set, every other register and every buffer word stands (60_exceptions.md R300). -/
def RaisedOnly (mask : Word) (s t : State) : Prop :=
  t.readReg 0x01 = s.readReg 0x01 ||| mask ∧ UnchangedBut [0x01] s t ∧ t.draws = s.draws

/-! ## The invariant -/

/-- The wrap flag is 0 or 1 (10_state.md R37). -/
def OscRec.wrapOk (r : OscRec) : Prop := r.wrap = 0 ∨ r.wrap = 1

/-- What holds of every state the block reaches: the reserved bits of `STATUS` and `WRAP` read 0
(10_state.md R24, R37), a constructed graph has a rate above 0 (41_phase_accumulator.md R169), the
buffer is in its canonical form and lists only words of the buffer (20_memory.md R60), and the buffer
has at least one word (00_scope.md section 4). -/
def State.Inv (s : State) : Prop :=
  s.status >>> 7 = 0 ∧
    (∀ i, (s.oscRec i).wrapOk) ∧
    (s.flag .configured = true → gt s.sampleRate 0 = true) ∧
    s.buffer.wf = true ∧ s.buffer.below s.bufLen.toNat = true ∧ 1 ≤ s.bufLen.toNat

/-! ## Clean runs (60_exceptions.md R308) -/

/-- No aborting error is recorded. -/
def State.noError (s : State) : Bool :=
  !s.flag .errCmd && !s.flag .errNotCfg && !s.flag .errSr && !s.flag .errRange && !s.flag .errWr

/-- No draw of `exp2` has entered the datapath. -/
def State.noDraw (s : State) : Bool := !s.flag .exp2Oor

/-- A run of `k` transactions ends in `t` with no fault, no recorded error and no draw. -/
def CleanRun (k : Nat) (s t : State) : Prop :=
  Host.Core.run Sys2Proof.core k s = .next t ∧ t.noError = true ∧ t.noDraw = true

/-! ## Correct rounding (00_scope.md R3) -/

/-- The smallest magnitude that roundTiesToEven takes to infinity: the largest finite value and half a
unit in its last place. -/
def overflowBound : ℚ := 2 ^ 1024 - 2 ^ 970

/-- `w` is `x` rounded once, roundTiesToEven: a value past the bound is an infinity of its sign, any
other is the nearest finite value, and of two nearest ones the one with an even fraction. A nonzero
`x` keeps its sign, also where it rounds to zero. -/
def IsRounded (x : ℚ) (w : Word) : Prop :=
  (x ≠ 0 → sign w = decide (x < 0)) ∧
    if overflowBound ≤ |x| then isInf w = true
    else
      isFinite w = true ∧
        ∀ u : Word, isFinite u = true → |toRat w - x| ≤ |toRat u - x| ∧
          (|toRat w - x| = |toRat u - x| → toRat u ≠ toRat w → mag w % 2 = 0)

end Sys2Proof.Machine
end

