-- ==== Sys2Proof/Certificates/Slice0/Obligations.lean ====
section
/-! DEFINITION. The statements for the provers, from the numbered rules of spec/. Each docstring names the
rule. A statement that quantifies a `nan : Nat → Word` of NaN patterns says that 00_scope.md R6 leaves
those patterns open; none rests on a value of `draws`. -/

open Sys2Proof Sys2Proof.Machine Sys2Proof.F64

/-! ## The terms of the statements -/

namespace Sys2Proof.Machine

/-- The 16 legal words of 30_encoding.md R94 and R95, as they are written to `CMD`. -/
def legalWrites : List Word :=
  [0x00000000, 0x01000000, 0x10000000, 0x11000000, 0x12000000, 0x20000000, 0x20010000, 0x20020000,
    0x21000000, 0x21010000, 0x21020000, 0x22000000, 0x22010000, 0x22020000, 0x30000000, 0x31000000]

/-- The state in which the transaction `op`, taken from the head of the queue, is performed: it is no
longer pending and the host has no word from it yet. -/
def Accepts (s : State) (op : HostOp) (s' : State) : Prop :=
  ∃ rest, s.pending = op :: rest ∧ s' = { s with pending := rest, reply := none }

/-- The pitch exponent of 41_phase_accumulator.md R161, divided by 12.0 (R162). -/
def pitchOctaves (nan : Nat → Word) (o : OscRec) : Word :=
  div (nan 5)
    (add (nan 4) (add (nan 3) (add (nan 2) o.freqMod (mul (nan 1) o.octave twelve)) o.semitone)
      (div (nan 0) o.cent hundred)) twelve

/-- `m` is `exp2(x)` and `status'` the STATUS after it: fixed where `n` is in [-1022, 1023], any value and
`EXP2_OOR` (bit 6) elsewhere (40_fastmath.md R127, R129, R130). -/
def IsExp2 (x m status status' : Word) : Prop :=
  if isFinite x = true ∧ -1022 ≤ toInt (roundHalfAway x) ∧ toInt (roundHalfAway x) ≤ 1023 then
    (∃ nan : Nat → Word, (∀ k, isNaN (nan k) = true) ∧
      m = mul (nan 1) (Config.exp2Frac (sub (nan 0) x (roundHalfAway x)))
        (BitVec.ofNat 64 ((toInt (roundHalfAway x) + 1023).toNat * 2 ^ 52))) ∧
    status' = status
  else status' = status ||| 0x40

/-- The listing of 41_phase_accumulator.md R168 from the pitch multiplier on: the record `o'` a step leaves
from the record `o`, at `SAMPLE_RATE` `sr`. -/
def IsPhaseStep (nan : Nat → Word) (sr m : Word) (o o' : OscRec) : Prop :=
  let product := mul (nan 1) (mul (nan 0) o.baseFreq o.freqModRatio) m
  let f := if lt product (neg Config.fClamp) = true then neg Config.fClamp
    else if gt product Config.fClamp = true then Config.fClamp else product
  let inc := div (nan 2) f sr
  o'.inc = inc ∧
    (if gt inc 0 = true ∧ ge o.phase one = true then
      o'.pubPhase = sub (nan 3) o.phase one ∧ o'.wrap = 1
    else if lt inc 0 = true ∧ le o.phase 0 = true then
      o'.pubPhase = add (nan 3) o.phase one ∧ o'.wrap = 1
    else o'.pubPhase = o.phase ∧ o'.wrap = 0) ∧
    o'.phase = add (nan 4) o'.pubPhase inc

/-- `PAStep(i)` took `s` to `t`, as far as its own four fields and STATUS go (R160 to R168). -/
def IsPAStep (i : Osc) (s t : State) : Prop :=
  ∃ (nan : Nat → Word) (m : Word), (∀ k, isNaN (nan k) = true) ∧
    IsExp2 (pitchOctaves nan (s.oscRec i)) m s.status t.status ∧
    IsPhaseStep (fun k => nan (6 + k)) s.sampleRate m (s.oscRec i) (t.oscRec i)

/-- `w` is `(parabolic_sine(angle(q)) * AMPLITUDE) * AMP_MOD` of the record `o`
(42_oscillators.md R190, R191). -/
def IsSampleAt (o : OscRec) (q w : Word) : Prop :=
  ∃ nan : Nat → Word, (∀ k, isNaN (nan k) = true) ∧
    w = mul (nan 1) (mul (nan 0)
      (parabolicSine (fun k => nan (10 + k))
        (neg (sub (nan 3) (mul (nan 2) (wrap01 (fun k => nan (20 + k)) q) Config.tau) Config.pi)))
      o.amplitude) o.ampMod

/-- The place of a pattern that is no NaN on the rational line with its two ends: a finite value at its
value, an infinity at its end. -/
def place (w : Word) : WithBot (WithTop ℚ) :=
  if isInf w then (if sign w then ⊥ else ((⊤ : WithTop ℚ) : WithBot (WithTop ℚ)))
  else ((toRat w : WithTop ℚ) : WithBot (WithTop ℚ))

/-- The indices of fields of `O[i]`. -/
def oscIndices (i : Osc) (fields : List Field) : List (BitVec 8) := fields.map fun f => (Reg.osc i f).index

/-- The indices that a graph sample writes: `STATUS`, `MIX_OUT`, the step fields of each record, the
outputs, and the `FREQ_MOD` of both tone records (43_synth_graph.md R226 to R228). -/
def graphIndices : List (BitVec 8) :=
  [0x01, 0x05] ++ oscIndices .osc1 [.freqMod, .out, .pubPhase, .inc, .wrap, .phase] ++
    oscIndices .osc2 [.freqMod, .out, .pubPhase, .inc, .wrap, .phase] ++
    oscIndices .lfo [.out, .outQ, .pubPhase, .inc, .wrap, .phase]

/-- `n` GSTEP commands, the host copying each `MIX_OUT` into the buffer from word `k` up
(43_synth_graph.md R232). -/
def gstepsCopied (n k : Nat) (s : State) : Result :=
  match n with
  | 0 => .next s
  | n + 1 =>
    match exec .gstep s with
    | .next t => gstepsCopied n (k + 1) { t with buffer := t.buffer.write k t.mixOut }
    | .fault r => .fault r
    | .refused r => .refused r

end Sys2Proof.Machine

/-! ## Decoding and encoding (30_encoding.md) -/

/-- R91, R94: a `CMD` write decodes to a command exactly when it is that well-formed command's word. -/
def Obligations.DecodeIsTheInverseOfEncode : Prop :=
  ∀ (v : Word) (i : Instr), decode v = .ok i ↔ (i.wellFormed = true ∧ encodeWrite i = v)

/-- R95: a `CMD` write is a legal command exactly when it is one of the 16 legal words, by number. -/
def Obligations.ExactlySixteenCommandWordsAreLegal : Prop :=
  ∀ v : Word, (∃ i, decode v = .ok i) ↔ v ∈ legalWrites

/-- R94: each of the 16 command words of the opcode map stands for its command. -/
def Obligations.WordsOfTheOpcodeMapDecode : Prop :=
  decode 0x00000000 = .ok .nop ∧ decode 0x01000000 = .ok .init ∧ decode 0x10000000 = .ok .psin ∧
    decode 0x11000000 = .ok .exp2 ∧ decode 0x12000000 = .ok .wrap01 ∧
    decode 0x20000000 = .ok (.pastep 0) ∧ decode 0x20010000 = .ok (.pastep 1) ∧
    decode 0x20020000 = .ok (.pastep 2) ∧ decode 0x21000000 = .ok (.tonestep 0) ∧
    decode 0x21010000 = .ok (.tonestep 1) ∧ decode 0x21020000 = .ok (.tonestep 2) ∧
    decode 0x22000000 = .ok (.quadstep 0) ∧ decode 0x22010000 = .ok (.quadstep 1) ∧
    decode 0x22020000 = .ok (.quadstep 2) ∧ decode 0x30000000 = .ok .gstep ∧
    decode 0x31000000 = .ok .render

/-- R98: the word a mnemonic expands to is the command's encoding, for every `SEL`, and the compound
pseudo-instructions expand to the transactions the rule lists. -/
def Obligations.MnemonicsExpandToTheirEncodings : Prop :=
  (∀ i : Instr, mnemonicWord i = encode i ∧
      (Stmt.mnemonic i).ops = [.writeReg 0x00 (encodeWrite i)]) ∧
    (∀ l : Literal, (Stmt.psinF l).ops =
      [.writeReg 0x03 l.word, .writeReg 0x00 (encodeWrite .psin), .readReg 0x04]) ∧
    (∀ l : Literal, (Stmt.exp2F l).ops =
      [.writeReg 0x03 l.word, .writeReg 0x00 (encodeWrite .exp2), .readReg 0x04]) ∧
    (∀ l : Literal, (Stmt.wrap01F l).ops =
      [.writeReg 0x03 l.word, .writeReg 0x00 (encodeWrite .wrap01), .readReg 0x04]) ∧
    (∀ base n : Word, (Stmt.renderN base n).ops =
      [.writeReg 0x06 base, .writeReg 0x07 n, .writeReg 0x00 (encodeWrite .render)]) ∧
    (∀ l : Literal, (Stmt.boot l).ops =
      [.writeReg 0x02 l.word, .writeReg 0x00 (encodeWrite .init)])

/-! ## A step (20_memory.md, 10_state.md R20) -/

/-- R91: a write to `CMD` that decodes to a command runs `exec` of that command, in the state in which the
write is no longer pending and the host has no word from it. The queue and the host's last word are the
model's (notes/assumptions/1.md, 2.md). -/
def Obligations.StepRunsTheDecodedCommand : Prop :=
  ∀ (s s' : State) (v : Word) (i : Instr), Accepts s (.writeReg 0x00 v) s' → decode v = .ok i →
    step s = exec i s'

/-- The command placed by `withFetchWord` is what the next step runs. The queue in which it is placed and the
host's last word, which the step empties, are the model's choice (notes/assumptions/1.md, 2.md); that a
write of its word executes the command is R91. -/
def Obligations.StepRunsTheCommandPlaced : Prop :=
  ∀ (s : State) (nbits w : Nat) (i : Instr), decodeTableWord nbits w = some i →
    step (s.withFetchWord nbits w) = exec i { s with reply := none }

/-- R20: with no transaction pending the block is idle and its state does not change. That a step with
an empty queue is an idle step is the model's choice (notes/assumptions/1.md). -/
def Obligations.IdleBlockKeepsItsState : Prop :=
  ∀ s : State, s.pending = [] → step s = .next s

/-- R61: a register read returns 0 at a reserved index and at `CMD`, the register elsewhere, and has no side
effect on any state of the block. -/
def Obligations.RegisterReadHasNoSideEffect : Prop :=
  ∀ (s s' : State) (j : BitVec 8), Accepts s (.readReg j) s' →
    ∃ w, step s = .next { s' with reply := some w } ∧
      if reservedIndex j = true ∨ j = 0x00 then w = 0
      else ∃ r : Reg, r.index = j ∧ w = s.regValue r

/-- R62: a register write at `CMD` executes the command, at a reserved or read-only index raises `ERR_WR`, at
`SAMPLE_RATE` of a constructed graph raises `ERR_WR`, and elsewhere stores the word, whatever it is. -/
def Obligations.RegisterWriteStoresOrRaisesErrWr : Prop :=
  ∀ (s s' : State) (j : BitVec 8) (v : Word), Accepts s (.writeReg j v) s' →
    if j = 0x00 then
      (∀ i, decode v = .ok i → step s = exec i s') ∧
        ((∀ i, decode v ≠ .ok i) → ∃ t, step s = .next t ∧ RaisedOnly 0x02 s' t)
    else if reservedIndex j = true ∨ readOnlyIndex j = true then
      ∃ t, step s = .next t ∧ RaisedOnly 0x20 s' t
    else if j = 0x02 ∧ s.flag .configured = true then
      ∃ t, step s = .next t ∧ RaisedOnly 0x20 s' t
    else ∃ t, step s = .next t ∧ t.readReg j = v ∧ UnchangedBut [j] s' t ∧ t.draws = s'.draws

/-- R63: a buffer write inside the buffer gives its word that value and leaves every other word and every
register alone, and a buffer read inside the buffer gives the host the word as it stands. -/
def Obligations.BufferTransactionsReachTheirWord : Prop :=
  (∀ (s s' : State) (k : Nat) (v : Word), Accepts s (.writeBuf k v) s' → k < s.bufLen.toNat →
    ∃ t, step s = .next t ∧ t.buffer.read k = some v ∧
      (∀ a, a ≠ k → t.buffer.read a = s.buffer.read a) ∧
      (∀ j, t.readReg j = s.readReg j) ∧ t.pending = s'.pending ∧ t.reply = none) ∧
  (∀ (s s' : State) (k : Nat) (w : Word), Accepts s (.readBuf k) s' → k < s.bufLen.toNat →
    s.buffer.read k = some w → step s = .next { s' with reply := some w })

/-- R64: a host read of a buffer word that nothing has written since reset faults, and right after reset no
word has been written. -/
def Obligations.UnwrittenBufferWordFaults : Prop :=
  (∀ (s s' : State) (k : Nat), Accepts s (.readBuf k) s' → k < s.bufLen.toNat →
    s.buffer.read k = none → step s = .fault .unwrittenBufferWord) ∧
  ∀ k, State.reset.buffer.read k = none

/-- R305: the four kinds of host access that record `ERR_WR`, bit 5 of `STATUS`, and change nothing else;
the read past the end of the buffer returns 0. -/
def Obligations.RefusedHostAccessesRaiseErrWr : Prop :=
  (∀ (s s' : State) (j : BitVec 8) (v : Word), Accepts s (.writeReg j v) s' →
    (readOnlyIndex j = true ∨ reservedIndex j = true ∨ (j = 0x02 ∧ s.flag .configured = true)) →
    ∃ t, step s = .next t ∧ RaisedOnly 0x20 s' t) ∧
  (∀ (s s' : State) (k : Nat) (v : Word), Accepts s (.writeBuf k v) s' → s.bufLen.toNat ≤ k →
    ∃ t, step s = .next t ∧ RaisedOnly 0x20 s' t) ∧
  (∀ (s s' : State) (k : Nat), Accepts s (.readBuf k) s' → s.bufLen.toNat ≤ k →
    ∃ t, step s = .next t ∧ RaisedOnly 0x20 { s' with reply := some 0 } t)

/-- R340: a reset transaction puts every register to its reset value and leaves no buffer word with a value.
That the host's queue and the tick of the free values survive it is the model's choice
(notes/assumptions/9.md). -/
def Obligations.ResetPutsEveryRegisterToItsResetValue : Prop :=
  ∀ s s' : State, Accepts s .reset s' →
    ∃ t, step s = .next t ∧
      (∀ j, t.readReg j = if j = 0x08 then s.readReg 0x08 else State.reset.readReg j) ∧
      (∀ k, t.buffer.read k = none) ∧ t.pending = s'.pending ∧ t.reply = none

/-- R40, R64: after reset every register reads 0 but `BUF_LEN`, which reads the parameter, at least 1, and no
buffer word has a value. -/
def Obligations.RegistersAfterReset : Prop :=
  (∀ j, State.reset.readReg j = if j = 0x08 then Config.bufLen else 0) ∧
    (∀ k, State.reset.buffer.read k = none) ∧ 1 ≤ Config.bufLen.toNat

/-! ## Invariants -/

/-- The reset state meets the invariant. -/
def Obligations.ResetMeetsTheInvariant : Prop := State.reset.Inv

/-- Every step keeps the invariant: reserved STATUS and WRAP bits read 0 (R24, R37), a constructed graph has
`SAMPLE_RATE > 0` (R169), the buffer keeps its canonical form, which is the model's
(notes/assumptions/8.md), inside its bounds (R60). -/
def Obligations.EveryStepKeepsTheInvariant : Prop :=
  ∀ s t : State, s.Inv → step s = .next t → t.Inv

/-- R24: the STATUS bits are sticky: a step that is no reset clears none. -/
def Obligations.StatusBitsAreSticky : Prop :=
  ∀ (s t : State) (b : StatusBit), step s = .next t → (∀ rest, s.pending ≠ .reset :: rest) →
    s.flag b = true → t.flag b = true

/-- R22: once the graph is constructed, no step but a reset changes `SAMPLE_RATE`. -/
def Obligations.SampleRateIsFixedOnceConfigured : Prop :=
  ∀ s t : State, step s = .next t → (∀ rest, s.pending ≠ .reset :: rest) →
    s.flag .configured = true → t.sampleRate = s.sampleRate ∧ t.flag .configured = true

/-- R30: `BUF_LEN` reads as the parameter after reset, and no step changes it. -/
def Obligations.BufLenNeverChanges : Prop :=
  State.reset.readReg 0x08 = Config.bufLen ∧
    ∀ s t : State, step s = .next t → t.readReg 0x08 = s.readReg 0x08

/-- R22, R25, R28, R29: no command writes `SAMPLE_RATE`, `ARG0`, `BUF_BASE` or `BUF_COUNT`. -/
def Obligations.NoCommandWritesTheOperandRegisters : Prop :=
  ∀ (i : Instr) (s t : State), exec i s = .next t →
    t.sampleRate = s.sampleRate ∧ t.arg0 = s.arg0 ∧ t.bufBase = s.bufBase ∧ t.bufCount = s.bufCount

/-- R26, R27, R63: `RESULT0` is written by PSIN, EXP2 and WRAP01 only, `MIX_OUT` by INIT, GSTEP and RENDER
only, the buffer by RENDER only and there inside its range only. -/
def Obligations.ResultsAreWrittenByTheirCommandsOnly : Prop :=
  ∀ (i : Instr) (s t : State), exec i s = .next t →
    (i ≠ .psin → i ≠ .exp2 → i ≠ .wrap01 → t.result0 = s.result0) ∧
    (i ≠ .init → i ≠ .gstep → i ≠ .render → t.mixOut = s.mixOut) ∧
    (i ≠ .render → t.buffer = s.buffer) ∧
    (∀ k, k < s.bufBase.toNat ∨ s.bufBase.toNat + s.bufCount.toNat ≤ k →
      t.buffer.read k = s.buffer.read k)

/-! ## Errors (60_exceptions.md) -/

/-- R24: the fields of `STATUS` stand at bits 0 to 6, by number. -/
def Obligations.StatusFieldsStandAtTheirBits : Prop :=
  ∀ s : State, s.flag .configured = (s.readReg 0x01).getLsbD 0 ∧
    s.flag .errCmd = (s.readReg 0x01).getLsbD 1 ∧ s.flag .errNotCfg = (s.readReg 0x01).getLsbD 2 ∧
    s.flag .errSr = (s.readReg 0x01).getLsbD 3 ∧ s.flag .errRange = (s.readReg 0x01).getLsbD 4 ∧
    s.flag .errWr = (s.readReg 0x01).getLsbD 5 ∧ s.flag .exp2Oor = (s.readReg 0x01).getLsbD 6

/-- R301: `ERR_CMD`, bit 1 of `STATUS`, is raised by a `CMD` write that is none of the 16 legal words, and
by INIT on a constructed graph; nothing but the bit is recorded. -/
def Obligations.IllegalCommandsRaiseErrCmd : Prop :=
  (∀ (s s' : State) (v : Word), Accepts s (.writeReg 0x00 v) s' → v ∉ legalWrites →
    ∃ t, step s = .next t ∧ RaisedOnly 0x02 s' t) ∧
  (∀ s : State, s.flag .configured = true → ∃ t, exec .init s = .next t ∧ RaisedOnly 0x02 s t)

/-- R302: PASTEP, TONESTEP, QUADSTEP, GSTEP and RENDER raise `ERR_NOTCFG`, bit 2 of `STATUS`, while
`CONFIGURED = 0`; NOP, INIT, PSIN, EXP2 and WRAP01 never raise it. -/
def Obligations.GraphCommandsNeedAConstructedGraph : Prop :=
  (∀ (i : Instr) (s : State), i.wellFormed = true → s.flag .configured = false →
    i ≠ .nop → i ≠ .init → i ≠ .psin → i ≠ .exp2 → i ≠ .wrap01 →
    ∃ t, exec i s = .next t ∧ RaisedOnly 0x04 s t) ∧
  (∀ (i : Instr) (s t : State), i ∈ [Instr.nop, .init, .psin, .exp2, .wrap01] →
    exec i s = .next t → (t.readReg 0x01).getLsbD 2 = (s.readReg 0x01).getLsbD 2)

/-- R303: INIT raises `ERR_SR`, bit 3 of `STATUS`, when `SAMPLE_RATE > 0.0` is false: the value is a zero,
negative or NaN. -/
def Obligations.InitRefusesARateNotAboveZero : Prop :=
  ∀ s : State, s.flag .configured = false →
    (isZero s.sampleRate = true ∨ sign s.sampleRate = true ∨ isNaN s.sampleRate = true) →
    ∃ t, exec .init s = .next t ∧ RaisedOnly 0x08 s t

/-- R304, R231: RENDER raises `ERR_RANGE`, bit 4 of `STATUS`, when `BUF_BASE + BUF_COUNT > BUF_LEN`,
computed exactly; no word is written and no phase advances. -/
def Obligations.RenderPastTheBufferRaisesErrRange : Prop :=
  ∀ s : State, s.flag .configured = true →
    s.bufLen.toNat < s.bufBase.toNat + s.bufCount.toNat →
    ∃ t, exec .render s = .next t ∧ RaisedOnly 0x10 s t

/-- R300, R307: a command raises at most one aborting error (bits 1 to 4 of `STATUS`), and then does nothing
else; a command that raises none leaves every error bit as it stood. -/
def Obligations.AtMostOneAbortingErrorPerCommand : Prop :=
  ∀ (i : Instr) (s t : State), i.wellFormed = true → exec i s = .next t →
    (∃ mask ∈ [(0x02 : Word), 0x04, 0x08, 0x10], RaisedOnly mask s t) ∨
      ∀ n, 1 ≤ n → n ≤ 5 → (t.readReg 0x01).getLsbD n = (s.readReg 0x01).getLsbD n

/-! ## NOP and INIT -/

/-- R260: NOP changes no register, flag or buffer word, in any state. -/
def Obligations.NopChangesNothing : Prop := ∀ s : State, exec .nop s = .next s

/-- R222, R224: INIT on a graph not yet constructed, with a rate above 0, loads the construction values,
clears `MIX_OUT` and sets `CONFIGURED`; the other registers, the error bits and the buffer stand. -/
def Obligations.InitLoadsTheConstructionValues : Prop :=
  ∀ s : State, s.flag .configured = false → gt s.sampleRate 0 = true →
    ∃ t, exec .init s = .next t ∧
      (∀ (i : Osc) (f : Field), (t.oscRec i).get f =
        match f with
        | .baseFreq => (match i with
          | .lfo => 0x3FE0000000000000#64
          | _ => 0x407B800000000000#64)
        | .cent => (match i with
          | .osc2 => 0x4004000000000000#64
          | _ => 0)
        | .amplitude => 0x3FF0000000000000#64
        | .freqModRatio => 0x3FF0000000000000#64
        | .ampMod => 0x3FF0000000000000#64
        | _ => 0) ∧
      t.readReg 0x01 = s.readReg 0x01 ||| 1 ∧ t.readReg 0x05 = 0 ∧
      (∀ j : BitVec 8, j.toNat < 0x10 → j ≠ 0x01 → j ≠ 0x05 → t.readReg j = s.readReg j) ∧
      (∀ k, t.buffer.read k = s.buffer.read k) ∧ t.pending = s.pending ∧ t.reply = s.reply

/-! ## The FastMath commands (40_fastmath.md) -/

/-- R122, R140: PSIN writes the value of the two-stage formula to `RESULT0` and nothing else. -/
def Obligations.PsinComputesTheParabolicSine : Prop :=
  ∀ s : State, ∃ (t : State) (nan : Nat → Word), (∀ k, isNaN (nan k) = true) ∧
    exec .psin s = .next t ∧
    (let x := s.arg0
     let t1 := mul (nan 0) 0x3FF45F306DC9C883 x
     let t2 := mul (nan 2) (mul (nan 1) 0xBFD9F02F6222C720 x) (F64.abs x)
     let y := add (nan 3) t1 t2
     let u := mul (nan 4) y (F64.abs y)
     let v := sub (nan 5) u y
     let w := mul (nan 6) 0x3FCCCCCCCCCCCCCD v
     t.readReg 0x04 = add (nan 7) w y) ∧
    UnchangedBut [0x04] s t

/-- R123: `parabolic_sine(-x)` is a NaN where `parabolic_sine(x)` is, and equals its negation elsewhere. (The
rule claims the equality for every x that is no NaN; an x so large that the formula overflows gives a
NaN, which equals nothing: notes/assumptions/17.md.) -/
def Obligations.ParabolicSineIsOdd : Prop :=
  ∀ (nan : Nat → Word) (x : Word), (∀ k, isNaN (nan k) = true) →
    isNaN (parabolicSine nan (neg x)) = isNaN (parabolicSine nan x) ∧
      (isNaN (parabolicSine nan x) = false →
        F64.eq (parabolicSine nan (neg x)) (neg (parabolicSine nan x)) = true)

/-- R123: PSIN of a NaN or an infinity completes with a NaN in `RESULT0`, and no STATUS bit changes. -/
def Obligations.PsinOfANonFiniteIsNaN : Prop :=
  ∀ s : State, isFinite s.arg0 = false →
    ∃ t, exec .psin s = .next t ∧ isNaN t.result0 = true ∧ t.status = s.status

/-- R123: PSIN is exact at 0, PI and PI/2, with either sign. -/
def Obligations.PsinAtMultiplesOfHalfPi : Prop :=
  ∀ s : State, ∃ t, exec .psin s = .next t ∧
    (s.arg0 = 0 → t.result0 = 0) ∧ (s.arg0 = 0x8000000000000000 → t.result0 = 0) ∧
    (s.arg0 = 0x400921FB54442D18 → t.result0 = 0) ∧ (s.arg0 = 0xC00921FB54442D18 → t.result0 = 0) ∧
    (s.arg0 = 0x3FF921FB54442D18 → t.result0 = 0x3FF0000000000000) ∧
    (s.arg0 = 0xBFF921FB54442D18 → t.result0 = 0xBFF0000000000000)

/-- R124: on [-π, π] the result of PSIN is within 0.005 of the sine. -/
def Obligations.ParabolicSineIsAccurate : Prop :=
  ∀ s : State, isFinite s.arg0 = true → |((toRat s.arg0 : ℚ) : ℝ)| ≤ Real.pi →
    ∃ t, exec .psin s = .next t ∧ isFinite t.result0 = true ∧
      |((toRat t.result0 : ℚ) : ℝ) - Real.sin ((toRat s.arg0 : ℚ) : ℝ)| ≤ 5 / 1000

/-- R126: `round_half_away` gives the nearest integral value, ties away from zero, exactly and with the sign
of its operand. -/
def Obligations.RoundHalfAwayIsNearestAwayFromZero : Prop :=
  ∀ x : Word, isFinite x = true →
    isFinite (roundHalfAway x) = true ∧ sign (roundHalfAway x) = sign x ∧
      |toRat (roundHalfAway x)| = (⌊|toRat x| + 1 / 2⌋ : ℚ) ∧
      (toInt (roundHalfAway x) : ℚ) = toRat (roundHalfAway x)

/-- R127: the subtraction `x - round_half_away(x)` is exact, and its result lies in [-0.5, 0.5]. -/
def Obligations.Exp2FractionIsExact : Prop :=
  ∀ nan x : Word, isFinite x = true →
    isFinite (sub nan x (roundHalfAway x)) = true ∧
      toRat (sub nan x (roundHalfAway x)) = toRat x - toRat (roundHalfAway x) ∧
      |toRat (sub nan x (roundHalfAway x))| ≤ 1 / 2

/-- R127 to R130, R141: EXP2 completes for every operand, with `EXP2_FRAC(fp) * 2^n` in range and any value
and `EXP2_OOR` out of range; nothing else changes. -/
def Obligations.Exp2ComputesOrDraws : Prop :=
  ∀ s : State, ∃ t, exec .exp2 s = .next t ∧
    IsExp2 s.arg0 (t.readReg 0x04) (s.readReg 0x01) (t.readReg 0x01) ∧ UnchangedBut [0x01, 0x04] s t

/-- R131: `exp2(k) = 2^k` exactly for every integer k in [-1022, 1023], and no flag is set. -/
def Obligations.Exp2IsExactAtIntegers : Prop :=
  ∀ (s : State) (k : Int), -1022 ≤ k → k ≤ 1023 → isFinite s.arg0 = true → toRat s.arg0 = k →
    ∃ t, exec .exp2 s = .next t ∧
      t.result0 = BitVec.ofNat 64 ((k + 1023).toNat * 2 ^ 52) ∧ t.status = s.status

/-- R131: for `n` in [-1021, 1023] the result of EXP2 is within 1e-5 of 2^x, relatively. -/
def Obligations.Exp2IsAccurateInRange : Prop :=
  ∀ s : State, isFinite s.arg0 = true →
    -1021 ≤ toInt (roundHalfAway s.arg0) → toInt (roundHalfAway s.arg0) ≤ 1023 →
    ∃ t, exec .exp2 s = .next t ∧ isFinite t.result0 = true ∧
      |((toRat t.result0 : ℚ) : ℝ) - (2 : ℝ) ^ ((toRat s.arg0 : ℚ) : ℝ)|
        ≤ 1 / 100000 * (2 : ℝ) ^ ((toRat s.arg0 : ℚ) : ℝ)

/-- R128: `EXP2_FRAC` gives 1.0 at both zeros, and on [-0.5, 0.5] it is within 1e-5 of 2^f, relatively. -/
def Obligations.Exp2FracHasItsRequiredProperties : Prop :=
  Config.exp2Frac 0 = one ∧ Config.exp2Frac 0x8000000000000000 = one ∧
    Config.Exp2FracAccurate Config.exp2Frac

/-- R133, R142: WRAP01 writes the Euclidean remainder of the listing to `RESULT0` and nothing else. -/
def Obligations.Wrap01ComputesTheRemainder : Prop :=
  ∀ s : State, ∃ (t : State) (nan : Nat → Word), (∀ k, isNaN (nan k) = true) ∧
    exec .wrap01 s = .next t ∧
    (if ge s.arg0 0 = true ∧ lt s.arg0 one = true then t.readReg 0x04 = s.arg0
     else if lt (fmod (nan 0) s.arg0 one) 0 = true then
       t.readReg 0x04 = add (nan 1) (fmod (nan 0) s.arg0 one) one
     else t.readReg 0x04 = fmod (nan 0) s.arg0 one) ∧
    UnchangedBut [0x04] s t

/-- R135 item 1: for finite x, `wrap01(x)` is the correctly rounded value of `x - floor(x)`, but that a zero
result carries the sign of x. -/
def Obligations.Wrap01IsTheRoundedFraction : Prop :=
  ∀ (nan : Nat → Word) (x : Word), isFinite x = true →
    (toRat x ≠ ⌊toRat x⌋ → IsRounded (toRat x - ⌊toRat x⌋) (wrap01 nan x)) ∧
      (toRat x = ⌊toRat x⌋ → isZero (wrap01 nan x) = true ∧ sign (wrap01 nan x) = sign x)

/-- R135 item 2: for finite x, `0.0 <= wrap01(x) <= 1.0`, and 1.0 only for x in [-2^-54, 0). -/
def Obligations.Wrap01LiesInTheUnitInterval : Prop :=
  ∀ (nan : Nat → Word) (x : Word), isFinite x = true →
    ge (wrap01 nan x) 0 = true ∧ le (wrap01 nan x) one = true ∧
      (toRat (wrap01 nan x) = 1 ↔ (-(1 / 2 ^ 54) ≤ toRat x ∧ toRat x < 0))

/-! ## The phase accumulator (41_phase_accumulator.md) -/

/-- R168, R175: PASTEP of a constructed graph runs the listing on the oscillator that `SEL` names; of that
record only the four step fields change, of the rest only STATUS. -/
def Obligations.PastepRunsOnePhaseStep : Prop :=
  ∀ (s : State) (sel : BitVec 4) (i : Osc), s.flag .configured = true → oscOfSel sel = some i →
    ∃ t, exec (.pastep sel) s = .next t ∧ IsPAStep i s t ∧
      UnchangedBut (0x01 :: oscIndices i [.pubPhase, .wrap, .inc, .phase]) s t

/-- R164, R172, R173: after a step with `SAMPLE_RATE > 0`, by PASTEP, TONESTEP or QUADSTEP, the increment is a
NaN, or its magnitude is at most `F_CLAMP / SAMPLE_RATE` rounded, also where the pitch multiplier is a
draw. -/
def Obligations.IncrementIsBoundedByTheClamp : Prop :=
  ∀ (s t : State) (sel : BitVec 4) (i : Osc) (nan : Word) (c : BitVec 4 → Instr),
    c = Instr.pastep ∨ c = Instr.tonestep ∨ c = Instr.quadstep → s.flag .configured = true →
    gt s.sampleRate 0 = true → oscOfSel sel = some i → exec (c sel) s = .next t →
    isNaN (t.oscRec i).inc = true ∨
      le (F64.abs (t.oscRec i).inc) (div nan Config.fClamp s.sampleRate) = true

/-- R166, R173: a NaN stored phase stays NaN through a PASTEP, TONESTEP or QUADSTEP, is published as it is,
and never folds. -/
def Obligations.NaNPhaseStaysNaN : Prop :=
  ∀ (s : State) (sel : BitVec 4) (i : Osc) (c : BitVec 4 → Instr),
    c = Instr.pastep ∨ c = Instr.tonestep ∨ c = Instr.quadstep → s.flag .configured = true →
    oscOfSel sel = some i → isNaN (s.oscRec i).phase = true →
    ∃ t, exec (c sel) s = .next t ∧ (t.oscRec i).pubPhase = (s.oscRec i).phase ∧
      (t.oscRec i).wrap = 0 ∧ isNaN (t.oscRec i).phase = true

/-- R170 item 3: from a stored phase in [0, 2), a step by PASTEP, TONESTEP or QUADSTEP whose increment lies in
(0, 1 - 2^-53] publishes a phase in [0, 1) and stores one in (0, 2). -/
def Obligations.PositiveStepsKeepThePhaseInRange : Prop :=
  ∀ (s t : State) (sel : BitVec 4) (i : Osc) (c : BitVec 4 → Instr),
    c = Instr.pastep ∨ c = Instr.tonestep ∨ c = Instr.quadstep → s.flag .configured = true →
    oscOfSel sel = some i → exec (c sel) s = .next t →
    gt (t.oscRec i).inc 0 = true → le (t.oscRec i).inc 0x3FEFFFFFFFFFFFFF = true →
    ge (s.oscRec i).phase 0 = true → lt (s.oscRec i).phase 0x4000000000000000 = true →
    ge (t.oscRec i).pubPhase 0 = true ∧ lt (t.oscRec i).pubPhase one = true ∧
      gt (t.oscRec i).phase 0 = true ∧ lt (t.oscRec i).phase 0x4000000000000000 = true

/-- R41, R174: what a step command does to its oscillator depends on `SAMPLE_RATE`, that record and the free
values of its tick alone; the tick is the model's (notes/assumptions/3.md, 19.md). -/
def Obligations.StepsDependOnlyOnTheirOscillator : Prop :=
  ∀ (s s' t t' : State) (sel : BitVec 4) (i : Osc) (c : BitVec 4 → Instr),
    c = Instr.pastep ∨ c = Instr.tonestep ∨ c = Instr.quadstep →
    oscOfSel sel = some i → s.flag .configured = true → s'.flag .configured = true →
    s'.sampleRate = s.sampleRate → s'.oscRec i = s.oscRec i → s'.draws = s.draws →
    exec (c sel) s = .next t → exec (c sel) s' = .next t' →
    t'.oscRec i = t.oscRec i ∧ (∀ j, j ≠ i → t.oscRec j = s.oscRec j)

/-! ## The output stages (42_oscillators.md) -/

/-- R192, R194: TONESTEP runs the phase step and then writes the tone sample at the published phase plus
`PHASE_MOD`; `OUTQ` and everything else stands. -/
def Obligations.TonestepWritesTheToneSample : Prop :=
  ∀ (s : State) (sel : BitVec 4) (i : Osc), s.flag .configured = true → oscOfSel sel = some i →
    ∃ (t : State) (nan : Word), isNaN nan = true ∧ exec (.tonestep sel) s = .next t ∧
      IsPAStep i s t ∧
      IsSampleAt (s.oscRec i) (add nan (t.oscRec i).pubPhase (s.oscRec i).phaseMod) (t.oscRec i).out ∧
      UnchangedBut (0x01 :: oscIndices i [.pubPhase, .wrap, .inc, .phase, .out]) s t

/-- R195, R197: QUADSTEP runs the phase step and then writes the in-phase sample at the published phase and
the quadrature sample a quarter cycle on; `PHASE_MOD` has no effect. -/
def Obligations.QuadstepWritesBothSamples : Prop :=
  ∀ (s : State) (sel : BitVec 4) (i : Osc), s.flag .configured = true → oscOfSel sel = some i →
    ∃ (t : State) (nan : Word), isNaN nan = true ∧ exec (.quadstep sel) s = .next t ∧
      IsPAStep i s t ∧
      IsSampleAt (s.oscRec i) (t.oscRec i).pubPhase (t.oscRec i).out ∧
      IsSampleAt (s.oscRec i) (add nan (t.oscRec i).pubPhase 0x3FD0000000000000) (t.oscRec i).outQ ∧
      UnchangedBut (0x01 :: oscIndices i [.pubPhase, .wrap, .inc, .phase, .out, .outQ]) s t

/-- R190: the angle of every finite phase lies in [-PI, PI]. -/
def Obligations.AngleLiesBetweenMinusPiAndPi : Prop :=
  ∀ (nan : Nat → Word) (q : Word), isFinite q = true →
    ge (angle nan q) 0xC00921FB54442D18 = true ∧ le (angle nan q) 0x400921FB54442D18 = true

/-! ## The synth graph (43_synth_graph.md) -/

/-- R226 to R229: GSTEP is QUADSTEP of the lfo, the copy of its in-phase output into both tone records'
`FREQ_MOD`, TONESTEP of osc1 and of osc2, and the mix; every other register and every buffer word
stands. That GSTEP and the separate commands agree bit for bit in NaN patterns and draws is the model's
choice: free values are fixed by the tick, and a graph sample takes the ticks of its parts
(notes/assumptions/3.md, 19.md). -/
def Obligations.GstepIsTheGraphSample : Prop :=
  ∀ s : State, s.flag .configured = true →
    ∃ (a b c t : State) (nan : Nat → Word), (∀ k, isNaN (nan k) = true) ∧
      exec (.quadstep 2) s = .next a ∧
      exec (.tonestep 0)
        { a with
          osc1 := { a.osc1 with freqMod := a.lfo.out }
          osc2 := { a.osc2 with freqMod := a.lfo.out } } = .next b ∧
      exec (.tonestep 1) b = .next c ∧
      exec .gstep s = .next t ∧
      t.readReg 0x05 =
        add (nan 2) (mul (nan 0) 0x3FE0000000000000 c.osc1.out) (mul (nan 1) 0x3FE0000000000000 c.osc2.out) ∧
      UnchangedBut [0x05] c t ∧ UnchangedBut graphIndices s t

/-- R351: what the host writes to `FREQ_MOD` of a tone oscillator has no effect on a graph sample, and so none
on a RENDER of one sample or more. That the two runs agree in drawn values and NaN patterns as well is the
model's choice: they start at one tick, which fixes the free values (notes/assumptions/3.md, 19.md). -/
def Obligations.HostFreqModWritesAreLostInTheGraph : Prop :=
  ∀ (s : State) (v w : Word), s.flag .configured = true →
    let s' := { s with osc1 := { s.osc1 with freqMod := v }, osc2 := { s.osc2 with freqMod := w } }
    exec .gstep s' = exec .gstep s ∧
      (s.bufCount ≠ 0 → s.bufBase.toNat + s.bufCount.toNat ≤ s.bufLen.toNat →
        exec .render s' = exec .render s)

/-- R234: the first graph sample after INIT is fully determined, at every sample rate above 0 and for every
`EXP2_FRAC`: both tone samples, the mix and the in-phase lfo are +0.0 and the quadrature lfo is 1.0. -/
def Obligations.FirstGraphSampleIsDetermined : Prop :=
  ∀ s : State, s.flag .configured = false → gt s.sampleRate 0 = true →
    ∃ t u, exec .init s = .next t ∧ exec .gstep t = .next u ∧
      u.osc1.out = 0 ∧ u.osc2.out = 0 ∧ u.mixOut = 0 ∧ u.lfo.out = 0 ∧ u.lfo.outQ = one

/-- R230, R232: RENDER of a constructed graph inside the buffer completes, and leaves what `BUF_COUNT` GSTEP
commands leave whose `MIX_OUT` the host copies into the words from `BUF_BASE` up. The words outside the
range and the registers that no graph sample writes stand. That both agree bit for bit in NaN patterns and
draws as well is the model's choice: each sample takes the same ticks either way
(notes/assumptions/3.md, 19.md). -/
def Obligations.RenderIsGstepsWithTheirSamplesCopied : Prop :=
  ∀ s : State, s.flag .configured = true →
    s.bufBase.toNat + s.bufCount.toNat ≤ s.bufLen.toNat →
    ∃ t, exec .render s = .next t ∧ gstepsCopied s.bufCount.toNat s.bufBase.toNat s = .next t ∧
      (∀ j, j ∉ graphIndices → t.readReg j = s.readReg j) ∧
      (∀ k, k < s.bufBase.toNat ∨ s.bufBase.toNat + s.bufCount.toNat ≤ k →
        t.buffer.read k = s.buffer.read k) ∧
      t.pending = s.pending ∧ t.reply = s.reply

/-- R232, R233: one RENDER of `a + b` samples leaves what two RENDERs of `a` and of `b` samples over
adjacent ranges leave, in every register, every buffer word and the free values, but for the operand
registers `BUF_BASE` and `BUF_COUNT` that the host wrote between them. That both agree bit for bit in NaN
patterns and draws as well is the model's choice: each sample takes the same ticks either way
(notes/assumptions/3.md, 19.md). -/
def Obligations.RenderInTwoChunksIsRenderInOne : Prop :=
  ∀ (s : State) (a b : Word), s.flag .configured = true →
    s.bufBase.toNat + a.toNat + b.toNat ≤ s.bufLen.toNat →
    ∃ t u v, exec .render { s with bufCount := a + b } = .next t ∧
      exec .render { s with bufCount := a } = .next u ∧
      exec .render { u with bufBase := s.bufBase + a, bufCount := b } = .next v ∧
      t = { v with bufBase := s.bufBase, bufCount := a + b }

/-! ## Binary64 arithmetic (00_scope.md) -/

/-- R3: the sum and the difference of finite values are the exact result rounded once, roundTiesToEven. -/
def Obligations.SumsAreCorrectlyRounded : Prop :=
  ∀ nan a b : Word, isFinite a = true → isFinite b = true →
    IsRounded (toRat a + toRat b) (add nan a b) ∧ IsRounded (toRat a - toRat b) (sub nan a b)

/-- R3: the product of finite values, and the quotient by a nonzero one, are the exact result rounded once,
roundTiesToEven. -/
def Obligations.ProductsAndQuotientsAreCorrectlyRounded : Prop :=
  ∀ nan a b : Word, isFinite a = true → isFinite b = true →
    IsRounded (toRat a * toRat b) (mul nan a b) ∧
      (isZero b = false → IsRounded (toRat a / toRat b) (div nan a b))

/-- R5: a comparison with a NaN is false; of finite values it is the comparison of the values, so the two
zeros are equal; of any two operands that are no NaN it is the comparison of their places on the rational
line with its two ends. R5 names the IEEE 754 comparisons without spelling out the infinities; that each
infinity equals itself and lies at its end of the line is the standard's (notes/assumptions/15.md). -/
def Obligations.ComparisonsAreOrderedComparisons : Prop :=
  (∀ a b : Word, isNaN a = true ∨ isNaN b = true →
    lt a b = false ∧ le a b = false ∧ gt a b = false ∧ ge a b = false ∧ F64.eq a b = false) ∧
  (∀ a b : Word, isFinite a = true → isFinite b = true →
    (lt a b = true ↔ toRat a < toRat b) ∧ (le a b = true ↔ toRat a ≤ toRat b) ∧
      (gt a b = true ↔ toRat b < toRat a) ∧ (ge a b = true ↔ toRat b ≤ toRat a) ∧
      (F64.eq a b = true ↔ toRat a = toRat b)) ∧
  (∀ a : Word, isFinite a = true →
    lt a 0x7FF0000000000000 = true ∧ lt 0xFFF0000000000000 a = true) ∧
  (∀ a b : Word, isNaN a = false → isNaN b = false →
    (lt a b = true ↔ place a < place b) ∧ (le a b = true ↔ place a ≤ place b) ∧
      (gt a b = true ↔ place b < place a) ∧ (ge a b = true ↔ place b ≤ place a) ∧
      (F64.eq a b = true ↔ place a = place b)) ∧
  F64.eq 0x8000000000000000 0 = true

/-- R6: the operations that produce a NaN are those of IEEE 754: a NaN operand, inf - inf, 0 * inf, 0 / 0 and
inf / inf; and the pattern that then results is a NaN. R6 names the first of these as examples; the
full list is the standard's (notes/assumptions/15.md), and the form of the free patterns is the model's
(notes/assumptions/4.md). -/
def Obligations.InvalidOperationsProduceNaN : Prop :=
  (∀ nan a b : Word, isNaN nan = true →
    (isNaN (add nan a b) = true ↔ isNaN a = true ∨ isNaN b = true ∨
      (isInf a = true ∧ isInf b = true ∧ sign a ≠ sign b)) ∧
    (isNaN (mul nan a b) = true ↔ isNaN a = true ∨ isNaN b = true ∨
      (isInf a = true ∧ isZero b = true) ∨ (isZero a = true ∧ isInf b = true)) ∧
    (isNaN (div nan a b) = true ↔ isNaN a = true ∨ isNaN b = true ∨
      (isInf a = true ∧ isInf b = true) ∨ (isZero a = true ∧ isZero b = true))) ∧
  ∀ t k, isNaN (Config.openValues.nan t k) = true
end

