-- ==== Sys2Proof/Laws/Rounding.lean ====
section
/-! SUPPORT. The laws of rounding (00_scope.md R3): the magnitude that `roundMag` gives is the nearest one,
ties to even, exact where the value is a binary64 number, and rising with the value. -/

namespace Sys2Proof.F64

/-! ## Rounding to an integer -/

/-- `roundDiv n d` is within a half of `n / d`, and even where it is exactly a half away. -/
theorem roundDiv_spec (n d : Nat) (hd : 0 < d) :
    2 * roundDiv n d * d ≤ 2 * n + d ∧ 2 * n ≤ 2 * roundDiv n d * d + d ∧
      (2 * roundDiv n d * d = 2 * n + d → roundDiv n d % 2 = 0) ∧
      (2 * n = 2 * roundDiv n d * d + d → roundDiv n d % 2 = 0) := by
  have hdm := Nat.div_add_mod n d
  have hlt := Nat.mod_lt n hd
  unfold roundDiv
  generalize n / d = q at *
  generalize n % d = r at *
  split
  · have : 2 * q * d = 2 * (d * q) := by ring
    refine ⟨by omega, by omega, fun h => by omega, fun h => by omega⟩
  · split
    · have : 2 * (q + 1) * d = 2 * (d * q) + 2 * d := by ring
      refine ⟨by omega, by omega, fun h => by omega, fun h => by omega⟩
    · rcases Nat.mod_two_eq_zero_or_one q with h2 | h2
      · rw [h2, Nat.add_zero]
        have : 2 * q * d = 2 * (d * q) := by ring
        exact ⟨by omega, by omega, fun _ => h2, fun _ => h2⟩
      · rw [h2]
        have : 2 * (q + 1) * d = 2 * (d * q) + 2 * d := by ring
        exact ⟨by omega, by omega, fun _ => by omega, fun _ => by omega⟩

theorem roundDiv_exact (q d : Nat) (hd : 0 < d) : roundDiv (q * d) d = q := by
  simp [roundDiv, hd]

/-- Rounding to an integer rises with the value. -/
theorem roundDiv_mono {n d n' d' : Nat} (hd : 0 < d) (hd' : 0 < d') (h : n * d' ≤ n' * d) :
    roundDiv n d ≤ roundDiv n' d' := by
  obtain ⟨h1, h2, h3, h4⟩ := roundDiv_spec n d hd
  obtain ⟨h1', h2', h3', h4'⟩ := roundDiv_spec n' d' hd'
  generalize roundDiv n d = a at *
  generalize roundDiv n' d' = b at *
  by_contra hlt
  obtain ⟨c, rfl⟩ : ∃ c, a = b + 1 + c := ⟨a - (b + 1), by omega⟩
  -- 2 (b+1) d d' ≤ 2 a d d' ≤ 2 n d' + d d' ≤ 2 n' d + d d' ≤ 2 b d d' + 2 d d'
  have e1 : 2 * (b + 1 + c) * d * d' ≤ (2 * n + d) * d' := Nat.mul_le_mul_right d' h1
  have e2 : 2 * n' * d ≤ (2 * b * d' + d') * d := Nat.mul_le_mul_right d h2'
  have hdd : 0 < d * d' := Nat.mul_pos hd hd'
  have e3 : c * (d * d') = 0 := by nlinarith
  have hc : c = 0 := by
    rcases Nat.mul_eq_zero.mp e3 with h | h
    · exact h
    · omega
  subst hc
  have t1 : 2 * (b + 1 + 0) * d * d' = (2 * n + d) * d' := by nlinarith
  have t2 : 2 * n' * d = (2 * b * d' + d') * d := by nlinarith
  have p1 := h3 (Nat.eq_of_mul_eq_mul_right hd' t1)
  have p2 := h4' (Nat.eq_of_mul_eq_mul_right hd t2)
  omega

theorem roundDiv_le {n d q : Nat} (hd : 0 < d) (h : n ≤ q * d) : roundDiv n d ≤ q := by
  rw [← roundDiv_exact q d hd]
  exact roundDiv_mono hd hd (Nat.mul_le_mul_right d h)

theorem le_roundDiv {n d q : Nat} (hd : 0 < d) (h : q * d ≤ n) : q ≤ roundDiv n d := by
  rw [← roundDiv_exact q d hd]
  exact roundDiv_mono hd hd (Nat.mul_le_mul_right d h)

/-! ## The quanta of a magnitude -/

/-- A magnitude of `m` units at exponent step `k` has the bits `k * 2^52 + m`. -/
theorem quanta_binade (k m : Nat) (hm : m ≤ 2 ^ 53) (h : k = 0 ∨ 2 ^ 52 ≤ m) :
    quanta (k * 2 ^ 52 + m) = m * 2 ^ k := by
  unfold quanta
  by_cases hlt : k * 2 ^ 52 + m < 2 ^ 52
  · have hk : k = 0 := by omega
    subst hk
    rw [if_pos hlt]
    simp
  · rw [if_neg hlt]
    by_cases hm53 : m = 2 ^ 53
    · subst hm53
      have h1 : (k * 2 ^ 52 + 2 ^ 53) % 2 ^ 52 = 0 := by omega
      have h2 : (k * 2 ^ 52 + 2 ^ 53) / 2 ^ 52 - 1 = k + 1 := by omega
      rw [h1, h2, pow_succ]
      ring
    · have h1 : (k * 2 ^ 52 + m) % 2 ^ 52 = m - 2 ^ 52 := by omega
      have h2 : (k * 2 ^ 52 + m) / 2 ^ 52 - 1 = k := by omega
      rw [h1, h2, show 2 ^ 52 + (m - 2 ^ 52) = m by omega]

/-- Every magnitude at or above the first normal one, by exponent step and units. -/
theorem exists_binade (p : Nat) :
    ∃ k m, p = k * 2 ^ 52 + m ∧ m < 2 ^ 53 ∧ (k = 0 ∨ 2 ^ 52 ≤ m) := by
  by_cases h : p < 2 ^ 53
  · exact ⟨0, p, by omega, h, Or.inl rfl⟩
  · exact ⟨p / 2 ^ 52 - 1, 2 ^ 52 + p % 2 ^ 52, by omega, by omega, Or.inr (by omega)⟩

theorem quanta_succ (p : Nat) : quanta p < quanta (p + 1) := by
  obtain ⟨k, m, rfl, hm, h⟩ := exists_binade p
  have h' : k = 0 ∨ 2 ^ 52 ≤ m + 1 := by omega
  rw [quanta_binade k m (by omega) h, Nat.add_assoc, quanta_binade k (m + 1) (by omega) h']
  exact Nat.mul_lt_mul_of_pos_right (by omega) (Nat.two_pow_pos k)

/-- Magnitudes compare as their bits do. -/
theorem quanta_strictMono : StrictMono quanta := strictMono_nat_of_lt_succ quanta_succ

theorem quanta_lt {p q : Nat} : quanta p < quanta q ↔ p < q := quanta_strictMono.lt_iff_lt
theorem quanta_le {p q : Nat} : quanta p ≤ quanta q ↔ p ≤ q := quanta_strictMono.le_iff_le
theorem quanta_inj {p q : Nat} : quanta p = quanta q ↔ p = q := quanta_strictMono.injective.eq_iff

@[simp] theorem quanta_zero : quanta 0 = 0 := by simp [quanta]

theorem quanta_eq_zero {p : Nat} : quanta p = 0 ↔ p = 0 := by
  rw [show (0 : Nat) = quanta 0 from quanta_zero.symm, quanta_inj, quanta_zero]

theorem quanta_pos {p : Nat} (h : 0 < p) : 0 < quanta p := by
  have := quanta_lt.mpr h
  rwa [quanta_zero] at this

/-- The quanta of a magnitude are a multiple of `2^k`, or fewer than `2^(52+k)`. -/
theorem quanta_multiple_or_small (p k : Nat) : 2 ^ k ∣ quanta p ∨ quanta p < 2 ^ 52 * 2 ^ k := by
  obtain ⟨j, m, rfl, hm, h⟩ := exists_binade p
  rw [quanta_binade j m (by omega) h]
  by_cases hjk : k ≤ j
  · exact Or.inl (Dvd.dvd.mul_left (pow_dvd_pow 2 hjk) m)
  · right
    have h1 : 2 ^ (j + 1) ≤ 2 ^ k := Nat.pow_le_pow_right (by norm_num) (by omega)
    have h2 : m * 2 ^ j < 2 ^ 53 * 2 ^ j := Nat.mul_lt_mul_of_pos_right hm (Nat.two_pow_pos j)
    have h3 : 2 ^ 53 * 2 ^ j = 2 ^ 52 * 2 ^ (j + 1) := by rw [pow_succ]; ring
    calc m * 2 ^ j < 2 ^ 52 * 2 ^ (j + 1) := by rw [← h3]; exact h2
      _ ≤ 2 ^ 52 * 2 ^ k := Nat.mul_le_mul_left _ h1

/-! ## Rounding to a magnitude -/

/-- The exponent step at which `n / d` quanta are rounded. -/
def expStep (n d : Nat) : Nat := (n / d).log2 - 52

/-- `roundMag` before overflow is taken to infinity. -/
def rawMag (n d : Nat) : Nat := expStep n d * 2 ^ 52 + roundDiv n (d * 2 ^ expStep n d)

theorem roundMag_eq (n d : Nat) : roundMag n d = min (rawMag n d) infMag := rfl

theorem expStep_spec (n d : Nat) (hd : 0 < d) :
    n < 2 ^ 53 * (d * 2 ^ expStep n d) ∧
      (expStep n d = 0 ∨ 2 ^ 52 * (d * 2 ^ expStep n d) ≤ n) := by
  unfold expStep
  have hn : n < (n / d + 1) * d := by
    rw [Nat.mul_comm]; exact Nat.lt_mul_div_succ n hd
  have hn' : n / d * d ≤ n := Nat.div_mul_le_self n d
  generalize n / d = q at *
  have hq : q < 2 ^ (q.log2 + 1) := Nat.lt_log2_self
  constructor
  · have h1 : q + 1 ≤ 2 ^ 53 * 2 ^ (q.log2 - 52) := by
      rw [← pow_add]
      exact le_trans hq (Nat.pow_le_pow_right (by norm_num) (by omega))
    calc n < (q + 1) * d := hn
      _ ≤ 2 ^ 53 * 2 ^ (q.log2 - 52) * d := Nat.mul_le_mul_right d h1
      _ = 2 ^ 53 * (d * 2 ^ (q.log2 - 52)) := by ring
  · by_cases h : q.log2 - 52 = 0
    · exact Or.inl h
    · right
      have hq0 : q ≠ 0 := by
        rintro rfl
        simp at h
      have h1 : 2 ^ 52 * 2 ^ (q.log2 - 52) ≤ q := by
        rw [← pow_add, show 52 + (q.log2 - 52) = q.log2 by omega]
        exact Nat.log2_self_le hq0
      calc 2 ^ 52 * (d * 2 ^ (q.log2 - 52)) = 2 ^ 52 * 2 ^ (q.log2 - 52) * d := by ring
        _ ≤ q * d := Nat.mul_le_mul_right d h1
        _ ≤ n := hn'

theorem expStep_den_pos (n d : Nat) (hd : 0 < d) : 0 < d * 2 ^ expStep n d :=
  Nat.mul_pos hd (Nat.two_pow_pos _)

/-- The units of a rounded magnitude: at most 2^53, and a full 53 bits above the subnormals. -/
theorem rawMag_units (n d : Nat) (hd : 0 < d) :
    roundDiv n (d * 2 ^ expStep n d) ≤ 2 ^ 53 ∧
      (expStep n d = 0 ∨ 2 ^ 52 ≤ roundDiv n (d * 2 ^ expStep n d)) := by
  obtain ⟨h1, h2⟩ := expStep_spec n d hd
  have hp := expStep_den_pos n d hd
  exact ⟨roundDiv_le hp h1.le, h2.imp_right fun h => le_roundDiv hp h⟩

/-- The quanta of a rounded magnitude. -/
theorem quanta_rawMag (n d : Nat) (hd : 0 < d) :
    quanta (rawMag n d) = roundDiv n (d * 2 ^ expStep n d) * 2 ^ expStep n d := by
  obtain ⟨h1, h2⟩ := rawMag_units n d hd
  exact quanta_binade _ _ h1 h2

theorem expStep_mono {n d n' d' : Nat} (hd : 0 < d) (hd' : 0 < d') (h : n * d' ≤ n' * d) :
    expStep n d ≤ expStep n' d' := by
  have hq : n / d ≤ n' / d' := by
    rw [Nat.le_div_iff_mul_le hd']
    have h1 : n / d * d ≤ n := Nat.div_mul_le_self n d
    have h2 : n / d * d' * d ≤ n' * d := by
      calc n / d * d' * d = n / d * d * d' := by ring
        _ ≤ n * d' := Nat.mul_le_mul_right d' h1
        _ ≤ n' * d := h
    exact Nat.le_of_mul_le_mul_right h2 hd
  have hlog : (n / d).log2 ≤ (n' / d').log2 := by
    by_cases h0 : n / d = 0
    · simp [h0]
    · rw [Nat.le_log2 fun h => h0 (Nat.le_zero.mp (h ▸ hq))]
      exact le_trans (Nat.log2_self_le h0) hq
  unfold expStep
  omega

/-- Rounding rises with the value. -/
theorem rawMag_mono {n d n' d' : Nat} (hd : 0 < d) (hd' : 0 < d') (h : n * d' ≤ n' * d) :
    rawMag n d ≤ rawMag n' d' := by
  have he := expStep_mono hd hd' h
  have hu := (rawMag_units n d hd).1
  have hu' := (rawMag_units n' d' hd').2
  unfold rawMag
  rcases Nat.eq_or_lt_of_le he with heq | hlt
  · rw [heq]
    have : roundDiv n (d * 2 ^ expStep n' d') ≤ roundDiv n' (d' * 2 ^ expStep n' d') := by
      refine roundDiv_mono (Nat.mul_pos hd (Nat.two_pow_pos _))
        (Nat.mul_pos hd' (Nat.two_pow_pos _)) ?_
      calc n * (d' * 2 ^ expStep n' d') = n * d' * 2 ^ expStep n' d' := by ring
        _ ≤ n' * d * 2 ^ expStep n' d' := Nat.mul_le_mul_right _ h
        _ = n' * (d * 2 ^ expStep n' d') := by ring
    omega
  · have : 2 ^ 52 ≤ roundDiv n' (d' * 2 ^ expStep n' d') := hu'.resolve_left (by omega)
    omega

theorem roundMag_mono {n d n' d' : Nat} (hd : 0 < d) (hd' : 0 < d') (h : n * d' ≤ n' * d) :
    roundMag n d ≤ roundMag n' d' := by
  rw [roundMag_eq, roundMag_eq]
  exact min_le_min_right _ (rawMag_mono hd hd' h)

/-- A value that is a binary64 magnitude is its own rounding. -/
theorem rawMag_exact (p d : Nat) (hd : 0 < d) : rawMag (quanta p * d) d = p := by
  obtain ⟨k, m, rfl, hm, h⟩ := exists_binade p
  rw [quanta_binade k m (by omega) h]
  have he : expStep (m * 2 ^ k * d) d = k := by
    unfold expStep
    rw [Nat.mul_div_cancel _ hd]
    rcases h with rfl | h
    · by_cases hm0 : m = 0
      · simp [hm0]
      · have : m.log2 < 53 := (Nat.log2_lt hm0).mpr hm
        simp; omega
    · have hm0 : m ≠ 0 := by
        intro h0; rw [h0] at h; norm_num at h
      have h2 : (m * 2 ^ k).log2 = 52 + k := by
        have hne : m * 2 ^ k ≠ 0 := Nat.mul_ne_zero hm0 (Nat.two_pow_pos k).ne'
        rw [Nat.log2_eq_iff hne, pow_add, Nat.add_right_comm, pow_add]
        exact ⟨Nat.mul_le_mul_right _ h, Nat.mul_lt_mul_of_pos_right hm (Nat.two_pow_pos k)⟩
      rw [h2]
      omega
  unfold rawMag
  rw [he, show m * 2 ^ k * d = m * (d * 2 ^ k) by ring,
    roundDiv_exact _ _ (Nat.mul_pos hd (Nat.two_pow_pos k))]

theorem roundMag_exact (p d : Nat) (hd : 0 < d) (hp : p ≤ infMag) :
    roundMag (quanta p * d) d = p := by
  rw [roundMag_eq, rawMag_exact p d hd, min_eq_left hp]

/-- `p` bounds the rounding of what it bounds. -/
theorem roundMag_le {n d p : Nat} (hd : 0 < d) (h : n ≤ quanta p * d) : roundMag n d ≤ p := by
  rw [roundMag_eq]
  refine le_trans (min_le_left _ _) ?_
  rw [← rawMag_exact p d hd]
  exact rawMag_mono hd hd (Nat.mul_le_mul_right d h)

theorem le_roundMag {n d p : Nat} (hd : 0 < d) (hp : p ≤ infMag) (h : quanta p * d ≤ n) :
    p ≤ roundMag n d := by
  rw [← roundMag_exact p d hd hp]
  exact roundMag_mono hd hd (Nat.mul_le_mul_right d h)

theorem roundMag_le_infMag (n d : Nat) : roundMag n d ≤ infMag := min_le_right _ _

@[simp] theorem roundMag_zero (d : Nat) : roundMag 0 d = 0 := by
  simp [roundMag, roundDiv, infMag]

/-- What overflows: from the largest finite magnitude and half a unit of its last place. -/
theorem infMag_le_rawMag_iff (n d : Nat) (hd : 0 < d) :
    infMag ≤ rawMag n d ↔ (2 ^ 54 - 1) * 2 ^ 2044 * d ≤ n := by
  have hp := expStep_den_pos n d hd
  obtain ⟨hu1, hu2⟩ := rawMag_units n d hd
  obtain ⟨hs1, hs2⟩ := expStep_spec n d hd
  obtain ⟨hr1, hr2, hr3, hr4⟩ := roundDiv_spec n (d * 2 ^ expStep n d) hp
  unfold rawMag infMag
  generalize expStep n d = k at *
  generalize hM : roundDiv n (d * 2 ^ k) = m at *
  constructor
  · intro h
    have hk : 2045 ≤ k := by omega
    by_cases hk' : k = 2045
    · subst hk'
      have hm : m = 2 ^ 53 := by omega
      subst hm
      rw [show (2 : Nat) ^ 2045 = 2 ^ 2044 * 2 from pow_succ 2 2044] at *
      generalize (2 : Nat) ^ 2044 = P at *
      have e1 : 2 * 2 ^ 53 * (d * (P * 2)) = 2 ^ 55 * (d * P) := by ring
      have e2 : (2 ^ 54 - 1) * P * d = (2 ^ 54 - 1) * (d * P) := by ring
      have e3 : d * (P * 2) = 2 * (d * P) := by ring
      rw [e1, e3] at hr1
      rw [e2]
      omega
    · have h2 : 2 ^ 52 * (d * 2 ^ k) ≤ n := hs2.resolve_left (by omega)
      have h3 : (2 : Nat) ^ (2044 + 2) ≤ 2 ^ k := Nat.pow_le_pow_right (by norm_num) (by omega)
      rw [pow_add] at h3
      generalize (2 : Nat) ^ 2044 = P at *
      have h4 : d * (P * 2 ^ 2) ≤ d * 2 ^ k := Nat.mul_le_mul_left d h3
      have e2 : (2 ^ 54 - 1) * P * d = (2 ^ 54 - 1) * (d * P) := by ring
      have e3 : d * (P * 2 ^ 2) = 4 * (d * P) := by ring
      rw [e3] at h4
      rw [e2]
      omega
  · intro h
    by_contra hlt
    have hk : k ≤ 2045 := by
      by_contra hk
      rcases hu2 with hu2 | hu2 <;> omega
    by_cases hk' : k = 2045
    · subst hk'
      have hm : m ≤ 2 ^ 53 - 1 := by omega
      rw [show (2 : Nat) ^ 2045 = 2 ^ 2044 * 2 from pow_succ 2 2044] at *
      generalize (2 : Nat) ^ 2044 = P at *
      have hdP : d * (P * 2) = 2 * (d * P) := by ring
      have h5 : 2 * m * (d * (P * 2)) ≤ 2 * (2 ^ 53 - 1) * (d * (P * 2)) :=
        Nat.mul_le_mul_right _ (by omega)
      have e2 : (2 ^ 54 - 1) * P * d = (2 ^ 54 - 1) * (d * P) := by ring
      have e4 : 2 * (2 ^ 53 - 1) * (d * (P * 2)) = (2 ^ 55 - 4) * (d * P) := by
        rw [hdP]; ring_nf
      rw [e2] at h
      -- equality: 2n = 2m D + D with m odd
      have heq : 2 * n = 2 * m * (d * (P * 2)) + d * (P * 2) := by omega
      have heven := hr4 heq
      have hmeq : m = 2 ^ 53 - 1 := by
        by_contra hne
        have h6 : 2 * m * (d * (P * 2)) ≤ 2 * (2 ^ 53 - 2) * (d * (P * 2)) :=
          Nat.mul_le_mul_right _ (by omega)
        have e6 : 2 * (2 ^ 53 - 2) * (d * (P * 2)) = (2 ^ 55 - 8) * (d * P) := by
          rw [hdP]; ring_nf
        omega
      rw [hmeq] at heven
      norm_num at heven
    · have h3 : (2 : Nat) ^ k ≤ 2 ^ 2044 := Nat.pow_le_pow_right (by norm_num) (by omega)
      generalize (2 : Nat) ^ 2044 = P at *
      have h4 : d * 2 ^ k ≤ d * P := Nat.mul_le_mul_left d h3
      have e2 : (2 ^ 54 - 1) * P * d = (2 ^ 54 - 1) * (d * P) := by ring
      rw [e2] at h
      omega

/-! ## Nearest -/

/-- A rounded integer is at least as near as any other, and even on a tie. -/
theorem roundDiv_nearest (n d : Nat) (hd : 0 < d) (z : Int) :
    |(n : ℚ) / d - roundDiv n d| ≤ |(n : ℚ) / d - z| ∧
      (|(n : ℚ) / d - roundDiv n d| = |(n : ℚ) / d - z| → z ≠ roundDiv n d →
        roundDiv n d % 2 = 0) := by
  obtain ⟨h1, h2, h3, h4⟩ := roundDiv_spec n d hd
  generalize roundDiv n d = m at *
  have hdq : (0 : ℚ) < d := by exact_mod_cast hd
  set x : ℚ := (n : ℚ) / d with hx
  have hxd : x * d = n := by rw [hx]; field_simp
  have q1 : (m : ℚ) - x ≤ 1 / 2 := by
    have : (2 * m * d : ℚ) ≤ 2 * n + d := by exact_mod_cast h1
    rw [← hxd] at this
    by_contra hc
    have : (1 / 2 : ℚ) * d < (m - x) * d := mul_lt_mul_of_pos_right (by linarith) hdq
    linarith
  have q2 : x - m ≤ 1 / 2 := by
    have : (2 * n : ℚ) ≤ 2 * m * d + d := by exact_mod_cast h2
    rw [← hxd] at this
    by_contra hc
    have : (1 / 2 : ℚ) * d < (x - m) * d := mul_lt_mul_of_pos_right (by linarith) hdq
    linarith
  have q3 : (m : ℚ) - x = 1 / 2 → m % 2 = 0 := by
    intro h
    refine h3 ?_
    have : (2 * m * d : ℚ) = 2 * n + d := by rw [← hxd]; linear_combination 2 * (d : ℚ) * h
    exact_mod_cast this
  have q4 : x - m = 1 / 2 → m % 2 = 0 := by
    intro h
    refine h4 ?_
    have : (2 * n : ℚ) = 2 * m * d + d := by rw [← hxd]; linear_combination 2 * (d : ℚ) * h
    exact_mod_cast this
  have hle : |x - m| ≤ 1 / 2 := abs_le.mpr ⟨by linarith, q2⟩
  by_cases hz : z = (m : Int)
  · subst hz
    exact ⟨by push_cast; exact le_refl _, fun _ h => absurd rfl h⟩
  · have hfar : (1 : ℚ) ≤ |(z : ℚ) - m| := by
      have : (1 : Int) ≤ |z - m| := Int.one_le_abs (sub_ne_zero.mpr hz)
      exact_mod_cast this
    have htri : |(z : ℚ) - m| ≤ |x - m| + |x - z| := by
      have := abs_sub_le (z : ℚ) x m
      rw [abs_sub_comm (z : ℚ) x] at this
      linarith
    refine ⟨by linarith, fun heq _ => ?_⟩
    have hhalf : |x - m| = 1 / 2 := by linarith
    rcases abs_cases (x - (m : ℚ)) with ⟨ha, _⟩ | ⟨ha, _⟩
    · exact q4 (by linarith)
    · exact q3 (by linarith)

/-- A rounded magnitude is at least as near as any other, and even on a tie. -/
theorem rawMag_nearest (n d : Nat) (hd : 0 < d) (p : Nat) :
    |(n : ℚ) / d - quanta (rawMag n d)| ≤ |(n : ℚ) / d - quanta p| ∧
      (|(n : ℚ) / d - quanta (rawMag n d)| = |(n : ℚ) / d - quanta p| → p ≠ rawMag n d →
        rawMag n d % 2 = 0) := by
  have hp := expStep_den_pos n d hd
  have hq := quanta_rawMag n d hd
  obtain ⟨hs1, hs2⟩ := expStep_spec n d hd
  have hnear := roundDiv_nearest n (d * 2 ^ expStep n d) hp
  have heven : roundDiv n (d * 2 ^ expStep n d) % 2 = 0 → rawMag n d % 2 = 0 := by
    unfold rawMag; omega
  have hinj : quanta p = quanta (rawMag n d) → p = rawMag n d := quanta_inj.mp
  rw [hq] at hinj ⊢
  generalize expStep n d = k at *
  generalize roundDiv n (d * 2 ^ k) = m at *
  generalize rawMag n d = r at *
  have hS : (0 : ℚ) < 2 ^ k := by positivity
  have hdq : (0 : ℚ) < d := by exact_mod_cast hd
  set x : ℚ := (n : ℚ) / d with hx
  set y : ℚ := (n : ℚ) / ((d * 2 ^ k : Nat) : ℚ) with hy
  have hxy : x = y * 2 ^ k := by
    rw [hx, hy]; push_cast; field_simp
  have hscale : ∀ z : ℚ, |x - z * 2 ^ k| = |y - z| * 2 ^ k := by
    intro z
    rw [hxy, ← sub_mul, abs_mul, abs_of_pos hS]
  have hm : |x - ((m * 2 ^ k : Nat) : ℚ)| = |y - m| * 2 ^ k := by
    push_cast; exact hscale m
  rw [hm]
  rcases quanta_multiple_or_small p k with ⟨z, hz⟩ | hsmall
  · obtain ⟨n1, n2⟩ := hnear (z : Int)
    have hzq : |x - (quanta p : ℚ)| = |y - ((z : Int) : ℚ)| * 2 ^ k := by
      rw [hz, ← hscale]; push_cast; ring_nf
    rw [hzq]
    refine ⟨mul_le_mul_of_nonneg_right n1 hS.le, fun heq hne => ?_⟩
    refine heven (n2 (mul_right_cancel₀ hS.ne' heq) ?_)
    intro hzm
    apply hne
    apply hinj
    rw [hz, Nat.mul_comm]
    congr 1
    exact_mod_cast hzm
  · rcases hs2 with h0 | hbig
    · subst h0
      obtain ⟨n1, n2⟩ := hnear (quanta p : Int)
      have hzq : |x - (quanta p : ℚ)| = |y - ((quanta p : Int) : ℚ)| * 2 ^ 0 := by
        rw [hxy]; simp
      rw [hzq]
      refine ⟨mul_le_mul_of_nonneg_right n1 hS.le, fun heq hne => ?_⟩
      refine heven (n2 (mul_right_cancel₀ hS.ne' heq) ?_)
      intro hzm
      apply hne
      apply hinj
      have : quanta p = m := by exact_mod_cast hzm
      omega
    · have hy52 : (2 ^ 52 : ℚ) ≤ y := by
        rw [hy, le_div_iff₀ (by exact_mod_cast hp)]
        exact_mod_cast hbig
      have hpq : (quanta p : ℚ) < 2 ^ 52 * 2 ^ k := by exact_mod_cast hsmall
      obtain ⟨n1, -⟩ := hnear (2 ^ 52 : Int)
      have hlt : |y - m| * 2 ^ k < |x - (quanta p : ℚ)| := by
        have h1 : |y - ((2 ^ 52 : Int) : ℚ)| = y - 2 ^ 52 := by
          push_cast; exact abs_of_nonneg (by linarith)
        rw [h1] at n1
        have h2 : |y - m| * 2 ^ k ≤ (y - 2 ^ 52) * 2 ^ k := mul_le_mul_of_nonneg_right n1 hS.le
        have h3 : x - quanta p ≤ |x - quanta p| := le_abs_self _
        have h4 : (y - 2 ^ 52) * 2 ^ k = x - 2 ^ 52 * 2 ^ k := by rw [hxy]; ring
        linarith
      exact ⟨hlt.le, fun heq => absurd heq hlt.ne⟩

end Sys2Proof.F64
end

