-- ==== Sys2Proof/Laws/F64.lean ====
section
/-! SUPPORT. The laws of binary64 patterns and of the operations on them (00_scope.md R2 to R6). -/

namespace Sys2Proof.F64

/-! ## Patterns -/

theorem mag_lt (w : Word) : mag w < 2 ^ 63 := Nat.mod_lt _ (by norm_num)

theorem sign_eq (w : Word) : sign w = decide (2 ^ 63 ≤ w.toNat) := BitVec.msb_eq_decide w

theorem toNat_eq (w : Word) : w.toNat = (if sign w then 2 ^ 63 else 0) + mag w := by
  have h := w.isLt
  rw [sign_eq, mag]
  by_cases hs : 2 ^ 63 ≤ w.toNat
  · simp only [hs, decide_true, if_true]; omega
  · simp only [hs, decide_false]; norm_num; omega

/-- A pattern is its sign and its bits 62:0. -/
theorem pattern_ext {a b : Word} (hs : sign a = sign b) (hm : mag a = mag b) : a = b := by
  apply BitVec.eq_of_toNat_eq
  rw [toNat_eq a, toNat_eq b, hs, hm]

theorem pack_toNat (s : Bool) {m : Nat} (h : m < 2 ^ 63) :
    (pack s m).toNat = (if s then 2 ^ 63 else 0) + m := by
  unfold pack
  rw [BitVec.toNat_ofNat]
  cases s
  · simp only [Bool.false_eq_true, if_false]; omega
  · simp only [if_true]; omega

@[simp] theorem sign_pack (s : Bool) {m : Nat} (h : m < 2 ^ 63) : sign (pack s m) = s := by
  rw [sign_eq, pack_toNat s h]
  cases s <;> simp <;> omega

@[simp] theorem mag_pack (s : Bool) {m : Nat} (h : m < 2 ^ 63) : mag (pack s m) = m := by
  rw [mag, pack_toNat s h]
  cases s <;> simp <;> omega

@[simp] theorem pack_sign_mag (w : Word) : pack (sign w) (mag w) = w :=
  pattern_ext (sign_pack _ (mag_lt w)) (mag_pack _ (mag_lt w))

theorem infMag_lt : infMag < 2 ^ 63 := by norm_num [infMag]

theorem roundMag_lt (n d : Nat) : roundMag n d < 2 ^ 63 :=
  lt_of_le_of_lt (roundMag_le_infMag n d) infMag_lt

/-! ## Classes -/

theorem isNaN_iff (w : Word) : isNaN w = true ↔ infMag < mag w := by simp [isNaN]
theorem isInf_iff (w : Word) : isInf w = true ↔ mag w = infMag := by simp [isInf]
theorem isFinite_iff (w : Word) : isFinite w = true ↔ mag w < infMag := by simp [isFinite]
theorem isZero_iff (w : Word) : isZero w = true ↔ mag w = 0 := by simp [isZero]

theorem isNaN_false_of_isFinite {w : Word} (h : isFinite w = true) : isNaN w = false := by
  rw [isFinite_iff] at h
  simp [isNaN]; omega

theorem isInf_false_of_isFinite {w : Word} (h : isFinite w = true) : isInf w = false := by
  rw [isFinite_iff] at h
  simp [isInf]; omega

theorem isNaN_or_isInf_or_isFinite (w : Word) :
    isNaN w = true ∨ isInf w = true ∨ isFinite w = true := by
  rw [isNaN_iff, isInf_iff, isFinite_iff]; omega

/-- A rounded magnitude is no NaN. -/
theorem isNaN_pack_roundMag (s : Bool) (n d : Nat) : isNaN (pack s (roundMag n d)) = false := by
  have := roundMag_le_infMag n d
  simp [isNaN, mag_pack s (roundMag_lt n d)]; omega

/-! ## The sign operations (R3) -/

theorem mag_eq_setWidth (w : Word) : mag w = (w.setWidth 63).toNat := by
  rw [mag, BitVec.toNat_setWidth]

/-- Negation flips the sign alone. -/
@[simp] theorem sign_neg (w : Word) : sign (neg w) = !sign w := by
  rw [sign, neg, BitVec.msb_xor, show (0x8000000000000000#64).msb = true by decide, sign]
  cases w.msb <;> rfl

@[simp] theorem mag_neg (w : Word) : mag (neg w) = mag w := by
  rw [mag_eq_setWidth, mag_eq_setWidth, neg, BitVec.setWidth_xor]
  simp

/-- The absolute value clears the sign alone. -/
@[simp] theorem sign_abs (w : Word) : sign (F64.abs w) = false := by
  rw [sign, F64.abs, BitVec.msb_and, show (0x7FFFFFFFFFFFFFFF#64).msb = false by decide,
    Bool.and_false]

@[simp] theorem mag_abs (w : Word) : mag (F64.abs w) = mag w := by
  rw [mag_eq_setWidth, mag_eq_setWidth, F64.abs, BitVec.setWidth_and,
    show (0x7FFFFFFFFFFFFFFF#64).setWidth 63 = BitVec.allOnes 63 by decide, BitVec.and_allOnes]

@[simp] theorem isNaN_neg (w : Word) : isNaN (neg w) = isNaN w := by simp [isNaN]
@[simp] theorem isInf_neg (w : Word) : isInf (neg w) = isInf w := by simp [isInf]
@[simp] theorem isZero_neg (w : Word) : isZero (neg w) = isZero w := by simp [isZero]
@[simp] theorem isFinite_neg (w : Word) : isFinite (neg w) = isFinite w := by simp [isFinite]
@[simp] theorem isNaN_abs (w : Word) : isNaN (F64.abs w) = isNaN w := by simp [isNaN]
@[simp] theorem isInf_abs (w : Word) : isInf (F64.abs w) = isInf w := by simp [isInf]
@[simp] theorem isZero_abs (w : Word) : isZero (F64.abs w) = isZero w := by simp [isZero]
@[simp] theorem isFinite_abs (w : Word) : isFinite (F64.abs w) = isFinite w := by simp [isFinite]

@[simp] theorem neg_neg_word (w : Word) : neg (neg w) = w :=
  pattern_ext (by simp) (by simp)

@[simp] theorem neg_pack (s : Bool) {m : Nat} (h : m < 2 ^ 63) : neg (pack s m) = pack (!s) m :=
  pattern_ext (by rw [sign_neg, sign_pack s h, sign_pack _ h])
    (by rw [mag_neg, mag_pack s h, mag_pack _ h])

/-! ## Values -/

theorem scaled_pack (s : Bool) {m : Nat} (h : m < 2 ^ 63) :
    scaled (pack s m) = if s then -(quanta m : Int) else (quanta m : Int) := by
  rw [scaled, sign_pack s h, mag_pack s h]

@[simp] theorem scaled_neg (w : Word) : scaled (neg w) = -scaled w := by
  cases h : sign w <;> simp [scaled, h]

@[simp] theorem toRat_neg (w : Word) : toRat (neg w) = -toRat w := by
  simp [toRat, neg_div]

theorem natAbs_scaled (w : Word) : (scaled w).natAbs = quanta (mag w) := by
  cases h : sign w <;> simp [scaled, h]

theorem scaled_eq_zero (w : Word) : scaled w = 0 ↔ mag w = 0 := by
  rw [← Int.natAbs_eq_zero, natAbs_scaled]
  exact quanta_eq_zero

/-- The order of the patterns is the order of their values. -/
theorem key_lt_key (a b : Word) : key a < key b ↔ scaled a < scaled b := by
  have hm := @quanta_lt
  have h0 : ∀ p : Nat, 0 < quanta p ↔ 0 < p := by
    intro p; rw [← @quanta_lt 0 p, quanta_zero]
  have h1 := h0 (mag a)
  have h2 := h0 (mag b)
  have h3 := hm (p := mag a) (q := mag b)
  have h4 := hm (p := mag b) (q := mag a)
  cases ha : sign a <;> cases hb : sign b <;> simp [key, scaled, ha, hb] <;> omega

theorem key_le_key (a b : Word) : key a ≤ key b ↔ scaled a ≤ scaled b := by
  have := key_lt_key b a
  omega

theorem scaled_lt_scaled (a b : Word) : scaled a < scaled b ↔ toRat a < toRat b := by
  rw [toRat, toRat, div_lt_div_iff_of_pos_right (by positivity)]
  exact Int.cast_lt.symm

theorem scaled_le_scaled (a b : Word) : scaled a ≤ scaled b ↔ toRat a ≤ toRat b := by
  have := scaled_lt_scaled b a
  rw [← not_lt, this, not_lt]

/-- The magnitude of a value. -/
theorem abs_toRat (w : Word) : |toRat w| = (quanta (mag w) : ℚ) / 2 ^ 1074 := by
  rw [toRat, abs_div, abs_of_pos (a := (2 : ℚ) ^ 1074) (by positivity)]
  rw [← natAbs_scaled, Nat.cast_natAbs, Int.cast_abs]

theorem toRat_eq (w : Word) :
    toRat w = (if sign w then -1 else 1) * ((quanta (mag w) : ℚ) / 2 ^ 1074) := by
  cases h : sign w <;> simp [toRat, scaled, h, neg_div]

theorem toRat_eq_zero (w : Word) : toRat w = 0 ↔ mag w = 0 := by
  rw [← abs_eq_zero, abs_toRat, div_eq_zero_iff, or_iff_left (by positivity)]
  rw [Nat.cast_eq_zero]
  exact quanta_eq_zero

/-- Magnitudes compare as the absolute values do. -/
theorem abs_toRat_le (a b : Word) : |toRat a| ≤ |toRat b| ↔ mag a ≤ mag b := by
  rw [abs_toRat, abs_toRat, div_le_div_iff_of_pos_right (by positivity), Nat.cast_le, quanta_le]

/-- Two patterns of one value differ at most in the sign of a zero. -/
theorem mag_eq_of_toRat_eq {a b : Word} (h : toRat a = toRat b) : mag a = mag b := by
  have h1 := (abs_toRat_le a b).mp (by rw [h])
  have h2 := (abs_toRat_le b a).mp (by rw [h])
  omega

/-! ## Comparisons (R5) -/

theorem lt_iff {a b : Word} (ha : isNaN a = false) (hb : isNaN b = false) :
    lt a b = true ↔ toRat a < toRat b := by
  simp [lt, ha, hb, key_lt_key, scaled_lt_scaled]

theorem le_iff {a b : Word} (ha : isNaN a = false) (hb : isNaN b = false) :
    le a b = true ↔ toRat a ≤ toRat b := by
  simp [le, ha, hb, key_le_key, scaled_le_scaled]

theorem lt_nan_left {a : Word} (b : Word) (h : isNaN a = true) : lt a b = false := by simp [lt, h]
theorem lt_nan_right (a : Word) {b : Word} (h : isNaN b = true) : lt a b = false := by simp [lt, h]
theorem le_nan_left {a : Word} (b : Word) (h : isNaN a = true) : le a b = false := by simp [le, h]
theorem le_nan_right (a : Word) {b : Word} (h : isNaN b = true) : le a b = false := by simp [le, h]

/-! ## NaN results (R6) -/

/-- A result pattern of `Config.nanOf` is a NaN. -/
theorem isNaN_nanOf (w : Word) : isNaN (Config.nanOf w) = true := by
  have hlt : mag w % (2 ^ 52 - 1) < 2 ^ 52 - 1 := Nat.mod_lt _ (by norm_num)
  have hb : infMag + 1 + mag w % (2 ^ 52 - 1) < 2 ^ 63 := by
    unfold infMag; omega
  rw [isNaN_iff, Config.nanOf, mag_pack _ hb]
  omega

/-- Every NaN pattern is one that `Config.nanOf` gives. -/
theorem exists_nanOf {u : Word} (h : isNaN u = true) : ∃ w, Config.nanOf w = u := by
  rw [isNaN_iff] at h
  have hu := mag_lt u
  have hb : mag u - infMag - 1 < 2 ^ 63 := by omega
  refine ⟨pack (sign u) (mag u - infMag - 1), ?_⟩
  have hmod : (mag u - infMag - 1) % (2 ^ 52 - 1) = mag u - infMag - 1 := by
    apply Nat.mod_eq_of_lt
    unfold infMag at *
    omega
  rw [Config.nanOf, sign_pack _ hb, mag_pack _ hb, hmod,
    show infMag + 1 + (mag u - infMag - 1) = mag u by omega, pack_sign_mag]

/-- The NaN patterns of the block's open values are NaNs. -/
theorem isNaN_openValues_nan (t k : Nat) : isNaN (Config.openValues.nan t k) = true :=
  isNaN_nanOf _

end Sys2Proof.F64
end

