-- ==== Sys2Proof/Laws/Arith.lean ====
section
/-! SUPPORT. The laws of binary64 arithmetic (00_scope.md R3, R6): each finite case is one rounding of the
exact result, and rounding rises with the value. -/

namespace Sys2Proof.F64

open Sys2Proof.Machine

/-! ## One rounding -/

/-- The number of quanta that `overflowBound` is. -/
theorem overflowBound_eq : overflowBound = ((2 ^ 54 - 1) * 2 ^ 2044 : ℚ) / 2 ^ 1074 := by
  rw [overflowBound, eq_div_iff (by positivity), sub_mul, sub_mul, ← pow_add, ← pow_add, ← pow_add]
  ring

/-- The unit of the quanta, as a variable: no proof below needs its value. -/
theorem exists_unit : ∃ P : ℚ, 0 < P ∧ P = 2 ^ 1074 := ⟨2 ^ 1074, by positivity, rfl⟩

/-- Rounding a fraction of quanta and packing it with a sign is the correct rounding of that value. -/
theorem isRounded_pack (s : Bool) (n d : Nat) (hd : 0 < d) :
    IsRounded ((if s then -1 else 1) * (((n : ℚ) / d) / 2 ^ 1074)) (pack s (roundMag n d)) := by
  have hdq : (0 : ℚ) < d := by exact_mod_cast hd
  have hlt := roundMag_lt n d
  have hval := toRat_eq
  have hbound := overflowBound_eq
  have hinf : ((2 ^ 54 - 1) * 2 ^ 2044 * d ≤ n) ↔ infMag ≤ rawMag n d :=
    (infMag_le_rawMag_iff n d hd).symm
  obtain ⟨P, hP, hPe⟩ := exists_unit
  obtain ⟨K, hK⟩ : ∃ K : ℕ, K = (2 ^ 54 - 1) * 2 ^ 2044 := ⟨_, rfl⟩
  have hKq : ((2 ^ 54 - 1) * 2 ^ 2044 : ℚ) = (K : ℚ) := by
    rw [hK, Nat.cast_mul, Nat.cast_sub (by norm_num), Nat.cast_pow, Nat.cast_pow]; norm_num
  rw [hKq] at hbound
  rw [← hK] at hinf
  rw [← hPe] at hbound ⊢
  simp only [← hPe] at hval
  clear hPe hK hKq
  set X : ℚ := (n : ℚ) / d with hX
  have hX0 : 0 ≤ X := by rw [hX]; positivity
  obtain ⟨c, hc⟩ : ∃ c : ℚ, c = if s then -1 else 1 := ⟨_, rfl⟩
  rw [← hc]
  have hc1 : |c| = 1 := by rw [hc]; cases s <;> simp
  have habs : |c * (X / P)| = X / P := by
    rw [abs_mul, hc1, one_mul, abs_of_nonneg (div_nonneg hX0 hP.le)]
  have hw : toRat (pack s (roundMag n d)) = c * ((quanta (roundMag n d) : ℚ) / P) := by
    rw [hval, sign_pack s hlt, mag_pack s hlt, hc]
  refine ⟨fun hx => ?_, ?_⟩
  · rw [sign_pack s hlt]
    have hXpos : 0 < X := by
      rcases eq_or_lt_of_le hX0 with h | h
      · exact absurd (by rw [← h]; simp) hx
      · exact h
    have hq : 0 < X / P := div_pos hXpos hP
    cases s
    · have h1 : c = 1 := hc
      rw [h1, one_mul]
      exact (decide_eq_false (not_lt.mpr hq.le)).symm
    · have h1 : c = -1 := hc
      rw [h1]
      exact (decide_eq_true (by linarith)).symm
  · rw [habs]
    have hover : overflowBound ≤ X / P ↔ infMag ≤ rawMag n d := by
      rw [← hinf, hbound, div_le_div_iff_of_pos_right hP, hX, le_div_iff₀ hdq]
      exact_mod_cast Iff.rfl
    by_cases ho : infMag ≤ rawMag n d
    · rw [if_pos (hover.mpr ho), isInf_iff, mag_pack s hlt, roundMag_eq, min_eq_right ho]
    · have hraw : roundMag n d = rawMag n d := by
        rw [roundMag_eq, min_eq_left (by omega)]
      rw [if_neg (fun h => ho (hover.mp h))]
      rw [hraw] at hw hlt ⊢
      refine ⟨by rw [isFinite_iff, mag_pack s hlt]; omega, fun u hu => ?_⟩
      obtain ⟨n1, n2⟩ := rawMag_nearest n d hd (mag u)
      obtain ⟨z1, z2⟩ := rawMag_nearest n d hd 0
      rw [← hX] at n1 n2 z1 z2
      rw [quanta_zero, Nat.cast_zero, sub_zero, abs_of_nonneg hX0] at z1 z2
      have hdw : |toRat (pack s (rawMag n d)) - c * (X / P)| = |X - quanta (rawMag n d)| / P := by
        rw [hw, ← mul_sub, abs_mul, hc1, one_mul, ← sub_div, abs_div, abs_sub_comm, abs_of_pos hP]
      rw [hdw, mag_pack s hlt]
      by_cases hs : sign u = s
      · have hu' : toRat u = c * ((quanta (mag u) : ℚ) / P) := by rw [hval, hs, hc]
        have hdu : |toRat u - c * (X / P)| = |X - quanta (mag u)| / P := by
          rw [hu', ← mul_sub, abs_mul, hc1, one_mul, ← sub_div, abs_div, abs_sub_comm, abs_of_pos hP]
        rw [hdu, div_le_div_iff_of_pos_right hP]
        refine ⟨n1, fun heq hne => n2 ((div_left_inj' hP.ne').mp heq) fun h => hne ?_⟩
        rw [hw, hu', h]
      · have hu' : toRat u = -c * ((quanta (mag u) : ℚ) / P) := by
          rw [hval, hc]
          congr 1
          cases s <;> cases h : sign u <;> simp_all
        have hdu : |toRat u - c * (X / P)| = (X + quanta (mag u)) / P := by
          rw [hu', show -c * ((quanta (mag u) : ℚ) / P) - c * (X / P)
            = -c * ((X + quanta (mag u)) / P) by ring, abs_mul, abs_neg, hc1, one_mul,
            abs_of_nonneg (div_nonneg (add_nonneg hX0 (Nat.cast_nonneg _)) hP.le)]
        have hq0 : (0 : ℚ) ≤ quanta (mag u) := Nat.cast_nonneg _
        rw [hdu, div_le_div_iff_of_pos_right hP]
        refine ⟨by linarith, fun heq hne => ?_⟩
        have heq' := (div_left_inj' hP.ne').mp heq
        have hz : (quanta (mag u) : ℚ) = 0 := by linarith
        refine z2 (by linarith) fun h => hne ?_
        rw [hw, hu', hz, ← h, quanta_zero]
        simp

/-- The largest finite value is below the bound of overflow. -/
theorem abs_toRat_lt_overflowBound {w : Word} (hw : isFinite w = true) : |toRat w| < overflowBound := by
  rw [abs_toRat, overflowBound_eq, div_lt_div_iff_of_pos_right (by positivity)]
  rw [isFinite_iff] at hw
  have h1 : ¬ infMag ≤ rawMag (quanta (mag w)) 1 := by
    have := rawMag_exact (mag w) 1 (by norm_num)
    rw [Nat.mul_one] at this
    rw [this]; omega
  rw [infMag_le_rawMag_iff _ 1 (by norm_num), not_le, Nat.mul_one] at h1
  have h2 : (quanta (mag w) : ℚ) < (((2 ^ 54 - 1) * 2 ^ 2044 : Nat) : ℚ) := Nat.cast_lt.mpr h1
  rwa [Nat.cast_mul, Nat.cast_sub (by norm_num), Nat.cast_pow, Nat.cast_pow, Nat.cast_one,
    Nat.cast_ofNat] at h2

theorem sign_of_toRat {w : Word} (h : toRat w ≠ 0) : sign w = decide (toRat w < 0) := by
  have hq : 0 < |toRat w| := abs_pos.mpr h
  rw [abs_toRat] at hq
  rw [toRat_eq]
  revert hq
  generalize (quanta (mag w) : ℚ) / 2 ^ 1074 = q
  intro hq
  cases sign w
  · simp [hq.le]
  · simp [hq]

/-- A finite value is its own rounding. -/
theorem isRounded_self {w : Word} (hw : isFinite w = true) : IsRounded (toRat w) w := by
  refine ⟨sign_of_toRat, ?_⟩
  rw [if_neg (not_le.mpr (abs_toRat_lt_overflowBound hw))]
  refine ⟨hw, fun u _ => ⟨by simp, fun heq hne => ?_⟩⟩
  simp only [sub_self, abs_zero] at heq
  exact absurd (sub_eq_zero.mp (abs_eq_zero.mp heq.symm)) hne

/-! ## The operations on finite values -/

/-- The sum of finite values is `addFinite`. -/
theorem add_finite {a b : Word} (nan : Word) (ha : isFinite a = true) (hb : isFinite b = true) :
    add nan a b = addFinite a b := by
  simp [add, isNaN_false_of_isFinite ha, isNaN_false_of_isFinite hb, isInf_false_of_isFinite ha,
    isInf_false_of_isFinite hb]

theorem mul_finite {a b : Word} (nan : Word) (ha : isFinite a = true) (hb : isFinite b = true) :
    mul nan a b = pack (sign a != sign b) (roundMag (quanta (mag a) * quanta (mag b)) quantaOne) := by
  simp [mul, isNaN_false_of_isFinite ha, isNaN_false_of_isFinite hb, isInf_false_of_isFinite ha,
    isInf_false_of_isFinite hb]

theorem div_finite {a b : Word} (nan : Word) (ha : isFinite a = true) (hb : isFinite b = true)
    (h0 : isZero b = false) :
    div nan a b = pack (sign a != sign b) (roundMag (quanta (mag a) * quantaOne) (quanta (mag b))) := by
  simp [div, isNaN_false_of_isFinite ha, isNaN_false_of_isFinite hb, isInf_false_of_isFinite ha,
    isInf_false_of_isFinite hb, h0]

theorem quantaOne_pos : 0 < quantaOne := Nat.two_pow_pos 1074

theorem scaled_cast (w : Word) : (scaled w : ℚ) = toRat w * 2 ^ 1074 := by
  rw [toRat, div_mul_cancel₀ _ (by positivity)]

/-- A sum that is not zero is packed with its sign. -/
theorem addFinite_of_ne {a b : Word} (h : scaled a + scaled b ≠ 0) :
    addFinite a b =
      pack (decide (scaled a + scaled b < 0)) (roundMag (scaled a + scaled b).natAbs 1) := by
  simp [addFinite, h]

theorem addFinite_of_eq {a b : Word} (h : scaled a + scaled b = 0) :
    addFinite a b = pack (sign a && sign b) 0 := by simp [addFinite, h]

theorem isNaN_addFinite (a b : Word) : isNaN (addFinite a b) = false := by
  by_cases h : scaled a + scaled b = 0
  · rw [addFinite_of_eq h]
    simp [isNaN, mag_pack _ (show 0 < 2 ^ 63 by norm_num)]
  · rw [addFinite_of_ne h]
    exact isNaN_pack_roundMag _ _ _

/-- The magnitude of a sum is the rounding of the exact magnitude. -/
theorem mag_addFinite (a b : Word) :
    mag (addFinite a b) = roundMag (scaled a + scaled b).natAbs 1 := by
  by_cases h : scaled a + scaled b = 0
  · rw [addFinite_of_eq h, mag_pack _ (show 0 < 2 ^ 63 by norm_num), h]
    simp
  · rw [addFinite_of_ne h, mag_pack _ (roundMag_lt _ _)]

end Sys2Proof.F64
end

