-- ==== Sys2Proof/Laws/State.lean ====
section
/-! SUPPORT. One lemma per field per update of the state, and the accessors after an update. -/

namespace Sys2Proof.Machine

section
variable (v : Word) (s : State)
@[simp] theorem State.setStatus_status : (s.setStatus v).status = v := rfl
@[simp] theorem State.setStatus_sampleRate : (s.setStatus v).sampleRate = s.sampleRate := rfl
@[simp] theorem State.setStatus_arg0 : (s.setStatus v).arg0 = s.arg0 := rfl
@[simp] theorem State.setStatus_result0 : (s.setStatus v).result0 = s.result0 := rfl
@[simp] theorem State.setStatus_mixOut : (s.setStatus v).mixOut = s.mixOut := rfl
@[simp] theorem State.setStatus_bufBase : (s.setStatus v).bufBase = s.bufBase := rfl
@[simp] theorem State.setStatus_bufCount : (s.setStatus v).bufCount = s.bufCount := rfl
@[simp] theorem State.setStatus_osc1 : (s.setStatus v).osc1 = s.osc1 := rfl
@[simp] theorem State.setStatus_osc2 : (s.setStatus v).osc2 = s.osc2 := rfl
@[simp] theorem State.setStatus_lfo : (s.setStatus v).lfo = s.lfo := rfl
@[simp] theorem State.setStatus_buffer : (s.setStatus v).buffer = s.buffer := rfl
@[simp] theorem State.setStatus_pending : (s.setStatus v).pending = s.pending := rfl
@[simp] theorem State.setStatus_reply : (s.setStatus v).reply = s.reply := rfl
@[simp] theorem State.setStatus_draws : (s.setStatus v).draws = s.draws := rfl
@[simp] theorem State.setStatus_bufLen : (s.setStatus v).bufLen = s.bufLen := rfl
@[simp] theorem State.setStatus_oscRec (i : Osc) : (s.setStatus v).oscRec i = s.oscRec i := by cases i <;> rfl
end

section
variable (v : Word) (s : State)
@[simp] theorem State.setSampleRate_status : (s.setSampleRate v).status = s.status := rfl
@[simp] theorem State.setSampleRate_sampleRate : (s.setSampleRate v).sampleRate = v := rfl
@[simp] theorem State.setSampleRate_arg0 : (s.setSampleRate v).arg0 = s.arg0 := rfl
@[simp] theorem State.setSampleRate_result0 : (s.setSampleRate v).result0 = s.result0 := rfl
@[simp] theorem State.setSampleRate_mixOut : (s.setSampleRate v).mixOut = s.mixOut := rfl
@[simp] theorem State.setSampleRate_bufBase : (s.setSampleRate v).bufBase = s.bufBase := rfl
@[simp] theorem State.setSampleRate_bufCount : (s.setSampleRate v).bufCount = s.bufCount := rfl
@[simp] theorem State.setSampleRate_osc1 : (s.setSampleRate v).osc1 = s.osc1 := rfl
@[simp] theorem State.setSampleRate_osc2 : (s.setSampleRate v).osc2 = s.osc2 := rfl
@[simp] theorem State.setSampleRate_lfo : (s.setSampleRate v).lfo = s.lfo := rfl
@[simp] theorem State.setSampleRate_buffer : (s.setSampleRate v).buffer = s.buffer := rfl
@[simp] theorem State.setSampleRate_pending : (s.setSampleRate v).pending = s.pending := rfl
@[simp] theorem State.setSampleRate_reply : (s.setSampleRate v).reply = s.reply := rfl
@[simp] theorem State.setSampleRate_draws : (s.setSampleRate v).draws = s.draws := rfl
@[simp] theorem State.setSampleRate_bufLen : (s.setSampleRate v).bufLen = s.bufLen := rfl
@[simp] theorem State.setSampleRate_flag (b : StatusBit) : (s.setSampleRate v).flag b = s.flag b := rfl
@[simp] theorem State.setSampleRate_oscRec (i : Osc) : (s.setSampleRate v).oscRec i = s.oscRec i := by cases i <;> rfl
end

section
variable (v : Word) (s : State)
@[simp] theorem State.setArg0_status : (s.setArg0 v).status = s.status := rfl
@[simp] theorem State.setArg0_sampleRate : (s.setArg0 v).sampleRate = s.sampleRate := rfl
@[simp] theorem State.setArg0_arg0 : (s.setArg0 v).arg0 = v := rfl
@[simp] theorem State.setArg0_result0 : (s.setArg0 v).result0 = s.result0 := rfl
@[simp] theorem State.setArg0_mixOut : (s.setArg0 v).mixOut = s.mixOut := rfl
@[simp] theorem State.setArg0_bufBase : (s.setArg0 v).bufBase = s.bufBase := rfl
@[simp] theorem State.setArg0_bufCount : (s.setArg0 v).bufCount = s.bufCount := rfl
@[simp] theorem State.setArg0_osc1 : (s.setArg0 v).osc1 = s.osc1 := rfl
@[simp] theorem State.setArg0_osc2 : (s.setArg0 v).osc2 = s.osc2 := rfl
@[simp] theorem State.setArg0_lfo : (s.setArg0 v).lfo = s.lfo := rfl
@[simp] theorem State.setArg0_buffer : (s.setArg0 v).buffer = s.buffer := rfl
@[simp] theorem State.setArg0_pending : (s.setArg0 v).pending = s.pending := rfl
@[simp] theorem State.setArg0_reply : (s.setArg0 v).reply = s.reply := rfl
@[simp] theorem State.setArg0_draws : (s.setArg0 v).draws = s.draws := rfl
@[simp] theorem State.setArg0_bufLen : (s.setArg0 v).bufLen = s.bufLen := rfl
@[simp] theorem State.setArg0_flag (b : StatusBit) : (s.setArg0 v).flag b = s.flag b := rfl
@[simp] theorem State.setArg0_oscRec (i : Osc) : (s.setArg0 v).oscRec i = s.oscRec i := by cases i <;> rfl
end

section
variable (v : Word) (s : State)
@[simp] theorem State.setResult0_status : (s.setResult0 v).status = s.status := rfl
@[simp] theorem State.setResult0_sampleRate : (s.setResult0 v).sampleRate = s.sampleRate := rfl
@[simp] theorem State.setResult0_arg0 : (s.setResult0 v).arg0 = s.arg0 := rfl
@[simp] theorem State.setResult0_result0 : (s.setResult0 v).result0 = v := rfl
@[simp] theorem State.setResult0_mixOut : (s.setResult0 v).mixOut = s.mixOut := rfl
@[simp] theorem State.setResult0_bufBase : (s.setResult0 v).bufBase = s.bufBase := rfl
@[simp] theorem State.setResult0_bufCount : (s.setResult0 v).bufCount = s.bufCount := rfl
@[simp] theorem State.setResult0_osc1 : (s.setResult0 v).osc1 = s.osc1 := rfl
@[simp] theorem State.setResult0_osc2 : (s.setResult0 v).osc2 = s.osc2 := rfl
@[simp] theorem State.setResult0_lfo : (s.setResult0 v).lfo = s.lfo := rfl
@[simp] theorem State.setResult0_buffer : (s.setResult0 v).buffer = s.buffer := rfl
@[simp] theorem State.setResult0_pending : (s.setResult0 v).pending = s.pending := rfl
@[simp] theorem State.setResult0_reply : (s.setResult0 v).reply = s.reply := rfl
@[simp] theorem State.setResult0_draws : (s.setResult0 v).draws = s.draws := rfl
@[simp] theorem State.setResult0_bufLen : (s.setResult0 v).bufLen = s.bufLen := rfl
@[simp] theorem State.setResult0_flag (b : StatusBit) : (s.setResult0 v).flag b = s.flag b := rfl
@[simp] theorem State.setResult0_oscRec (i : Osc) : (s.setResult0 v).oscRec i = s.oscRec i := by cases i <;> rfl
end

section
variable (v : Word) (s : State)
@[simp] theorem State.setMixOut_status : (s.setMixOut v).status = s.status := rfl
@[simp] theorem State.setMixOut_sampleRate : (s.setMixOut v).sampleRate = s.sampleRate := rfl
@[simp] theorem State.setMixOut_arg0 : (s.setMixOut v).arg0 = s.arg0 := rfl
@[simp] theorem State.setMixOut_result0 : (s.setMixOut v).result0 = s.result0 := rfl
@[simp] theorem State.setMixOut_mixOut : (s.setMixOut v).mixOut = v := rfl
@[simp] theorem State.setMixOut_bufBase : (s.setMixOut v).bufBase = s.bufBase := rfl
@[simp] theorem State.setMixOut_bufCount : (s.setMixOut v).bufCount = s.bufCount := rfl
@[simp] theorem State.setMixOut_osc1 : (s.setMixOut v).osc1 = s.osc1 := rfl
@[simp] theorem State.setMixOut_osc2 : (s.setMixOut v).osc2 = s.osc2 := rfl
@[simp] theorem State.setMixOut_lfo : (s.setMixOut v).lfo = s.lfo := rfl
@[simp] theorem State.setMixOut_buffer : (s.setMixOut v).buffer = s.buffer := rfl
@[simp] theorem State.setMixOut_pending : (s.setMixOut v).pending = s.pending := rfl
@[simp] theorem State.setMixOut_reply : (s.setMixOut v).reply = s.reply := rfl
@[simp] theorem State.setMixOut_draws : (s.setMixOut v).draws = s.draws := rfl
@[simp] theorem State.setMixOut_bufLen : (s.setMixOut v).bufLen = s.bufLen := rfl
@[simp] theorem State.setMixOut_flag (b : StatusBit) : (s.setMixOut v).flag b = s.flag b := rfl
@[simp] theorem State.setMixOut_oscRec (i : Osc) : (s.setMixOut v).oscRec i = s.oscRec i := by cases i <;> rfl
end

section
variable (v : Word) (s : State)
@[simp] theorem State.setBufBase_status : (s.setBufBase v).status = s.status := rfl
@[simp] theorem State.setBufBase_sampleRate : (s.setBufBase v).sampleRate = s.sampleRate := rfl
@[simp] theorem State.setBufBase_arg0 : (s.setBufBase v).arg0 = s.arg0 := rfl
@[simp] theorem State.setBufBase_result0 : (s.setBufBase v).result0 = s.result0 := rfl
@[simp] theorem State.setBufBase_mixOut : (s.setBufBase v).mixOut = s.mixOut := rfl
@[simp] theorem State.setBufBase_bufBase : (s.setBufBase v).bufBase = v := rfl
@[simp] theorem State.setBufBase_bufCount : (s.setBufBase v).bufCount = s.bufCount := rfl
@[simp] theorem State.setBufBase_osc1 : (s.setBufBase v).osc1 = s.osc1 := rfl
@[simp] theorem State.setBufBase_osc2 : (s.setBufBase v).osc2 = s.osc2 := rfl
@[simp] theorem State.setBufBase_lfo : (s.setBufBase v).lfo = s.lfo := rfl
@[simp] theorem State.setBufBase_buffer : (s.setBufBase v).buffer = s.buffer := rfl
@[simp] theorem State.setBufBase_pending : (s.setBufBase v).pending = s.pending := rfl
@[simp] theorem State.setBufBase_reply : (s.setBufBase v).reply = s.reply := rfl
@[simp] theorem State.setBufBase_draws : (s.setBufBase v).draws = s.draws := rfl
@[simp] theorem State.setBufBase_bufLen : (s.setBufBase v).bufLen = s.bufLen := rfl
@[simp] theorem State.setBufBase_flag (b : StatusBit) : (s.setBufBase v).flag b = s.flag b := rfl
@[simp] theorem State.setBufBase_oscRec (i : Osc) : (s.setBufBase v).oscRec i = s.oscRec i := by cases i <;> rfl
end

section
variable (v : Word) (s : State)
@[simp] theorem State.setBufCount_status : (s.setBufCount v).status = s.status := rfl
@[simp] theorem State.setBufCount_sampleRate : (s.setBufCount v).sampleRate = s.sampleRate := rfl
@[simp] theorem State.setBufCount_arg0 : (s.setBufCount v).arg0 = s.arg0 := rfl
@[simp] theorem State.setBufCount_result0 : (s.setBufCount v).result0 = s.result0 := rfl
@[simp] theorem State.setBufCount_mixOut : (s.setBufCount v).mixOut = s.mixOut := rfl
@[simp] theorem State.setBufCount_bufBase : (s.setBufCount v).bufBase = s.bufBase := rfl
@[simp] theorem State.setBufCount_bufCount : (s.setBufCount v).bufCount = v := rfl
@[simp] theorem State.setBufCount_osc1 : (s.setBufCount v).osc1 = s.osc1 := rfl
@[simp] theorem State.setBufCount_osc2 : (s.setBufCount v).osc2 = s.osc2 := rfl
@[simp] theorem State.setBufCount_lfo : (s.setBufCount v).lfo = s.lfo := rfl
@[simp] theorem State.setBufCount_buffer : (s.setBufCount v).buffer = s.buffer := rfl
@[simp] theorem State.setBufCount_pending : (s.setBufCount v).pending = s.pending := rfl
@[simp] theorem State.setBufCount_reply : (s.setBufCount v).reply = s.reply := rfl
@[simp] theorem State.setBufCount_draws : (s.setBufCount v).draws = s.draws := rfl
@[simp] theorem State.setBufCount_bufLen : (s.setBufCount v).bufLen = s.bufLen := rfl
@[simp] theorem State.setBufCount_flag (b : StatusBit) : (s.setBufCount v).flag b = s.flag b := rfl
@[simp] theorem State.setBufCount_oscRec (i : Osc) : (s.setBufCount v).oscRec i = s.oscRec i := by cases i <;> rfl
end

section
variable (v : OscRec) (s : State)
@[simp] theorem State.setOsc1_status : (s.setOsc1 v).status = s.status := rfl
@[simp] theorem State.setOsc1_sampleRate : (s.setOsc1 v).sampleRate = s.sampleRate := rfl
@[simp] theorem State.setOsc1_arg0 : (s.setOsc1 v).arg0 = s.arg0 := rfl
@[simp] theorem State.setOsc1_result0 : (s.setOsc1 v).result0 = s.result0 := rfl
@[simp] theorem State.setOsc1_mixOut : (s.setOsc1 v).mixOut = s.mixOut := rfl
@[simp] theorem State.setOsc1_bufBase : (s.setOsc1 v).bufBase = s.bufBase := rfl
@[simp] theorem State.setOsc1_bufCount : (s.setOsc1 v).bufCount = s.bufCount := rfl
@[simp] theorem State.setOsc1_osc1 : (s.setOsc1 v).osc1 = v := rfl
@[simp] theorem State.setOsc1_osc2 : (s.setOsc1 v).osc2 = s.osc2 := rfl
@[simp] theorem State.setOsc1_lfo : (s.setOsc1 v).lfo = s.lfo := rfl
@[simp] theorem State.setOsc1_buffer : (s.setOsc1 v).buffer = s.buffer := rfl
@[simp] theorem State.setOsc1_pending : (s.setOsc1 v).pending = s.pending := rfl
@[simp] theorem State.setOsc1_reply : (s.setOsc1 v).reply = s.reply := rfl
@[simp] theorem State.setOsc1_draws : (s.setOsc1 v).draws = s.draws := rfl
@[simp] theorem State.setOsc1_bufLen : (s.setOsc1 v).bufLen = s.bufLen := rfl
@[simp] theorem State.setOsc1_flag (b : StatusBit) : (s.setOsc1 v).flag b = s.flag b := rfl
end

section
variable (v : OscRec) (s : State)
@[simp] theorem State.setOsc2_status : (s.setOsc2 v).status = s.status := rfl
@[simp] theorem State.setOsc2_sampleRate : (s.setOsc2 v).sampleRate = s.sampleRate := rfl
@[simp] theorem State.setOsc2_arg0 : (s.setOsc2 v).arg0 = s.arg0 := rfl
@[simp] theorem State.setOsc2_result0 : (s.setOsc2 v).result0 = s.result0 := rfl
@[simp] theorem State.setOsc2_mixOut : (s.setOsc2 v).mixOut = s.mixOut := rfl
@[simp] theorem State.setOsc2_bufBase : (s.setOsc2 v).bufBase = s.bufBase := rfl
@[simp] theorem State.setOsc2_bufCount : (s.setOsc2 v).bufCount = s.bufCount := rfl
@[simp] theorem State.setOsc2_osc1 : (s.setOsc2 v).osc1 = s.osc1 := rfl
@[simp] theorem State.setOsc2_osc2 : (s.setOsc2 v).osc2 = v := rfl
@[simp] theorem State.setOsc2_lfo : (s.setOsc2 v).lfo = s.lfo := rfl
@[simp] theorem State.setOsc2_buffer : (s.setOsc2 v).buffer = s.buffer := rfl
@[simp] theorem State.setOsc2_pending : (s.setOsc2 v).pending = s.pending := rfl
@[simp] theorem State.setOsc2_reply : (s.setOsc2 v).reply = s.reply := rfl
@[simp] theorem State.setOsc2_draws : (s.setOsc2 v).draws = s.draws := rfl
@[simp] theorem State.setOsc2_bufLen : (s.setOsc2 v).bufLen = s.bufLen := rfl
@[simp] theorem State.setOsc2_flag (b : StatusBit) : (s.setOsc2 v).flag b = s.flag b := rfl
end

section
variable (v : OscRec) (s : State)
@[simp] theorem State.setLfo_status : (s.setLfo v).status = s.status := rfl
@[simp] theorem State.setLfo_sampleRate : (s.setLfo v).sampleRate = s.sampleRate := rfl
@[simp] theorem State.setLfo_arg0 : (s.setLfo v).arg0 = s.arg0 := rfl
@[simp] theorem State.setLfo_result0 : (s.setLfo v).result0 = s.result0 := rfl
@[simp] theorem State.setLfo_mixOut : (s.setLfo v).mixOut = s.mixOut := rfl
@[simp] theorem State.setLfo_bufBase : (s.setLfo v).bufBase = s.bufBase := rfl
@[simp] theorem State.setLfo_bufCount : (s.setLfo v).bufCount = s.bufCount := rfl
@[simp] theorem State.setLfo_osc1 : (s.setLfo v).osc1 = s.osc1 := rfl
@[simp] theorem State.setLfo_osc2 : (s.setLfo v).osc2 = s.osc2 := rfl
@[simp] theorem State.setLfo_lfo : (s.setLfo v).lfo = v := rfl
@[simp] theorem State.setLfo_buffer : (s.setLfo v).buffer = s.buffer := rfl
@[simp] theorem State.setLfo_pending : (s.setLfo v).pending = s.pending := rfl
@[simp] theorem State.setLfo_reply : (s.setLfo v).reply = s.reply := rfl
@[simp] theorem State.setLfo_draws : (s.setLfo v).draws = s.draws := rfl
@[simp] theorem State.setLfo_bufLen : (s.setLfo v).bufLen = s.bufLen := rfl
@[simp] theorem State.setLfo_flag (b : StatusBit) : (s.setLfo v).flag b = s.flag b := rfl
end

section
variable (v : Memory) (s : State)
@[simp] theorem State.setBuffer_status : (s.setBuffer v).status = s.status := rfl
@[simp] theorem State.setBuffer_sampleRate : (s.setBuffer v).sampleRate = s.sampleRate := rfl
@[simp] theorem State.setBuffer_arg0 : (s.setBuffer v).arg0 = s.arg0 := rfl
@[simp] theorem State.setBuffer_result0 : (s.setBuffer v).result0 = s.result0 := rfl
@[simp] theorem State.setBuffer_mixOut : (s.setBuffer v).mixOut = s.mixOut := rfl
@[simp] theorem State.setBuffer_bufBase : (s.setBuffer v).bufBase = s.bufBase := rfl
@[simp] theorem State.setBuffer_bufCount : (s.setBuffer v).bufCount = s.bufCount := rfl
@[simp] theorem State.setBuffer_osc1 : (s.setBuffer v).osc1 = s.osc1 := rfl
@[simp] theorem State.setBuffer_osc2 : (s.setBuffer v).osc2 = s.osc2 := rfl
@[simp] theorem State.setBuffer_lfo : (s.setBuffer v).lfo = s.lfo := rfl
@[simp] theorem State.setBuffer_buffer : (s.setBuffer v).buffer = v := rfl
@[simp] theorem State.setBuffer_pending : (s.setBuffer v).pending = s.pending := rfl
@[simp] theorem State.setBuffer_reply : (s.setBuffer v).reply = s.reply := rfl
@[simp] theorem State.setBuffer_draws : (s.setBuffer v).draws = s.draws := rfl
@[simp] theorem State.setBuffer_bufLen : (s.setBuffer v).bufLen = s.bufLen := rfl
@[simp] theorem State.setBuffer_flag (b : StatusBit) : (s.setBuffer v).flag b = s.flag b := rfl
@[simp] theorem State.setBuffer_oscRec (i : Osc) : (s.setBuffer v).oscRec i = s.oscRec i := by cases i <;> rfl
end

section
variable (v : List HostOp) (s : State)
@[simp] theorem State.setPending_status : (s.setPending v).status = s.status := rfl
@[simp] theorem State.setPending_sampleRate : (s.setPending v).sampleRate = s.sampleRate := rfl
@[simp] theorem State.setPending_arg0 : (s.setPending v).arg0 = s.arg0 := rfl
@[simp] theorem State.setPending_result0 : (s.setPending v).result0 = s.result0 := rfl
@[simp] theorem State.setPending_mixOut : (s.setPending v).mixOut = s.mixOut := rfl
@[simp] theorem State.setPending_bufBase : (s.setPending v).bufBase = s.bufBase := rfl
@[simp] theorem State.setPending_bufCount : (s.setPending v).bufCount = s.bufCount := rfl
@[simp] theorem State.setPending_osc1 : (s.setPending v).osc1 = s.osc1 := rfl
@[simp] theorem State.setPending_osc2 : (s.setPending v).osc2 = s.osc2 := rfl
@[simp] theorem State.setPending_lfo : (s.setPending v).lfo = s.lfo := rfl
@[simp] theorem State.setPending_buffer : (s.setPending v).buffer = s.buffer := rfl
@[simp] theorem State.setPending_pending : (s.setPending v).pending = v := rfl
@[simp] theorem State.setPending_reply : (s.setPending v).reply = s.reply := rfl
@[simp] theorem State.setPending_draws : (s.setPending v).draws = s.draws := rfl
@[simp] theorem State.setPending_bufLen : (s.setPending v).bufLen = s.bufLen := rfl
@[simp] theorem State.setPending_flag (b : StatusBit) : (s.setPending v).flag b = s.flag b := rfl
@[simp] theorem State.setPending_oscRec (i : Osc) : (s.setPending v).oscRec i = s.oscRec i := by cases i <;> rfl
end

section
variable (v : Option Word) (s : State)
@[simp] theorem State.setReply_status : (s.setReply v).status = s.status := rfl
@[simp] theorem State.setReply_sampleRate : (s.setReply v).sampleRate = s.sampleRate := rfl
@[simp] theorem State.setReply_arg0 : (s.setReply v).arg0 = s.arg0 := rfl
@[simp] theorem State.setReply_result0 : (s.setReply v).result0 = s.result0 := rfl
@[simp] theorem State.setReply_mixOut : (s.setReply v).mixOut = s.mixOut := rfl
@[simp] theorem State.setReply_bufBase : (s.setReply v).bufBase = s.bufBase := rfl
@[simp] theorem State.setReply_bufCount : (s.setReply v).bufCount = s.bufCount := rfl
@[simp] theorem State.setReply_osc1 : (s.setReply v).osc1 = s.osc1 := rfl
@[simp] theorem State.setReply_osc2 : (s.setReply v).osc2 = s.osc2 := rfl
@[simp] theorem State.setReply_lfo : (s.setReply v).lfo = s.lfo := rfl
@[simp] theorem State.setReply_buffer : (s.setReply v).buffer = s.buffer := rfl
@[simp] theorem State.setReply_pending : (s.setReply v).pending = s.pending := rfl
@[simp] theorem State.setReply_reply : (s.setReply v).reply = v := rfl
@[simp] theorem State.setReply_draws : (s.setReply v).draws = s.draws := rfl
@[simp] theorem State.setReply_bufLen : (s.setReply v).bufLen = s.bufLen := rfl
@[simp] theorem State.setReply_flag (b : StatusBit) : (s.setReply v).flag b = s.flag b := rfl
@[simp] theorem State.setReply_oscRec (i : Osc) : (s.setReply v).oscRec i = s.oscRec i := by cases i <;> rfl
end

section
variable (v : Nat) (s : State)
@[simp] theorem State.setDraws_status : (s.setDraws v).status = s.status := rfl
@[simp] theorem State.setDraws_sampleRate : (s.setDraws v).sampleRate = s.sampleRate := rfl
@[simp] theorem State.setDraws_arg0 : (s.setDraws v).arg0 = s.arg0 := rfl
@[simp] theorem State.setDraws_result0 : (s.setDraws v).result0 = s.result0 := rfl
@[simp] theorem State.setDraws_mixOut : (s.setDraws v).mixOut = s.mixOut := rfl
@[simp] theorem State.setDraws_bufBase : (s.setDraws v).bufBase = s.bufBase := rfl
@[simp] theorem State.setDraws_bufCount : (s.setDraws v).bufCount = s.bufCount := rfl
@[simp] theorem State.setDraws_osc1 : (s.setDraws v).osc1 = s.osc1 := rfl
@[simp] theorem State.setDraws_osc2 : (s.setDraws v).osc2 = s.osc2 := rfl
@[simp] theorem State.setDraws_lfo : (s.setDraws v).lfo = s.lfo := rfl
@[simp] theorem State.setDraws_buffer : (s.setDraws v).buffer = s.buffer := rfl
@[simp] theorem State.setDraws_pending : (s.setDraws v).pending = s.pending := rfl
@[simp] theorem State.setDraws_reply : (s.setDraws v).reply = s.reply := rfl
@[simp] theorem State.setDraws_draws : (s.setDraws v).draws = v := rfl
@[simp] theorem State.setDraws_bufLen : (s.setDraws v).bufLen = s.bufLen := rfl
@[simp] theorem State.setDraws_flag (b : StatusBit) : (s.setDraws v).flag b = s.flag b := rfl
@[simp] theorem State.setDraws_oscRec (i : Osc) : (s.setDraws v).oscRec i = s.oscRec i := by cases i <;> rfl
end

section
variable (s : State) (i j : Osc) (r : OscRec)

@[simp] theorem State.oscRec_osc1 : s.oscRec .osc1 = s.osc1 := rfl
@[simp] theorem State.oscRec_osc2 : s.oscRec .osc2 = s.osc2 := rfl
@[simp] theorem State.oscRec_lfo : s.oscRec .lfo = s.lfo := rfl
@[simp] theorem State.setOsc_osc1 : s.setOsc .osc1 r = s.setOsc1 r := rfl
@[simp] theorem State.setOsc_osc2 : s.setOsc .osc2 r = s.setOsc2 r := rfl
@[simp] theorem State.setOsc_lfo : s.setOsc .lfo r = s.setLfo r := rfl

/-- Replacing one record replaces that record alone (10_state.md R41). -/
theorem State.oscRec_setOsc : (s.setOsc i r).oscRec j = if j = i then r else s.oscRec j := by
  cases i <;> cases j <;> rfl

@[simp] theorem State.oscRec_setOsc_same : (s.setOsc i r).oscRec i = r := by cases i <;> rfl

@[simp] theorem State.setOsc_keeps_status : (s.setOsc i r).status = s.status := by cases i <;> rfl
@[simp] theorem State.setOsc_keeps_sampleRate : (s.setOsc i r).sampleRate = s.sampleRate := by cases i <;> rfl
@[simp] theorem State.setOsc_keeps_arg0 : (s.setOsc i r).arg0 = s.arg0 := by cases i <;> rfl
@[simp] theorem State.setOsc_keeps_result0 : (s.setOsc i r).result0 = s.result0 := by cases i <;> rfl
@[simp] theorem State.setOsc_keeps_mixOut : (s.setOsc i r).mixOut = s.mixOut := by cases i <;> rfl
@[simp] theorem State.setOsc_keeps_bufBase : (s.setOsc i r).bufBase = s.bufBase := by cases i <;> rfl
@[simp] theorem State.setOsc_keeps_bufCount : (s.setOsc i r).bufCount = s.bufCount := by cases i <;> rfl
@[simp] theorem State.setOsc_keeps_buffer : (s.setOsc i r).buffer = s.buffer := by cases i <;> rfl
@[simp] theorem State.setOsc_keeps_pending : (s.setOsc i r).pending = s.pending := by cases i <;> rfl
@[simp] theorem State.setOsc_keeps_reply : (s.setOsc i r).reply = s.reply := by cases i <;> rfl
@[simp] theorem State.setOsc_keeps_draws : (s.setOsc i r).draws = s.draws := by cases i <;> rfl
@[simp] theorem State.setOsc_keeps_bufLen : (s.setOsc i r).bufLen = s.bufLen := by cases i <;> rfl
@[simp] theorem State.setOsc_keeps_flag (b : StatusBit) : (s.setOsc i r).flag b = s.flag b := by
  cases i <;> rfl
end

section
variable (s : State)
@[simp] theorem State.tick_status : s.tick.status = s.status := rfl
@[simp] theorem State.tick_sampleRate : s.tick.sampleRate = s.sampleRate := rfl
@[simp] theorem State.tick_arg0 : s.tick.arg0 = s.arg0 := rfl
@[simp] theorem State.tick_result0 : s.tick.result0 = s.result0 := rfl
@[simp] theorem State.tick_mixOut : s.tick.mixOut = s.mixOut := rfl
@[simp] theorem State.tick_bufBase : s.tick.bufBase = s.bufBase := rfl
@[simp] theorem State.tick_bufCount : s.tick.bufCount = s.bufCount := rfl
@[simp] theorem State.tick_osc1 : s.tick.osc1 = s.osc1 := rfl
@[simp] theorem State.tick_osc2 : s.tick.osc2 = s.osc2 := rfl
@[simp] theorem State.tick_lfo : s.tick.lfo = s.lfo := rfl
@[simp] theorem State.tick_buffer : s.tick.buffer = s.buffer := rfl
@[simp] theorem State.tick_pending : s.tick.pending = s.pending := rfl
@[simp] theorem State.tick_reply : s.tick.reply = s.reply := rfl
@[simp] theorem State.tick_draws : s.tick.draws = (s.draws + 1) := rfl
@[simp] theorem State.tick_bufLen : s.tick.bufLen = s.bufLen := rfl
@[simp] theorem State.tick_flag (b : StatusBit) : s.tick.flag b = s.flag b := rfl
@[simp] theorem State.tick_oscRec (i : Osc) : s.tick.oscRec i = s.oscRec i := by cases i <;> rfl
end

/-- A field after a field update. -/
theorem OscRec.get_set (r : OscRec) (f g : Field) (v : Word) :
    (r.set f v).get g = if g = f then v else r.get g := by
  cases f <;> cases g <;> rfl

end Sys2Proof.Machine
end

