-- ==== Sys2Proof/Laws/Flags.lean ====
section
/-! SUPPORT. The laws of the STATUS bits (10_state.md R24). -/

namespace Sys2Proof.Machine

/-! The masks by number (10_state.md R24). -/

@[simp] theorem StatusBit.mask_configured : StatusBit.configured.mask = 0x01 := rfl
@[simp] theorem StatusBit.mask_errCmd : StatusBit.errCmd.mask = 0x02 := rfl
@[simp] theorem StatusBit.mask_errNotCfg : StatusBit.errNotCfg.mask = 0x04 := rfl
@[simp] theorem StatusBit.mask_errSr : StatusBit.errSr.mask = 0x08 := rfl
@[simp] theorem StatusBit.mask_errRange : StatusBit.errRange.mask = 0x10 := rfl
@[simp] theorem StatusBit.mask_errWr : StatusBit.errWr.mask = 0x20 := rfl
@[simp] theorem StatusBit.mask_exp2Oor : StatusBit.exp2Oor.mask = 0x40 := rfl

/-- Setting a bit sets that bit and leaves every other bit of `STATUS` alone. -/
theorem withBit_getLsbD (b : StatusBit) (w : Word) (n : Nat) :
    (withBit b w).getLsbD n = (w.getLsbD n || decide (n = b.pos)) := by
  have hb : b.pos < 64 := by cases b <;> decide
  rw [withBit, BitVec.getLsbD_or, StatusBit.mask, BitVec.getLsbD_shiftLeft, BitVec.getLsbD_one]
  congr 1
  by_cases h : n = b.pos
  · simp [h, hb]
  · have h' : ¬(n - b.pos = 0 ∧ b.pos ≤ n) := by omega
    simp only [h, decide_false]
    by_cases h2 : n < b.pos
    · simp [h2]
    · have : n - b.pos ≠ 0 := by omega
      simp [this]

theorem StatusBit.pos_injective (b c : StatusBit) : b.pos = c.pos ↔ b = c := by
  cases b <;> cases c <;> decide

/-- A flag after a bit is set. -/
@[simp] theorem State.setStatus_withBit_flag (s : State) (w : Word) (b c : StatusBit) :
    (s.setStatus (withBit b w)).flag c = (w.getLsbD c.pos || decide (c = b)) := by
  simp only [State.flag, State.setStatus_status, withBit_getLsbD, StatusBit.pos_injective]

/-- A flag after a bit is set where `x` says so. -/
theorem withBitIf_getLsbD (x : Bool) (b : StatusBit) (w : Word) (n : Nat) :
    (withBitIf x b w).getLsbD n = (w.getLsbD n || (x && decide (n = b.pos))) := by
  cases x <;> simp [withBitIf, withBit_getLsbD]

@[simp] theorem State.setStatus_withBitIf_flag (s : State) (w : Word) (x : Bool) (b c : StatusBit) :
    (s.setStatus (withBitIf x b w)).flag c = (w.getLsbD c.pos || (x && decide (c = b))) := by
  simp only [State.flag, State.setStatus_status, withBitIf_getLsbD, StatusBit.pos_injective]

/-- The reserved bits stay 0 (10_state.md R24). -/
theorem withBit_reserved (b : StatusBit) (w : Word) (h : w >>> 7 = 0) : withBit b w >>> 7 = 0 := by
  rw [withBit, BitVec.ushiftRight_or_distrib, h]
  cases b <;> decide

theorem withBitIf_reserved (x : Bool) (b : StatusBit) (w : Word) (h : w >>> 7 = 0) :
    withBitIf x b w >>> 7 = 0 := by
  cases x
  · exact h
  · exact withBit_reserved b w h

/-- The wrap flag's word is 0 or 1 (10_state.md R37). -/
theorem wrapWord_cases (w : Bool) : wrapWord w = 0 ∨ wrapWord w = 1 := by
  cases w
  · exact Or.inl rfl
  · exact Or.inr rfl

end Sys2Proof.Machine
end

