-- ==== Sys2Proof/Laws/Memory.lean ====
section
/-! SUPPORT. The laws of the sample buffer: read after write, and the canonical form, which every
write keeps (20_memory.md R63). -/

namespace Sys2Proof.Machine

/-- A write gives its word its value and leaves every other word alone. -/
theorem Memory.read_write (m : Memory) (k j : Nat) (v : Word) :
    (m.write k v).read j = if j = k then some v else m.read j := by
  induction m with
  | nil => simp [Memory.write, Memory.read, eq_comm]
  | cons c m ih =>
    obtain ⟨i, w⟩ := c
    simp only [Memory.write]
    split
    · simp [Memory.read, eq_comm]
    · split
      · rename_i hk
        subst hk
        by_cases h : j = k
        · simp [Memory.read, h]
        · simp [Memory.read, h, Ne.symm h]
      · rename_i hlt hne
        by_cases hij : i = j
        · subst hij
          simp [Memory.read, Ne.symm hne]
        · simp [Memory.read, hij, ih]

@[simp] theorem Memory.read_write_same (m : Memory) (k : Nat) (v : Word) :
    (m.write k v).read k = some v := by simp [Memory.read_write]

theorem Memory.read_write_other (m : Memory) {k j : Nat} (v : Word) (h : j ≠ k) :
    (m.write k v).read j = m.read j := by simp [Memory.read_write, h]

theorem Memory.risingFrom_write (m : Memory) (lo k : Nat) (v : Word) (hk : lo ≤ k)
    (h : m.risingFrom lo = true) : (m.write k v).risingFrom lo = true := by
  induction m generalizing lo with
  | nil => simp [Memory.write, Memory.risingFrom, hk]
  | cons c m ih =>
    obtain ⟨i, w⟩ := c
    simp only [Memory.risingFrom, Bool.and_eq_true, decide_eq_true_eq] at h
    simp only [Memory.write]
    split
    · rename_i hlt
      simp only [Memory.risingFrom, Bool.and_eq_true, decide_eq_true_eq]
      exact ⟨hk, hlt, h.2⟩
    · split
      · rename_i heq
        subst heq
        simp only [Memory.risingFrom, Bool.and_eq_true, decide_eq_true_eq]
        exact ⟨hk, h.2⟩
      · simp only [Memory.risingFrom, Bool.and_eq_true, decide_eq_true_eq]
        exact ⟨h.1, ih (i + 1) (by omega) h.2⟩

/-- A write keeps the canonical form. -/
theorem Memory.wf_write (m : Memory) (k : Nat) (v : Word) (h : m.wf = true) :
    (m.write k v).wf = true := m.risingFrom_write 0 k v (Nat.zero_le k) h

/-- A write inside the buffer lists no word outside it. -/
theorem Memory.below_write (m : Memory) (len k : Nat) (v : Word) (hk : k < len)
    (h : m.below len = true) : (m.write k v).below len = true := by
  induction m with
  | nil => simp [Memory.write, Memory.below, hk]
  | cons c m ih =>
    obtain ⟨i, w⟩ := c
    simp only [Memory.below, List.all_cons, Bool.and_eq_true, decide_eq_true_eq] at h ih
    simp only [Memory.write]
    split
    · simp only [Memory.below, List.all_cons, Bool.and_eq_true, decide_eq_true_eq]
      exact ⟨hk, h⟩
    · split
      · simp only [Memory.below, List.all_cons, Bool.and_eq_true, decide_eq_true_eq]
        exact ⟨hk, h.2⟩
      · simp only [Memory.below, List.all_cons, Bool.and_eq_true, decide_eq_true_eq]
        exact ⟨h.1, ih h.2⟩

/-- In a canonical buffer that lists only words below `len`, no other word has a value. -/
theorem Memory.read_below (m : Memory) (len k : Nat) (h : m.below len = true) (hk : len ≤ k) :
    m.read k = none := by
  induction m with
  | nil => rfl
  | cons c m ih =>
    obtain ⟨i, w⟩ := c
    simp only [Memory.below, List.all_cons, Bool.and_eq_true, decide_eq_true_eq] at h ih
    have : i ≠ k := by omega
    simp [Memory.read, this, ih h.2]

end Sys2Proof.Machine
end

