-- ==== Sys2Proof/Laws/Ops.lean ====
section
/-! SUPPORT. What each shared operation can do, said once: raising an error, the configured check, a step
of one oscillator, a graph sample, the render loop, and the host's transactions. -/

namespace Sys2Proof.Machine

/-! ## Errors and checks -/

/-- Raising an error sets its bit and goes on (60_exceptions.md R300). -/
@[simp] theorem raiseErr_eq (b : StatusBit) (s : State) :
    raiseErr b s = .next (s.setStatus (withBit b s.status)) := rfl

theorem whenConfigured_configured {s : State} (h : s.flag .configured = true) (r : Result) :
    whenConfigured s r = r := by simp [whenConfigured, h]

theorem whenConfigured_notConfigured {s : State} (h : s.flag .configured = false) (r : Result) :
    whenConfigured s r = raiseErr .errNotCfg s := by simp [whenConfigured, h]

/-! ## A step of one oscillator (10_state.md R41) -/

section
variable (v : OpenValues) (i j : Osc) (f : OscStep) (s : State)

theorem State.stepOsc_oscRec : (s.stepOsc v i f).oscRec j =
    if j = i then (f v s.draws s.sampleRate (s.oscRec i)).osc else s.oscRec j := by
  simp [State.stepOsc, State.oscRec_setOsc]

@[simp] theorem State.stepOsc_oscRec_same : (s.stepOsc v i f).oscRec i =
    (f v s.draws s.sampleRate (s.oscRec i)).osc := by simp [State.stepOsc_oscRec]

theorem State.stepOsc_oscRec_other (h : j ≠ i) : (s.stepOsc v i f).oscRec j = s.oscRec j := by
  simp [State.stepOsc_oscRec, h]

@[simp] theorem State.stepOsc_status : (s.stepOsc v i f).status =
    withBitIf (f v s.draws s.sampleRate (s.oscRec i)).outOfRange .exp2Oor s.status := rfl
@[simp] theorem State.stepOsc_draws : (s.stepOsc v i f).draws = s.draws + 1 := by
  simp [State.stepOsc]
@[simp] theorem State.stepOsc_sampleRate : (s.stepOsc v i f).sampleRate = s.sampleRate := by
  simp [State.stepOsc]
@[simp] theorem State.stepOsc_arg0 : (s.stepOsc v i f).arg0 = s.arg0 := by simp [State.stepOsc]
@[simp] theorem State.stepOsc_result0 : (s.stepOsc v i f).result0 = s.result0 := by
  simp [State.stepOsc]
@[simp] theorem State.stepOsc_mixOut : (s.stepOsc v i f).mixOut = s.mixOut := by
  simp [State.stepOsc]
@[simp] theorem State.stepOsc_bufBase : (s.stepOsc v i f).bufBase = s.bufBase := by
  simp [State.stepOsc]
@[simp] theorem State.stepOsc_bufCount : (s.stepOsc v i f).bufCount = s.bufCount := by
  simp [State.stepOsc]
@[simp] theorem State.stepOsc_bufLen : (s.stepOsc v i f).bufLen = s.bufLen := by
  simp [State.stepOsc]
@[simp] theorem State.stepOsc_buffer : (s.stepOsc v i f).buffer = s.buffer := by
  simp [State.stepOsc]
@[simp] theorem State.stepOsc_pending : (s.stepOsc v i f).pending = s.pending := by
  simp [State.stepOsc]
@[simp] theorem State.stepOsc_reply : (s.stepOsc v i f).reply = s.reply := by simp [State.stepOsc]

/-- A step sets no flag but `EXP2_OOR` and clears none. -/
theorem State.stepOsc_flag (b : StatusBit) : (s.stepOsc v i f).flag b =
    (s.flag b || ((f v s.draws s.sampleRate (s.oscRec i)).outOfRange && decide (b = .exp2Oor))) := by
  simp [State.stepOsc, State.flag, withBitIf_getLsbD, StatusBit.pos_injective]
end

/-- An oscillator command with a legal `SEL` on a constructed graph steps that oscillator. -/
theorem onOscillator_steps {sel : BitVec 4} {i : Osc} {s : State} (f : OscStep)
    (hsel : oscOfSel sel = some i) (h : s.flag .configured = true) :
    onOscillator sel f s = .next (s.stepOsc Config.openValues i f) := by
  simp [onOscillator, hsel, whenConfigured, h]

/-- An oscillator command always answers a next state: a refused `SEL`, an unconstructed graph, or the
step. -/
theorem onOscillator_cases (sel : BitVec 4) (f : OscStep) (s : State) :
    (oscOfSel sel = none ∧ onOscillator sel f s = raiseErr .errCmd s) ∨
    (∃ i, oscOfSel sel = some i ∧ s.flag .configured = false ∧
      onOscillator sel f s = raiseErr .errNotCfg s) ∨
    (∃ i, oscOfSel sel = some i ∧ s.flag .configured = true ∧
      onOscillator sel f s = .next (s.stepOsc Config.openValues i f)) := by
  unfold onOscillator
  cases h : oscOfSel sel with
  | none => exact Or.inl ⟨rfl, rfl⟩
  | some i =>
    cases hc : s.flag .configured
    · exact Or.inr (Or.inl ⟨i, rfl, rfl, whenConfigured_notConfigured hc _⟩)
    · exact Or.inr (Or.inr ⟨i, rfl, rfl, whenConfigured_configured hc _⟩)

/-! ## What no command of the graph touches -/

/-- The parts of the state that only the host's transactions write: configuration and operands of the
whole block, and the model's queue. -/
def SameHostSide (s t : State) : Prop :=
  t.sampleRate = s.sampleRate ∧ t.arg0 = s.arg0 ∧ t.bufBase = s.bufBase ∧ t.bufCount = s.bufCount ∧
    t.bufLen = s.bufLen ∧ t.pending = s.pending ∧ t.reply = s.reply

theorem SameHostSide.refl (s : State) : SameHostSide s s := ⟨rfl, rfl, rfl, rfl, rfl, rfl, rfl⟩

theorem SameHostSide.trans {s t u : State} (h : SameHostSide s t) (h' : SameHostSide t u) :
    SameHostSide s u := by
  obtain ⟨a, b, c, d, e, f, g⟩ := h
  obtain ⟨a', b', c', d', e', f', g'⟩ := h'
  exact ⟨a'.trans a, b'.trans b, c'.trans c, d'.trans d, e'.trans e, f'.trans f, g'.trans g⟩

theorem State.stepOsc_hostSide (v : OpenValues) (i : Osc) (f : OscStep) (s : State) :
    SameHostSide s (s.stepOsc v i f) := by simp [SameHostSide]

theorem State.setStatus_hostSide (w : Word) (s : State) : SameHostSide s (s.setStatus w) :=
  SameHostSide.refl s

theorem State.feedLfo_hostSide (s : State) : SameHostSide s s.feedLfo := SameHostSide.refl s

theorem State.putMix_hostSide (v : OpenValues) (s : State) : SameHostSide s (s.putMix v) :=
  SameHostSide.refl s

/-! ## A graph sample (43_synth_graph.md R228) -/

theorem State.graphSample_hostSide (v : OpenValues) (s : State) : SameHostSide s (s.graphSample v) :=
  (s.stepOsc_hostSide v .lfo quadStep).trans <|
    (State.feedLfo_hostSide _).trans <|
      (State.stepOsc_hostSide v .osc1 toneStep _).trans <|
        (State.stepOsc_hostSide v .osc2 toneStep _).trans (State.putMix_hostSide v _)

@[simp] theorem State.feedLfo_buffer (s : State) : s.feedLfo.buffer = s.buffer := rfl
@[simp] theorem State.feedLfo_result0 (s : State) : s.feedLfo.result0 = s.result0 := rfl
@[simp] theorem State.feedLfo_status (s : State) : s.feedLfo.status = s.status := rfl
@[simp] theorem State.feedLfo_draws (s : State) : s.feedLfo.draws = s.draws := rfl
@[simp] theorem State.feedLfo_sampleRate (s : State) : s.feedLfo.sampleRate = s.sampleRate := rfl
@[simp] theorem State.feedLfo_lfo (s : State) : s.feedLfo.lfo = s.lfo := rfl
@[simp] theorem State.feedLfo_osc1 (s : State) :
    s.feedLfo.osc1 = { s.osc1 with freqMod := s.lfo.out } := rfl
@[simp] theorem State.feedLfo_osc2 (s : State) :
    s.feedLfo.osc2 = { s.osc2 with freqMod := s.lfo.out } := rfl
@[simp] theorem State.putMix_buffer (v : OpenValues) (s : State) : (s.putMix v).buffer = s.buffer := rfl
@[simp] theorem State.putMix_result0 (v : OpenValues) (s : State) :
    (s.putMix v).result0 = s.result0 := rfl
@[simp] theorem State.putMix_status (v : OpenValues) (s : State) : (s.putMix v).status = s.status := rfl
@[simp] theorem State.putMix_draws (v : OpenValues) (s : State) :
    (s.putMix v).draws = s.draws + 1 := rfl
@[simp] theorem State.putMix_oscRec (v : OpenValues) (s : State) (i : Osc) :
    (s.putMix v).oscRec i = s.oscRec i := by cases i <;> rfl
@[simp] theorem State.putMix_mixOut (v : OpenValues) (s : State) :
    (s.putMix v).mixOut = mix (v.nan s.draws) s.osc1.out s.osc2.out := rfl

@[simp] theorem State.graphSample_buffer (v : OpenValues) (s : State) :
    (s.graphSample v).buffer = s.buffer := by simp [State.graphSample]
@[simp] theorem State.graphSample_result0 (v : OpenValues) (s : State) :
    (s.graphSample v).result0 = s.result0 := by simp [State.graphSample]
@[simp] theorem State.graphSample_draws (v : OpenValues) (s : State) :
    (s.graphSample v).draws = s.draws + 4 := by simp [State.graphSample]

/-- A graph sample sets no flag but `EXP2_OOR` and clears none. -/
theorem State.graphSample_flag (v : OpenValues) (s : State) (b : StatusBit) (h : b ≠ .exp2Oor) :
    (s.graphSample v).flag b = s.flag b := by
  have hfeed : ∀ t : State, t.feedLfo.flag b = t.flag b := fun _ => rfl
  have hmix : ∀ t : State, (t.putMix v).flag b = t.flag b := fun _ => rfl
  simp [State.graphSample, hmix, State.stepOsc_flag, hfeed, h]

/-! ## The render loop (43_synth_graph.md R230) -/

@[simp] theorem State.renderLoop_zero (v : OpenValues) (k : Nat) (s : State) :
    s.renderLoop v 0 k = s := rfl

/-- One more sample: sample, store, go on at the next word. -/
theorem State.renderLoop_succ (v : OpenValues) (n k : Nat) (s : State) :
    s.renderLoop v (n + 1) k =
      ((s.graphSample v).setBuffer ((s.graphSample v).buffer.write k (s.graphSample v).mixOut)).renderLoop
        v n (k + 1) := rfl

/-- A property that every sample and every store inside the range keeps holds after the loop. -/
theorem State.renderLoop_induction (v : OpenValues) (P : State → Prop) (lo hi : Nat)
    (hsample : ∀ s, P s → P (s.graphSample v))
    (hstore : ∀ s k w, lo ≤ k → k < hi → P s → P (s.setBuffer (s.buffer.write k w))) :
    ∀ (n k : Nat) (s : State), lo ≤ k → k + n ≤ hi → P s → P (s.renderLoop v n k) := by
  intro n
  induction n with
  | zero => intro k s _ _ h; exact h
  | succ n ih =>
    intro k s hlo hhi h
    rw [State.renderLoop_succ]
    exact ih (k + 1) _ (by omega) (by omega)
      (hstore _ k _ hlo (by omega) (hsample s h))

theorem State.renderLoop_hostSide (v : OpenValues) (n k : Nat) (s : State) :
    SameHostSide s (s.renderLoop v n k) :=
  State.renderLoop_induction v (SameHostSide s) k (k + n)
    (fun t h => h.trans (t.graphSample_hostSide v)) (fun _ _ _ _ _ h => h.trans (SameHostSide.refl _))
    n k s (le_refl _) (le_refl _) (SameHostSide.refl s)

/-- The render loop writes no buffer word outside its range. -/
theorem State.renderLoop_buffer_other (v : OpenValues) (n k : Nat) (s : State) (j : Nat)
    (hj : j < k ∨ k + n ≤ j) : (s.renderLoop v n k).buffer.read j = s.buffer.read j :=
  State.renderLoop_induction v (fun t => t.buffer.read j = s.buffer.read j) k (k + n)
    (fun t h => by simpa using h)
    (fun t i w h1 h2 h => by
      rw [State.setBuffer_buffer, Memory.read_write_other _ _ (by omega)]; exact h)
    n k s (le_refl _) (le_refl _) rfl

theorem State.renderLoop_result0 (v : OpenValues) (n k : Nat) (s : State) :
    (s.renderLoop v n k).result0 = s.result0 :=
  State.renderLoop_induction v (fun t => t.result0 = s.result0) k (k + n)
    (fun t h => by simpa using h) (fun _ _ _ _ _ h => h) n k s (le_refl _) (le_refl _) rfl

/-- Two loops over adjacent ranges are one loop (43_synth_graph.md R232). -/
theorem State.renderLoop_append (v : OpenValues) (a b k : Nat) (s : State) :
    s.renderLoop v (a + b) k = (s.renderLoop v a k).renderLoop v b (k + a) := by
  induction a generalizing k s with
  | zero => simp
  | succ a ih =>
    rw [Nat.add_right_comm, State.renderLoop_succ, State.renderLoop_succ, ih,
      show k + 1 + a = k + (a + 1) by omega]

/-! ## The commands and the host's transactions -/

/-- Every command answers a next state. -/
theorem exec_answers_next (i : Instr) (s : State) : ∃ t, exec i s = .next t := by
  have hosc : ∀ sel f, ∃ t, onOscillator sel f s = .next t := by
    intro sel f
    rcases onOscillator_cases sel f s with ⟨-, h⟩ | ⟨_, -, -, h⟩ | ⟨_, -, -, h⟩ <;> exact ⟨_, h⟩
  cases i with
  | nop => exact ⟨_, rfl⟩
  | init =>
    simp only [exec, execInit]
    split
    · exact ⟨_, rfl⟩
    · split <;> exact ⟨_, rfl⟩
  | psin => exact ⟨_, rfl⟩
  | exp2 => exact ⟨_, rfl⟩
  | wrap01 => exact ⟨_, rfl⟩
  | pastep sel => exact hosc sel _
  | tonestep sel => exact hosc sel _
  | quadstep sel => exact hosc sel _
  | gstep =>
    simp only [exec, execGstep, whenConfigured]
    split <;> exact ⟨_, rfl⟩
  | render =>
    simp only [exec, execRender, whenConfigured]
    split
    · split <;> exact ⟨_, rfl⟩
    · exact ⟨_, rfl⟩

/-- A command writes none of the host's side of the state (10_state.md R22, R25, R28, R29, R30). -/
theorem exec_hostSide {i : Instr} {s t : State} (h : exec i s = .next t) : SameHostSide s t := by
  have hosc : ∀ sel f, onOscillator sel f s = .next t → SameHostSide s t := by
    intro sel f h
    rcases onOscillator_cases sel f s with ⟨-, h'⟩ | ⟨_, -, -, h'⟩ | ⟨i, -, -, h'⟩ <;>
      rw [h'] at h <;> cases h
    · exact State.setStatus_hostSide _ s
    · exact State.setStatus_hostSide _ s
    · exact State.stepOsc_hostSide _ i f s
  cases i with
  | nop => cases h; exact SameHostSide.refl _
  | init =>
    simp only [exec, execInit] at h
    split at h
    · cases h; exact State.setStatus_hostSide _ s
    · split at h <;> cases h
      · exact State.setStatus_hostSide _ s
      · exact SameHostSide.refl _
  | psin => cases h; exact SameHostSide.refl _
  | exp2 => cases h; exact SameHostSide.refl _
  | wrap01 => cases h; exact SameHostSide.refl _
  | pastep sel => exact hosc sel _ h
  | tonestep sel => exact hosc sel _ h
  | quadstep sel => exact hosc sel _ h
  | gstep =>
    simp only [exec, execGstep, whenConfigured] at h
    split at h <;> cases h
    · exact State.graphSample_hostSide _ s
    · exact State.setStatus_hostSide _ s
  | render =>
    simp only [exec, execRender, whenConfigured] at h
    split at h
    · split at h <;> cases h
      · exact State.renderLoop_hostSide _ _ _ s
      · exact State.setStatus_hostSide _ s
    · cases h; exact State.setStatus_hostSide _ s

/-- What a host store to a register can do: `ERR_WR` alone, or the register alone
(20_memory.md R62). -/
theorem hostStoreReg_cases (j : BitVec 8) (v : Word) (s : State) :
    hostStoreReg j v s = raiseErr .errWr s ∨
      ∃ r, regAt j = some r ∧ s.writable r = true ∧ hostStoreReg j v s = .next (s.storeReg r v) := by
  unfold hostStoreReg
  cases h : regAt j with
  | none => exact Or.inl rfl
  | some r =>
    cases hw : s.writable r
    · exact Or.inl (by simp [hw])
    · exact Or.inr ⟨r, rfl, hw, by simp [hw]⟩

/-- What a step can do: stay idle, or one of the host's transactions. -/
theorem step_cases {s t : State} (h : step s = .next t) :
    (s.pending = [] ∧ t = s) ∨
      ∃ op rest, s.pending = op :: rest ∧ hostOp op (s.accept rest) = .next t := by
  unfold step nextTransaction at h
  cases hp : s.pending with
  | nil => rw [hp] at h; cases h; exact Or.inl ⟨rfl, rfl⟩
  | cons op rest => rw [hp] at h; exact Or.inr ⟨op, rest, rfl, h⟩

theorem step_of_pending {s : State} {op : HostOp} {rest : List HostOp} (h : s.pending = op :: rest) :
    step s = hostOp op (s.accept rest) := by
  simp [step, nextTransaction, h]

end Sys2Proof.Machine
end

