-- ==== Sys2Proof/Laws/PerInstr.lean ====
section
/-! SUPPORT. Statements about every command, made command by command (LAWS.json). -/

/-- The command word of every command has its reserved fields at zero, its own `OPC` and `SEL` in their
fields, and an `OPC` of the opcode map (30_encoding.md R90, R94). -/
def Sys2Proof.Laws.EncodingFields.Statement (i : Sys2Proof.Instr) : Prop :=
  Sys2Proof.fieldRsv1 (Sys2Proof.encode i) = 0 ∧ Sys2Proof.fieldRsv0 (Sys2Proof.encode i) = 0 ∧
    Sys2Proof.fieldOpc (Sys2Proof.encode i) = i.opc ∧ Sys2Proof.fieldSel (Sys2Proof.encode i) = i.sel ∧
    (Sys2Proof.opcodeRow i.opc).isSome = true

namespace Sys2Proof.Laws

theorem EncodingFields.nop : EncodingFields.Statement .nop := by
  unfold EncodingFields.Statement; decide

theorem EncodingFields.init : EncodingFields.Statement .init := by
  unfold EncodingFields.Statement; decide

theorem EncodingFields.psin : EncodingFields.Statement .psin := by
  unfold EncodingFields.Statement; decide

theorem EncodingFields.exp2 : EncodingFields.Statement .exp2 := by
  unfold EncodingFields.Statement; decide

theorem EncodingFields.wrap01 : EncodingFields.Statement .wrap01 := by
  unfold EncodingFields.Statement; decide

theorem EncodingFields.pastep (sel : BitVec 4) : EncodingFields.Statement (.pastep sel) := by
  revert sel; unfold EncodingFields.Statement; decide

theorem EncodingFields.tonestep (sel : BitVec 4) : EncodingFields.Statement (.tonestep sel) := by
  revert sel; unfold EncodingFields.Statement; decide

theorem EncodingFields.quadstep (sel : BitVec 4) : EncodingFields.Statement (.quadstep sel) := by
  revert sel; unfold EncodingFields.Statement; decide

theorem EncodingFields.gstep : EncodingFields.Statement .gstep := by
  unfold EncodingFields.Statement; decide

theorem EncodingFields.render : EncodingFields.Statement .render := by
  unfold EncodingFields.Statement; decide

end Sys2Proof.Laws
end

