-- ==== Sys2Proof/Laws/Registers.lean ====
section
/-! SUPPORT. The laws of the register map (10_state.md R21, R31): names and indices, and how a frame over the
256 indices follows from the registers that have a name. -/

namespace Sys2Proof.Machine

/-- A register stands at its own index. -/
theorem regAt_index (r : Reg) : regAt r.index = some r := by
  cases r with
  | osc i f => cases i <;> cases f <;> rfl
  | _ => rfl

/-- An index holds at most the register whose index it is. -/
theorem index_of_regAt {j : BitVec 8} {r : Reg} (h : regAt j = some r) : r.index = j := by
  have key : ∀ j : BitVec 8, (regAt j).all (fun r => decide (r.index = j)) = true := by decide
  have := key j
  rw [h] at this
  simpa using this

theorem Reg.index_injective {a b : Reg} (h : a.index = b.index) : a = b := by
  have := regAt_index a
  rw [h, regAt_index b] at this
  exact (Option.some.inj this).symm

theorem State.readReg_index (s : State) (r : Reg) : s.readReg r.index = s.regValue r := by
  rw [State.readReg, regAt_index]

/-- The reserved indices are those that hold no register (10_state.md R21). -/
theorem regAt_none_iff (j : BitVec 8) : regAt j = none ↔ reservedIndex j = true := by
  have key : ∀ j : BitVec 8, (regAt j).isNone = reservedIndex j := by decide
  rw [← key j]
  simp

/-- A frame over all indices, from the registers alone. -/
theorem readReg_frame {s t : State} {written : List (BitVec 8)}
    (h : ∀ r : Reg, r.index ∉ written → t.regValue r = s.regValue r) :
    ∀ j, j ∉ written → t.readReg j = s.readReg j := by
  intro j hj
  unfold State.readReg
  cases hr : regAt j with
  | none => rfl
  | some r =>
    have := index_of_regAt hr
    subst this
    exact h r hj

/-- Setting a STATUS bit changes the register `STATUS` alone. -/
theorem raisedOnly_setStatus (b : StatusBit) (s : State) :
    RaisedOnly b.mask s (s.setStatus (withBit b s.status)) := by
  refine ⟨rfl, ⟨readReg_frame ?_, fun _ => rfl, rfl, rfl⟩, rfl⟩
  intro r hr
  cases r with
  | status => exact absurd (List.mem_singleton.mpr rfl) hr
  | osc i f => simp [State.regValue]
  | _ => rfl

end Sys2Proof.Machine
end

