-- ==== Sys2Proof/Laws/Steps.lean ====
section
/-! SUPPORT. What an `exp2` evaluation and a step of an oscillator can do, said once (40_fastmath.md R127 to
R130, 41_phase_accumulator.md R166 to R168, 42_oscillators.md R192, R195). -/

namespace Sys2Proof.Machine

open F64

/-! ## exp2 -/

theorem exp2InRange_iff (x : Word) :
    exp2InRange x = true ↔ isFinite x = true ∧ -1022 ≤ exp2Int x ∧ exp2Int x ≤ 1023 := by
  rw [exp2InRange, Bool.and_eq_true, Bool.and_eq_true, decide_eq_true_iff, decide_eq_true_iff,
    show Config.exp2Bias = 1023 from rfl]
  constructor
  · rintro ⟨⟨a, b⟩, c⟩
    exact ⟨a, by omega, by omega⟩
  · rintro ⟨a, b, c⟩
    exact ⟨⟨a, by omega⟩, by omega⟩

/-- The exponent field is all there is in the scale. -/
theorem exp2Scale_eq (n : Int) : exp2Scale n = BitVec.ofNat 64 ((n + 1023).toNat * 2 ^ 52) := by
  rw [exp2Scale, show Config.exp2Bias = 1023 from rfl, show Config.exp2Shift = 52 from rfl]
  apply BitVec.eq_of_toNat_eq
  rw [BitVec.toNat_shiftLeft, BitVec.toNat_ofNat, BitVec.toNat_ofNat, Nat.shiftLeft_eq, Nat.mod_mul_mod]

theorem exp2_inRange (frac : Word → Word) (draw : Word) (nan : Nat → Word) {x : Word}
    (h : exp2InRange x = true) : exp2 frac draw nan x =
      { value := mul (nan 1) (frac (exp2Fp (nan 0) x)) (exp2Scale (exp2Int x)), outOfRange := false } :=
  if_pos h

theorem exp2_outOfRange (frac : Word → Word) (draw : Word) (nan : Nat → Word) {x : Word}
    (h : exp2InRange x = false) :
    exp2 frac draw nan x = { value := draw, outOfRange := true } := by
  rw [exp2, h]; rfl

/-! ## Publish and advance -/

section
variable (nan : Nat → Word) (inc : Word) (o : OscRec)

@[simp] theorem publish_inc : (publish nan inc o).inc = inc := rfl
@[simp] theorem publish_pubPhase : (publish nan inc o).pubPhase = publishedPhase nan inc o.phase := rfl
@[simp] theorem publish_wrap : (publish nan inc o).wrap = wrapWord (wrapFlag inc o.phase) := rfl
@[simp] theorem publish_phase :
    (publish nan inc o).phase = add (nan 12) (publishedPhase nan inc o.phase) inc := rfl

/-- The three ways a step folds (R166). -/
theorem publishedPhase_cases (p : Word) :
    (foldsDown inc p = true ∧ publishedPhase nan inc p = sub (nan 11) p one ∧ wrapFlag inc p = true) ∨
    (foldsDown inc p = false ∧ foldsUp inc p = true ∧ publishedPhase nan inc p = add (nan 11) p one ∧
      wrapFlag inc p = true) ∨
    (foldsDown inc p = false ∧ foldsUp inc p = false ∧ publishedPhase nan inc p = p ∧
      wrapFlag inc p = false) := by
  cases h1 : foldsDown inc p
  · cases h2 : foldsUp inc p <;> simp [publishedPhase, wrapFlag, h1, h2]
  · simp [publishedPhase, wrapFlag, h1]
end

/-! ## The frame of a step -/

/-- The fields that the phase step writes. -/
def paFields : List Field := [.pubPhase, .wrap, .inc, .phase]

section
variable (v : OpenValues) (t : Nat) (sr : Word) (o : OscRec)

theorem paStep_get {g : Field} (h : g ∉ paFields) : (paStep v t sr o).osc.get g = o.get g := by
  cases g <;> first | rfl | exact absurd (by decide) h

theorem toneStep_get {g : Field} (h : g ∉ paFields ++ [.out]) :
    (toneStep v t sr o).osc.get g = o.get g := by
  cases g <;> first | rfl | exact absurd (by decide) h

theorem quadStep_get {g : Field} (h : g ∉ paFields ++ [.out, .outQ]) :
    (quadStep v t sr o).osc.get g = o.get g := by
  cases g <;> first | rfl | exact absurd (by decide) h
end

/-- A step of an oscillator changes `STATUS` and the fields of its own record that the step writes, and no
other register (10_state.md R41). -/
theorem State.stepOsc_unchangedBut (v : OpenValues) (i : Osc) (f : OscStep) (s : State) (fs : List Field)
    (hf : ∀ g, g ∉ fs → ∀ t sr o, (f v t sr o).osc.get g = o.get g) :
    UnchangedBut (0x01 :: fs.map fun g => (Reg.osc i g).index) s (s.stepOsc v i f) := by
  refine ⟨readReg_frame ?_, fun k => by simp, by simp, by simp⟩
  intro r hr
  cases r with
  | osc j g =>
    simp only [State.regValue, State.stepOsc_oscRec]
    split
    · rename_i h
      subst h
      exact hf g (fun hg => hr (List.mem_cons_of_mem _ (List.mem_map_of_mem hg))) _ _ _
    · rfl
  | status => exact absurd List.mem_cons_self hr
  | _ => simp [State.regValue]

/-- Two frames in a row. -/
theorem UnchangedBut.trans {l₁ l₂ l : List (BitVec 8)} {s t u : State} (h₁ : UnchangedBut l₁ s t)
    (h₂ : UnchangedBut l₂ t u) (hl : ∀ j, j ∉ l → j ∉ l₁ ∧ j ∉ l₂) : UnchangedBut l s u :=
  ⟨fun j hj => (h₂.1 j (hl j hj).2).trans (h₁.1 j (hl j hj).1),
    fun k => (h₂.2.1 k).trans (h₁.2.1 k), h₂.2.2.1.trans h₁.2.2.1, h₂.2.2.2.trans h₁.2.2.2⟩

/-- Feeding the lfo changes `FREQ_MOD` of both tone records alone (43_synth_graph.md R227). -/
theorem State.feedLfo_unchangedBut (s : State) : UnchangedBut [0x16, 0x26] s s.feedLfo := by
  refine ⟨readReg_frame fun r hr => ?_, fun _ => rfl, rfl, rfl⟩
  cases r with
  | osc i f => cases i <;> cases f <;> first | rfl | exact absurd (by decide) hr
  | _ => rfl

/-- The mix changes `MIX_OUT` alone (43_synth_graph.md R228). -/
theorem State.putMix_unchangedBut (v : OpenValues) (s : State) : UnchangedBut [0x05] s (s.putMix v) := by
  refine ⟨readReg_frame fun r hr => ?_, fun _ => rfl, rfl, rfl⟩
  cases r with
  | mixOut => exact absurd (by decide) hr
  | osc i f => simp [State.regValue]
  | _ => rfl

end Sys2Proof.Machine
end

