-- ==== Sys2Proof/Tests/Slice0.lean ====
section
/-! SUPPORT. Tests: words written out from the encodings of 30_encoding.md R94, the vectors V1 to V10 of
95_test_vectors.md, and for every statement with hypotheses a state and operands that meet them. -/

namespace Sys2Proof.Tests

open Sys2Proof Sys2Proof.Machine Sys2Proof.F64

-- One theorem at a time: each of those below waits for the kernel, and each that waits holds a thread.
set_option Elab.async false

/-! ## Helpers -/

/-- The outcome is a next state with the property. -/
def goesTo (r : Result) (p : State → Bool) : Bool :=
  match r with
  | .next t => p t
  | .fault _ => false
  | .refused _ => false

theorem goesTo_spec {r : Result} {p : State → Bool} (h : goesTo r p = true) :
    ∃ t, r = .next t ∧ p t = true := by
  cases r with
  | next t => exact ⟨t, rfl, h⟩
  | fault r => cases h
  | refused r => cases h

/-- After reset, with a buffer of four words. -/
def fresh : State := { State.reset with bufLen := 4 }

/-- `fresh` with `SAMPLE_RATE` 44100.0, before INIT. -/
def rated : State := { fresh with sampleRate := 0x40E5888000000000 }

/-- `boot f:44100.0` with a buffer of four words: STATUS is 1 (V10). -/
def booted : State := { rated.construct with status := 1 }

/-- `booted` with a register of osc1 changed. -/
def bootedWith (f : Field) (v : Word) : State := booted.storeReg (.osc .osc1 f) v

/-- A NaN pattern. -/
def aNaN : Word := 0x7FF8000000000000

/-- The state with one transaction pending. -/
def State.asked (s : State) (op : HostOp) : State := { s with pending := [op] }

theorem accepts_asked (s : State) (op : HostOp) :
    Accepts (State.asked s op) op { s with pending := [], reply := none } := ⟨[], rfl, rfl⟩

/-- Default `EXP2_FRAC` (40_fastmath.md R128) beside NaN patterns and draws that are all one NaN: the
open values of the vectors that 95_test_vectors.md marks F. -/
def vectorValues : OpenValues where
  exp2Frac := exp2FracDefault fun _ => aNaN
  nan := fun _ _ => aNaN
  exp2Draw := fun _ => aNaN

/-! ## Well-formedness: each check refuses an ill-formed command -/

theorem test_wellFormed_refuses_pastep_3 : (Instr.pastep 3).wellFormed = false := by decide
theorem test_wellFormed_refuses_tonestep_3 : (Instr.tonestep 3).wellFormed = false := by decide
theorem test_wellFormed_refuses_quadstep_15 : (Instr.quadstep 15).wellFormed = false := by decide
theorem test_wellFormed_takes_quadstep_2 : (Instr.quadstep 2).wellFormed = true := by decide

/-! ## Decoding: one word per constructor, OPC ++ RSV1 ++ SEL ++ RSV0, from R94 -/

theorem test_decode_nop : decodeTableWord 32 0b00000000000000000000000000000000 = some .nop := by decide
theorem test_decode_init : decodeTableWord 32 0b00000001000000000000000000000000 = some .init := by decide
theorem test_decode_psin : decodeTableWord 32 0b00010000000000000000000000000000 = some .psin := by decide
theorem test_decode_exp2 : decodeTableWord 32 0b00010001000000000000000000000000 = some .exp2 := by decide
theorem test_decode_wrap01 : decodeTableWord 32 0b00010010000000000000000000000000 = some .wrap01 := by
  decide
theorem test_decode_pastep : decodeTableWord 32 0b00100000000000010000000000000000 = some (.pastep 1) := by
  decide
theorem test_decode_tonestep :
    decodeTableWord 32 0b00100001000000100000000000000000 = some (.tonestep 2) := by decide
theorem test_decode_quadstep :
    decodeTableWord 32 0b00100010000000000000000000000000 = some (.quadstep 0) := by decide
theorem test_decode_gstep : decodeTableWord 32 0b00110000000000000000000000000000 = some .gstep := by decide
theorem test_decode_render : decodeTableWord 32 0b00110001000000000000000000000000 = some .render := by
  decide

/-- The error of a write that decodes to no command. -/
def decodeError (v : Word) : Option DecodeError :=
  match decode v with
  | .ok _ => none
  | .error e => some e

/-- V10. -/
theorem test_decode_rejects :
    decodeError 0x0000000110000000 = some .upperHalfNonzero ∧
      decodeError 0x13000000 = some .undefinedOpc ∧ decodeError 0x00000001 = some .reservedNonzero ∧
      decodeError 0x20100000 = some .reservedNonzero ∧ decodeError 0x20030000 = some .selOutOfRange ∧
      decodeError 0x10010000 = some .selNotTaken := by decide

theorem test_encode_words :
    encode (.tonestep 1) = 0x21010000 ∧ encode .render = 0x31000000 ∧ encode (.quadstep 2) = 0x22020000 := by
  decide

/-! ## The commands -/

theorem test_nop : goesTo (exec .nop booted) (fun t => t == booted) = true := by decide +kernel

theorem test_init_first :
    goesTo (exec .init rated) (fun t => t == booted) = true := by decide +kernel

theorem test_init_second :
    goesTo (exec .init booted) (fun t => t.status == 3 && t.osc1 == booted.osc1) = true := by
  decide +kernel

/-- V1. -/
theorem test_psin_one :
    goesTo (exec .psin { fresh with arg0 := 0x3FF0000000000000 })
      (fun t => t.result0 == 0x3FEAF309BBC0B6D8) = true := by decide +kernel

/-- V1: outside [-PI, PI] the formula is applied as written. -/
theorem test_psin_tau :
    goesTo (exec .psin { fresh with arg0 := Config.tau })
      (fun t => t.result0 == 0xC03499999999999A) = true := by decide +kernel

/-- V2. -/
theorem test_exp2_smallest :
    goesTo (exec .exp2 { fresh with arg0 := 0xC08FF00000000000 })
      (fun t => t.result0 == 0x0010000000000000 && t.status == 0) = true := by decide +kernel

/-- V2: -1022.5 is out of range, and -1022.4 with the default `EXP2_FRAC` is subnormal. -/
theorem test_exp2_below_range :
    goesTo (exec .exp2 { fresh with arg0 := 0xC08FF40000000000 }) (fun t => t.status == 0x40) = true ∧
      (exp2 vectorValues.exp2Frac 0 (fun _ => aNaN) (ofFraction true 10224 10)).value
        = 0x000C203001D95764 := by decide +kernel

/-- V9: the sum rounds up to 1.0. -/
theorem test_wrap01_tiny_negative :
    goesTo (exec .wrap01 { fresh with arg0 := 0xBC90000000000000 })
      (fun t => t.result0 == 0x3FF0000000000000) = true := by decide +kernel

/-- V9: a zero remainder keeps the sign. -/
theorem test_wrap01_minus_one :
    goesTo (exec .wrap01 { fresh with arg0 := 0xBFF0000000000000 })
      (fun t => t.result0 == 0x8000000000000000) = true := by decide +kernel

/-- V3, PHASE = 1.005: the fold. -/
theorem test_pastep_folds :
    goesTo (exec (.pastep 0) (bootedWith .phase (ofFraction false 1005 1000)))
      (fun t => t.osc1.pubPhase == 0x3F747AE147AE1400 && t.osc1.wrap == 1 &&
        t.osc1.inc == 0x3F846EFDCB4A6B82 && t.osc1.phase == 0x3F8EAC6E6F217582) = true := by decide +kernel

/-- V3, RATIO = -1e6 and PHASE = 0.3: the clamp below. -/
theorem test_pastep_clamps :
    goesTo (exec (.pastep 0) ((bootedWith .phase (ofFraction false 3 10)).storeReg
        (.osc .osc1 .freqModRatio) (ofFraction true 1000000 1)))
      (fun t => t.osc1.wrap == 0 && t.osc1.phase == 0xBFC50B078BE67544) = true := by decide +kernel

/-- V8, PHASE = 0.1 and PHASE_MOD = 0.5. -/
theorem test_tonestep_phase_mod :
    goesTo (exec (.tonestep 0) ((bootedWith .phase (ofFraction false 1 10)).storeReg
        (.osc .osc1 .phaseMod) half))
      (fun t => t.osc1.out == 0xBFE2D234EB9A176E && t.osc1.outQ == 0) = true := by decide +kernel

/-- V8, PHASE = 0.25, AMPLITUDE = 0.5, AMP_MOD = -2.0. -/
theorem test_tonestep_gains :
    goesTo (exec (.tonestep 0) (((bootedWith .phase quarter).storeReg (.osc .osc1 .amplitude) half).storeReg
        (.osc .osc1 .ampMod) 0xC000000000000000))
      (fun t => t.osc1.out == 0xBFF0000000000000) = true := by decide +kernel

/-- V8, the lfo record. -/
theorem test_quadstep_lfo :
    goesTo (exec (.quadstep 2) booted)
      (fun t => t.lfo.out == 0 && t.lfo.outQ == one && t.lfo.phase == 0x3EE7C6F8C751F177 &&
        t.osc1 == booted.osc1) = true := by decide +kernel

/-- V8, PHASE = 0.125. -/
theorem test_quadstep_eighth :
    goesTo (exec (.quadstep 0) (bootedWith .phase 0x3FC0000000000000))
      (fun t => t.osc1.out == 0x3FE6A66666666666 && t.osc1.outQ == 0x3FE6A66666666666) = true := by
  decide +kernel

/-- V4, samples 0 and 1, with the default `EXP2_FRAC`. -/
theorem test_graph_samples :
    (booted.graphSample vectorValues).mixOut = 0 ∧ (booted.graphSample vectorValues).lfo.outQ = one ∧
      ((booted.graphSample vectorValues).graphSample vectorValues).mixOut = 0x3FAFC496B7BAC0C6 ∧
      ((booted.graphSample vectorValues).graphSample vectorValues).osc2.inc = 0x3F8476926BDD0987 := by
  decide +kernel

theorem test_gstep_first :
    goesTo (exec .gstep booted) (fun t => t.osc1.phase == 0x3F846EFDCB4A6B82 && t.lfo.outQ == one) = true := by
  decide +kernel

/-- V10: a range past the buffer. -/
theorem test_render_past_the_buffer :
    goesTo (exec .render { booted with bufBase := 3, bufCount := 2 })
      (fun t => t.status == 0x11 && t.buffer == []) = true := by decide +kernel

/-- The last two words, with the default `EXP2_FRAC` (V4). -/
theorem test_render_last_words :
    goesTo (exec .render { booted with bufBase := 3, bufCount := 1 }) (fun t => t.status == 1) = true ∧
      (booted.renderLoop vectorValues 2 2).buffer = [(2, 0), (3, 0x3FAFC496B7BAC0C6)] := by decide +kernel

/-! ## The host's transactions (V10) -/

theorem test_host_write_read_only :
    goesTo (step (State.asked fresh (.writeReg 0x1A 0x3FF0000000000000)))
      (fun t => t.status == 0x20 && t.osc1 == fresh.osc1) = true := by decide +kernel

theorem test_host_write_reserved :
    goesTo (step (State.asked fresh (.writeReg 0x09 5))) (fun t => t.status == 0x20) = true := by
  decide +kernel

theorem test_host_write_sample_rate_after_init :
    goesTo (step (State.asked booted (.writeReg 0x02 0x40E7700000000000)))
      (fun t => t.status == 0x21 && t.sampleRate == 0x40E5888000000000) = true := by decide +kernel

theorem test_host_read_past_the_buffer :
    goesTo (step (State.asked fresh (.readBuf 4)))
      (fun t => t.status == 0x20 && t.reply == some 0) = true := by decide +kernel

theorem test_host_reads_unwritten_word :
    step (State.asked fresh (.readBuf 0)) = .fault .unwrittenBufferWord := rfl

theorem test_host_selects_before_configured :
    goesTo (step (State.asked fresh (.writeReg 0x00 0x20030000))) (fun t => t.status == 2) = true ∧
      goesTo (step (State.asked fresh (.writeReg 0x00 0x20000000))) (fun t => t.status == 4) = true := by
  decide +kernel

/-- P1 of 95_test_vectors.md, its first two statements. -/
theorem test_assemble :
    programOps [.boot (.float false 44100 0), .mnemonic .gstep] =
      [.writeReg 0x02 0x40E5888000000000, .writeReg 0x00 0x01000000, .writeReg 0x00 0x30000000] := by
  decide +kernel

/-! ## Witnesses: the hypotheses of each statement hold somewhere -/

/-- StepRunsTheDecodedCommand. -/
theorem witness_step_runs_the_decoded_command :
    ∃ s s' v i, Accepts s (.writeReg 0x00 v) s' ∧ decode v = .ok i :=
  ⟨_, _, 0x20010000, .pastep 1, accepts_asked booted _, by rfl⟩

/-- StepRunsTheCommandPlaced. -/
theorem witness_command_placed : ∃ nbits w i, decodeTableWord nbits w = some i :=
  ⟨32, 0x20020000, .pastep 2, by decide⟩

/-- IdleBlockKeepsItsState. -/
theorem witness_idle : ∃ s : State, s.pending = [] := ⟨State.reset, rfl⟩

/-- RegisterReadHasNoSideEffect: reserved at both ends of a range, `CMD`, and a register. -/
theorem witness_register_read (j : BitVec 8) : ∃ s s', Accepts s (.readReg j) s' :=
  ⟨_, _, accepts_asked booted _⟩

theorem witness_register_read_clauses :
    reservedIndex 0x09 = true ∧ reservedIndex 0x3F = true ∧ reservedIndex 0xFF = true ∧
      reservedIndex 0x08 = false ∧ reservedIndex 0x3E = false := by decide

/-- RegisterWriteStoresOrRaisesErrWr: a state for every index and value. -/
theorem witness_register_write (j : BitVec 8) (v : Word) : ∃ s s', Accepts s (.writeReg j v) s' :=
  ⟨_, _, accepts_asked booted _⟩

/-- Its clauses: a command and none at `CMD`, reserved, read-only, `SAMPLE_RATE` of a constructed graph
and of one that is not, and a stored register. -/
theorem witness_register_write_clauses :
    (∃ i, decode 0x31000000 = .ok i) ∧ decodeError 0x32000000 ≠ none ∧ reservedIndex 0x40 = true ∧
      readOnlyIndex 0x3E = true ∧ booted.flag .configured = true ∧ rated.flag .configured = false ∧
      (reservedIndex 0x39 || readOnlyIndex 0x39) = false :=
  ⟨⟨.render, rfl⟩, by decide, by decide, by decide, by decide, by decide, by decide⟩

theorem fresh_bufLen (k : Nat) (h : k < 4) : k < fresh.bufLen.toNat := h

/-- BufferTransactionsReachTheirWord, first clause, at both ends of the buffer. -/
theorem witness_buffer_write (v : Word) :
    (∃ s s', Accepts s (.writeBuf 0 v) s' ∧ 0 < s.bufLen.toNat) ∧
      ∃ s s', Accepts s (.writeBuf 3 v) s' ∧ 3 < s.bufLen.toNat :=
  ⟨⟨_, _, accepts_asked fresh _, fresh_bufLen 0 (by decide)⟩,
    ⟨_, _, accepts_asked fresh _, fresh_bufLen 3 (by decide)⟩⟩

/-- Second clause. -/
theorem witness_buffer_read :
    ∃ s s' w, Accepts s (.readBuf 3) s' ∧ 3 < s.bufLen.toNat ∧ s.buffer.read 3 = some w :=
  ⟨_, _, 7, accepts_asked { fresh with buffer := [(3, 7)] } _, by decide, by decide⟩

/-- UnwrittenBufferWordFaults. -/
theorem witness_unwritten_word :
    ∃ s s', Accepts s (.readBuf 3) s' ∧ 3 < s.bufLen.toNat ∧ s.buffer.read 3 = none :=
  ⟨_, _, accepts_asked fresh _, by decide, by decide⟩

/-- RefusedHostAccessesRaiseErrWr: the three grounds of a register write, and the first index past the
buffer. -/
theorem witness_refused_accesses :
    (∃ s s', Accepts s (.writeReg 0x01 0) s' ∧ readOnlyIndex 0x01 = true) ∧
      (∃ s s', Accepts s (.writeReg 0x0F 0) s' ∧ reservedIndex 0x0F = true) ∧
      (∃ s s', Accepts s (.writeReg 0x02 0) s' ∧ s.flag .configured = true) ∧
      (∃ s s', Accepts s (.writeBuf 4 0) s' ∧ s.bufLen.toNat ≤ 4) ∧
      ∃ s s', Accepts s (.readBuf 4) s' ∧ s.bufLen.toNat ≤ 4 :=
  ⟨⟨_, _, accepts_asked booted _, by decide⟩, ⟨_, _, accepts_asked booted _, by decide⟩,
    ⟨_, _, accepts_asked booted _, by decide⟩, ⟨_, _, accepts_asked booted _, by decide⟩,
    ⟨_, _, accepts_asked booted _, by decide⟩⟩

/-- ResetPutsEveryRegisterToItsResetValue. -/
theorem witness_reset : ∃ s s', Accepts s .reset s' := ⟨_, _, accepts_asked booted _⟩

theorem booted_inv : booted.Inv := by
  refine ⟨by decide, fun i => ?_, fun _ => by decide +kernel, by decide, by decide, by decide⟩
  cases i <;> exact Or.inl rfl

/-- EveryStepKeepsTheInvariant, StatusBitsAreSticky, SampleRateIsFixedOnceConfigured and
BufLenNeverChanges. -/
theorem witness_step :
    ∃ s t, s.Inv ∧ step s = .next t ∧ (∀ rest, s.pending ≠ .reset :: rest) ∧
      s.flag .configured = true :=
  ⟨booted, booted, booted_inv, rfl, fun _ => nofun, by decide⟩

/-- NoCommandWritesTheOperandRegisters and AtMostOneAbortingErrorPerCommand. -/
theorem witness_exec : ∃ i s t, i.wellFormed = true ∧ exec i s = .next t := ⟨.nop, booted, _, rfl, rfl⟩

/-- ResultsAreWrittenByTheirCommandsOnly: its clauses at RENDER of words 1 and 2, on both sides of the
range, and at PASTEP. -/
theorem witness_results :
    (∃ t, exec .render { booted with bufBase := 1, bufCount := 2 } = .next t ∧ true = true) ∧
      (∃ t, exec (.pastep 0) booted = .next t ∧ true = true) ∧ (0 < 1 ∧ 1 + 2 ≤ 3) :=
  ⟨goesTo_spec (p := fun _ => true) (by decide +kernel),
    goesTo_spec (p := fun _ => true) (by decide +kernel), by decide⟩

/-- IllegalCommandsRaiseErrCmd. -/
theorem witness_illegal_command :
    (∃ s s', Accepts s (.writeReg 0x00 0x20030000) s' ∧ (0x20030000 : Word) ∉ legalWrites) ∧
      ∃ s : State, s.flag .configured = true :=
  ⟨⟨_, _, accepts_asked booted _, by decide⟩, ⟨booted, by decide⟩⟩

/-- GraphCommandsNeedAConstructedGraph. -/
theorem witness_graph_commands :
    (∃ (i : Instr) (s : State), i.wellFormed = true ∧ s.flag .configured = false ∧ i ≠ .nop ∧ i ≠ .init ∧
      i ≠ .psin ∧ i ≠ .exp2 ∧ i ≠ .wrap01) ∧
      ∃ i s t, i ∈ [Instr.nop, .init, .psin, .exp2, .wrap01] ∧ exec i s = .next t :=
  ⟨⟨.quadstep 2, fresh, by decide, by decide, by decide, by decide, by decide, by decide, by decide⟩,
    ⟨.nop, fresh, fresh, by decide, rfl⟩⟩

/-- InitRefusesARateNotAboveZero: a zero of either sign, the smallest negative, and a NaN. -/
theorem witness_init_refuses :
    fresh.flag .configured = false ∧ isZero fresh.sampleRate = true ∧
      isZero 0x8000000000000000 = true ∧ sign 0x8000000000000001 = true ∧ isNaN aNaN = true := by
  decide +kernel

/-- RenderPastTheBufferRaisesErrRange: one past the end. -/
theorem witness_render_range :
    ∃ s : State, s.flag .configured = true ∧ s.bufLen.toNat < s.bufBase.toNat + s.bufCount.toNat :=
  ⟨{ booted with bufBase := 4, bufCount := 1 }, by decide, by decide⟩

/-- InitLoadsTheConstructionValues and FirstGraphSampleIsDetermined. -/
theorem witness_init : ∃ s : State, s.flag .configured = false ∧ gt s.sampleRate 0 = true :=
  ⟨rated, by decide, by decide +kernel⟩

theorem isNaN_aNaN : isNaN aNaN = true := by decide +kernel

/-- ParabolicSineIsOdd. -/
theorem witness_nan_patterns : ∃ nan : Nat → Word, ∀ k, isNaN (nan k) = true :=
  ⟨fun _ => aNaN, fun _ => isNaN_aNaN⟩

theorem witness_psin_odd : isNaN (parabolicSine (fun _ => aNaN) one) = false := by decide +kernel

/-- PsinOfANonFiniteIsNaN. -/
theorem witness_psin_non_finite : ∃ s : State, isFinite s.arg0 = false :=
  ⟨{ fresh with arg0 := 0x7FF0000000000000 }, by decide +kernel⟩

/-- ParabolicSineIsAccurate, at `PI`, which lies below π. -/
theorem witness_psin_accurate :
    isFinite Config.pi = true ∧ |((toRat Config.pi : ℚ) : ℝ)| ≤ Real.pi := by
  have h : |toRat Config.pi| ≤ (3141592653589793 : ℚ) / 1000000000000000 + 12 / 10 ^ 17 := by
    decide +kernel
  refine ⟨by decide +kernel, ?_⟩
  have h' : ((|toRat Config.pi| : ℚ) : ℝ)
      ≤ ((3141592653589793 / 1000000000000000 + 12 / 10 ^ 17 : ℚ) : ℝ) := Rat.cast_le.mpr h
  rw [Rat.cast_abs] at h'
  have := Real.pi_gt_d20
  refine h'.trans (le_of_lt (lt_trans ?_ this))
  norm_num

/-- PsinAtMultiplesOfHalfPi: each operand can stand in `ARG0`. -/
theorem witness_psin_operand (x : Word) : ∃ s : State, s.arg0 = x := ⟨{ fresh with arg0 := x }, rfl⟩

/-- RoundHalfAwayIsNearestAwayFromZero, Exp2FractionIsExact, Wrap01LiesInTheUnitInterval,
AngleLiesBetweenMinusPiAndPi, SumsAreCorrectlyRounded and ProductsAndQuotientsAreCorrectlyRounded. -/
theorem witness_finite : ∃ a b : Word, isFinite a = true ∧ isFinite b = true ∧ isZero b = false :=
  ⟨0x8000000000000000, 0x7FEFFFFFFFFFFFFF, by decide +kernel, by decide +kernel, by decide +kernel⟩

/-- Exp2IsExactAtIntegers, at both ends of the range. -/
theorem witness_exp2_integers :
    (isFinite 0xC08FF00000000000 = true ∧ toRat 0xC08FF00000000000 = ((-1022 : Int) : ℚ)) ∧
      isFinite 0x408FF80000000000 = true ∧ toRat 0x408FF80000000000 = ((1023 : Int) : ℚ) := by
  decide +kernel

/-- Exp2IsAccurateInRange, at both ends of the range. -/
theorem witness_exp2_range :
    (isFinite 0xC08FE80000000000 = true ∧ toInt (roundHalfAway 0xC08FE80000000000) = -1021) ∧
      isFinite 0x408FF80000000000 = true ∧ toInt (roundHalfAway 0x408FF80000000000) = 1023 := by
  decide +kernel

/-- Wrap01IsTheRoundedFraction: 0.5 lies between integers, -1.0 is one. -/
theorem witness_wrap01 :
    (isFinite half = true ∧ toRat half ≠ ⌊toRat half⌋) ∧
      isFinite 0xBFF0000000000000 = true ∧ toRat 0xBFF0000000000000 = ⌊toRat 0xBFF0000000000000⌋ := by
  decide +kernel

/-- PastepRunsOnePhaseStep, TonestepWritesTheToneSample and QuadstepWritesBothSamples. -/
theorem witness_oscillator :
    booted.flag .configured = true ∧ oscOfSel 0 = some .osc1 ∧ oscOfSel 1 = some .osc2 ∧
      oscOfSel 2 = some .lfo := by decide

/-- IncrementIsBoundedByTheClamp. -/
theorem witness_increment :
    booted.flag .configured = true ∧ gt booted.sampleRate 0 = true ∧ oscOfSel 0 = some .osc1 ∧
      (∃ t, exec (.pastep 0) booted = .next t ∧ true = true) ∧
      (∃ t, exec (.tonestep 0) booted = .next t ∧ true = true) ∧
      ∃ t, exec (.quadstep 0) booted = .next t ∧ true = true :=
  ⟨by decide, by decide +kernel, rfl, goesTo_spec (p := fun _ => true) (by decide +kernel),
    goesTo_spec (p := fun _ => true) (by decide +kernel),
    goesTo_spec (p := fun _ => true) (by decide +kernel)⟩

/-- NaNPhaseStaysNaN. -/
theorem witness_nan_phase :
    (bootedWith .phase aNaN).flag .configured = true ∧ oscOfSel 0 = some .osc1 ∧
      isNaN ((bootedWith .phase aNaN).oscRec .osc1).phase = true := by decide +kernel

/-- The state of the next witness: the largest phase below 2. -/
def almostTwo : State := bootedWith .phase 0x3FFFFFFFFFFFFFFF

/-- PositiveStepsKeepThePhaseInRange, for each of the three commands. -/
theorem witness_positive_step :
    almostTwo.flag .configured = true ∧ oscOfSel 0 = some .osc1 ∧
      ge (almostTwo.oscRec .osc1).phase 0 = true ∧
      lt (almostTwo.oscRec .osc1).phase 0x4000000000000000 = true ∧
      ∀ c ∈ [Instr.pastep 0, .tonestep 0, .quadstep 0], ∃ t, exec c almostTwo = .next t ∧
        (gt (t.oscRec .osc1).inc 0 && le (t.oscRec .osc1).inc 0x3FEFFFFFFFFFFFFF) = true := by
  refine ⟨by decide, rfl, by decide +kernel, by decide +kernel, fun c hc => goesTo_spec ?_⟩
  revert c
  decide +kernel

/-- StepsDependOnlyOnTheirOscillator: two states that differ in osc2. -/
theorem witness_steps_depend :
    (∃ t, exec (.pastep 0) booted = .next t ∧ true = true) ∧
      (∃ t, exec (.pastep 0) { booted with osc2 := OscRec.reset } = .next t ∧ true = true) ∧
      ({ booted with osc2 := OscRec.reset } : State).oscRec .osc1 = booted.oscRec .osc1 ∧
      ({ booted with osc2 := OscRec.reset } : State).flag .configured = true :=
  ⟨goesTo_spec (p := fun _ => true) (by decide +kernel),
    goesTo_spec (p := fun _ => true) (by decide +kernel), rfl, by decide⟩

/-- GstepIsTheGraphSample. -/
theorem witness_configured : ∃ s : State, s.flag .configured = true := ⟨booted, by decide⟩

/-- RenderIsGstepsWithTheirSamplesCopied: the whole buffer, and no word past its end. -/
theorem witness_render_fits :
    (∃ s : State, s.flag .configured = true ∧ s.bufBase.toNat + s.bufCount.toNat ≤ s.bufLen.toNat) ∧
      (({ booted with bufBase := 4, bufCount := 0 } : State).bufBase.toNat + 0 ≤ booted.bufLen.toNat) :=
  ⟨⟨{ booted with bufBase := 0, bufCount := 4 }, by decide, by decide⟩, by decide⟩

/-- HostFreqModWritesAreLostInTheGraph, its second clause at one sample in the last word. -/
theorem witness_lost_writes :
    ∃ s : State, s.flag .configured = true ∧ s.bufCount ≠ 0 ∧
      s.bufBase.toNat + s.bufCount.toNat ≤ s.bufLen.toNat :=
  ⟨{ booted with bufBase := 3, bufCount := 1 }, by decide, by decide, by decide⟩

/-- RenderInTwoChunksIsRenderInOne. -/
theorem witness_two_chunks :
    ∃ (s : State) (a b : Word), s.flag .configured = true ∧
      s.bufBase.toNat + a.toNat + b.toNat ≤ s.bufLen.toNat :=
  ⟨booted, 1, 3, by decide, by decide⟩

/-- ComparisonsAreOrderedComparisons and InvalidOperationsProduceNaN. -/
theorem witness_nan : ∃ a nan : Word, isNaN a = true ∧ isNaN nan = true :=
  ⟨aNaN, 0xFFF0000000000001, by decide +kernel, by decide +kernel⟩

/-- ComparisonsAreOrderedComparisons, its clauses on operands that are no NaN: both infinities against each
other, themselves and 1.0, as 41_phase_accumulator.md R166 compares a stored phase. -/
theorem witness_infinities :
    isNaN 0x7FF0000000000000 = false ∧ isNaN 0xFFF0000000000000 = false ∧ isFinite one = true ∧
      ge 0x7FF0000000000000 one = true ∧ le 0xFFF0000000000000 0 = true ∧
      F64.eq 0x7FF0000000000000 0x7FF0000000000000 = true ∧
      F64.eq 0xFFF0000000000000 0x7FF0000000000000 = false := by decide +kernel

end Sys2Proof.Tests
end

section
/-! SUPPORT. The proofs of the obligations of 00_scope.md: one rounding (R3), the comparisons (R5) and the
operations that produce a NaN (R6). -/

namespace Sys2Proof.F64

open Sys2Proof.Machine

/-! ## One rounding (R3) -/

/-- The two zeros are finite values. -/
theorem isFinite_pack_zero (s : Bool) : isFinite (pack s 0) = true := by
  rw [isFinite_iff, mag_pack s (by norm_num)]
  norm_num [infMag]

theorem toRat_pack_zero (s : Bool) : toRat (pack s 0) = 0 := by
  rw [toRat_eq_zero, mag_pack s (by norm_num)]

/-- An integer is its sign and its absolute value, in the form that `isRounded_pack` takes. -/
theorem signed_natAbs (z : Int) :
    (if decide (z < 0) then -1 else 1) * ((z.natAbs : ℚ) / (1 : Nat)) = z := by
  rw [Nat.cast_one, div_one, Nat.cast_natAbs, Int.cast_abs]
  by_cases hz : z < 0
  · rw [if_pos (decide_eq_true hz), abs_of_neg (Int.cast_lt_zero.mpr hz)]
    ring
  · rw [if_neg (by simpa using hz), abs_of_nonneg (Int.cast_nonneg (not_lt.mp hz)), one_mul]

theorem toRat_add_toRat (a b : Word) :
    toRat a + toRat b = ((scaled a + scaled b : Int) : ℚ) / 2 ^ 1074 := by
  rw [toRat, toRat, Int.cast_add, add_div]

/-- The sum of finite values is rounded once. -/
theorem isRounded_addFinite (a b : Word) : IsRounded (toRat a + toRat b) (addFinite a b) := by
  by_cases h : scaled a + scaled b = 0
  · have hsum : toRat a + toRat b = toRat (addFinite a b) := by
      rw [toRat_add_toRat, h, addFinite_of_eq h, toRat_pack_zero, Int.cast_zero, zero_div]
    rw [hsum]
    refine isRounded_self ?_
    rw [addFinite_of_eq h]
    exact isFinite_pack_zero _
  · have hround := isRounded_pack (decide (scaled a + scaled b < 0)) (scaled a + scaled b).natAbs 1 one_pos
    rwa [← mul_div_assoc, signed_natAbs, ← toRat_add_toRat, ← addFinite_of_ne h] at hround

theorem signs_mul (s t : Bool) :
    (if (s != t) = true then (-1 : ℚ) else 1) = (if s then -1 else 1) * (if t then -1 else 1) := by
  cases s <;> cases t <;> norm_num

theorem signs_div (s t : Bool) :
    (if (s != t) = true then (-1 : ℚ) else 1) = (if s then -1 else 1) / (if t then -1 else 1) := by
  cases s <;> cases t <;> norm_num

theorem quantaOne_cast : (quantaOne : ℚ) = 2 ^ 1074 := by
  rw [quantaOne, Nat.cast_pow, Nat.cast_ofNat]

theorem toRat_mul_toRat (a b : Word) :
    toRat a * toRat b = (if sign a != sign b then -1 else 1) *
      (((quanta (mag a) * quanta (mag b) : Nat) : ℚ) / quantaOne / 2 ^ 1074) := by
  rw [toRat_eq, toRat_eq, quantaOne_cast, signs_mul, Nat.cast_mul, div_div, ← div_mul_div_comm]
  exact mul_mul_mul_comm _ _ _ _

theorem toRat_div_toRat (a b : Word) :
    toRat a / toRat b = (if sign a != sign b then -1 else 1) *
      (((quanta (mag a) * quantaOne : Nat) : ℚ) / quanta (mag b) / 2 ^ 1074) := by
  rw [toRat_eq, toRat_eq, ← quantaOne_cast, signs_div, Nat.cast_mul, mul_div_mul_comm]
  have hunit : (quantaOne : ℚ) ≠ 0 := Nat.cast_ne_zero.mpr quantaOne_pos.ne'
  rw [div_div_div_cancel_right₀ hunit, mul_div_right_comm, mul_div_cancel_right₀ _ hunit]

/-- The product of finite values is rounded once. -/
theorem isRounded_mul {a b : Word} (nan : Word) (ha : isFinite a = true) (hb : isFinite b = true) :
    IsRounded (toRat a * toRat b) (mul nan a b) := by
  rw [mul_finite nan ha hb, toRat_mul_toRat]
  exact isRounded_pack _ _ _ quantaOne_pos

/-- The quotient of finite values by one that is not zero is rounded once. -/
theorem isRounded_div {a b : Word} (nan : Word) (ha : isFinite a = true) (hb : isFinite b = true)
    (h0 : isZero b = false) : IsRounded (toRat a / toRat b) (div nan a b) := by
  have hpos : 0 < quanta (mag b) := quanta_pos (Nat.pos_of_ne_zero (of_decide_eq_false h0))
  rw [div_finite nan ha hb h0, toRat_div_toRat]
  exact isRounded_pack _ _ _ hpos

/-- Settles O56: a difference is the sum with the negated operand, and a sum is one rounding. -/
theorem sumsAreCorrectlyRounded : Obligations.SumsAreCorrectlyRounded := by
  intro nan a b ha hb
  have hb' : isFinite (neg b) = true := by rwa [isFinite_neg]
  refine ⟨?_, ?_⟩
  · rw [add_finite nan ha hb]
    exact isRounded_addFinite a b
  · rw [sub, add_finite nan ha hb', sub_eq_add_neg, ← toRat_neg]
    exact isRounded_addFinite a (neg b)

/-- Settles O57. -/
theorem productsAndQuotientsAreCorrectlyRounded : Obligations.ProductsAndQuotientsAreCorrectlyRounded :=
  fun nan _ _ ha hb => ⟨isRounded_mul nan ha hb, isRounded_div nan ha hb⟩

/-! ## Comparisons (R5) -/

theorem place_of_isFinite {w : Word} (h : isFinite w = true) :
    place w = ((toRat w : WithTop ℚ) : WithBot (WithTop ℚ)) := by
  simp [place, isInf_false_of_isFinite h]

/-- Where a pattern that is no NaN lies, by its place and by its key: inside the line, at its lower or at its
upper end. -/
theorem place_cases {w : Word} (h : isNaN w = false) :
    (place w = ((toRat w : WithTop ℚ) : WithBot (WithTop ℚ)) ∧ -infMag < key w ∧ key w < infMag) ∨
      (place w = ⊥ ∧ key w = -infMag) ∨ (place w = ⊤ ∧ key w = infMag) := by
  rcases isNaN_or_isInf_or_isFinite w with hn | hi | hf
  · simp [h] at hn
  · have hm := (isInf_iff w).mp hi
    cases hs : sign w
    · exact .inr (.inr (by simp [place, key, hi, hs, hm]))
    · exact .inr (.inl (by simp [place, key, hi, hs, hm]))
  · have hm := (isFinite_iff w).mp hf
    refine .inl ⟨place_of_isFinite hf, ?_⟩
    unfold key
    split <;> constructor <;> omega

/-- The order of the patterns that are no NaN is the order of their places. -/
theorem key_lt_key_iff_place {a b : Word} (ha : isNaN a = false) (hb : isNaN b = false) :
    key a < key b ↔ place a < place b := by
  have hinf : 0 < infMag := by norm_num [infMag]
  rcases place_cases ha with ⟨pa, la, ua⟩ | ⟨pa, ka⟩ | ⟨pa, ka⟩ <;>
    rcases place_cases hb with ⟨pb, lb, ub⟩ | ⟨pb, kb⟩ | ⟨pb, kb⟩ <;> rw [pa, pb]
  · rw [WithBot.coe_lt_coe, WithTop.coe_lt_coe, key_lt_key, scaled_lt_scaled]
  · exact iff_of_false (by omega) not_lt_bot
  · exact iff_of_true (by omega) (WithBot.coe_lt_coe.mpr (WithTop.coe_lt_top _))
  · exact iff_of_true (by omega) (WithBot.bot_lt_coe _)
  · exact iff_of_false (by omega) not_lt_bot
  · exact iff_of_true (by omega) bot_lt_top
  · exact iff_of_false (by omega) not_top_lt
  · exact iff_of_false (by omega) not_top_lt
  · exact iff_of_false (by omega) not_top_lt

theorem lt_iff_place {a b : Word} (ha : isNaN a = false) (hb : isNaN b = false) :
    lt a b = true ↔ place a < place b := by
  simp [lt, ha, hb, key_lt_key_iff_place]

theorem le_iff_place {a b : Word} (ha : isNaN a = false) (hb : isNaN b = false) :
    le a b = true ↔ place a ≤ place b := by
  rw [← not_lt, ← key_lt_key_iff_place hb ha]
  simp [le, ha, hb]

/-- Equality is `≤` both ways, for NaNs too. -/
theorem eq_iff_le_and_le (a b : Word) : F64.eq a b = true ↔ le a b = true ∧ le b a = true := by
  have hkey : key a = key b ↔ key a ≤ key b ∧ key b ≤ key a := le_antisymm_iff
  simp only [F64.eq, le, Bool.and_eq_true, decide_eq_true_eq, hkey]
  tauto

/-- Comparisons of operands that are no NaN compare their places. -/
theorem comparisons_iff_place {a b : Word} (ha : isNaN a = false) (hb : isNaN b = false) :
    (lt a b = true ↔ place a < place b) ∧ (le a b = true ↔ place a ≤ place b) ∧
      (gt a b = true ↔ place b < place a) ∧ (ge a b = true ↔ place b ≤ place a) ∧
      (F64.eq a b = true ↔ place a = place b) := by
  refine ⟨lt_iff_place ha hb, le_iff_place ha hb, lt_iff_place hb ha, le_iff_place hb ha, ?_⟩
  rw [eq_iff_le_and_le, le_iff_place ha hb, le_iff_place hb ha, le_antisymm_iff]

/-- Comparisons of finite operands compare their values. -/
theorem comparisons_iff_toRat {a b : Word} (ha : isFinite a = true) (hb : isFinite b = true) :
    (lt a b = true ↔ toRat a < toRat b) ∧ (le a b = true ↔ toRat a ≤ toRat b) ∧
      (gt a b = true ↔ toRat b < toRat a) ∧ (ge a b = true ↔ toRat b ≤ toRat a) ∧
      (F64.eq a b = true ↔ toRat a = toRat b) := by
  have h := comparisons_iff_place (isNaN_false_of_isFinite ha) (isNaN_false_of_isFinite hb)
  simpa only [place_of_isFinite ha, place_of_isFinite hb, WithBot.coe_lt_coe, WithTop.coe_lt_coe,
    WithBot.coe_le_coe, WithTop.coe_le_coe, WithBot.coe_inj, WithTop.coe_inj] using h

/-- Comparisons with a NaN are false. -/
theorem comparisons_nan {a b : Word} (h : isNaN a = true ∨ isNaN b = true) :
    lt a b = false ∧ le a b = false ∧ gt a b = false ∧ ge a b = false ∧ F64.eq a b = false := by
  rcases h with h | h
  · exact ⟨lt_nan_left b h, le_nan_left b h, lt_nan_right b h, le_nan_right b h, by simp [F64.eq, h]⟩
  · exact ⟨lt_nan_right a h, le_nan_right a h, lt_nan_left a h, le_nan_left a h, by simp [F64.eq, h]⟩

/-- A finite value lies between the two infinities. -/
theorem finite_between_infinities {a : Word} (h : isFinite a = true) :
    lt a 0x7FF0000000000000 = true ∧ lt 0xFFF0000000000000 a = true := by
  have ha := isNaN_false_of_isFinite h
  have htop : place 0x7FF0000000000000 = ⊤ := if_pos (by decide)
  have hbot : place 0xFFF0000000000000 = ⊥ := if_pos (by decide)
  rw [lt_iff_place ha (by decide), lt_iff_place (by decide) ha, htop, hbot, place_of_isFinite h]
  exact ⟨WithBot.coe_lt_coe.mpr (WithTop.coe_lt_top _), WithBot.bot_lt_coe _⟩

/-- Settles O58: a NaN fails every comparison, and the others follow from the order of the places. -/
theorem comparisonsAreOrderedComparisons : Obligations.ComparisonsAreOrderedComparisons :=
  ⟨fun _ _ => comparisons_nan, fun _ _ => comparisons_iff_toRat, fun _ => finite_between_infinities,
    fun _ _ => comparisons_iff_place, by decide⟩

/-! ## The operations that produce a NaN (R6) -/

theorem isNaN_pack_of_le (s : Bool) {m : Nat} (h : m ≤ infMag) : isNaN (pack s m) = false := by
  rw [isNaN, mag_pack s (h.trans_lt infMag_lt)]
  exact decide_eq_false (not_lt.mpr h)

theorem isNaN_false_of_isInf {w : Word} (h : isInf w = true) : isNaN w = false := by
  rw [isInf_iff] at h
  exact decide_eq_false h.not_gt

theorem isZero_false_of_isInf {w : Word} (h : isInf w = true) : isZero w = false := by
  rw [isInf_iff] at h
  rw [isZero, h]
  decide

/-- The sum is a NaN for a NaN operand and for infinities of opposite signs. -/
theorem isNaN_add {nan : Word} (hnan : isNaN nan = true) (a b : Word) :
    isNaN (add nan a b) = true ↔ isNaN a = true ∨ isNaN b = true ∨
      (isInf a = true ∧ isInf b = true ∧ sign a ≠ sign b) := by
  rcases isNaN_or_isInf_or_isFinite a with ha | ha | ha
  · simp [add, ha, hnan]
  · rcases isNaN_or_isInf_or_isFinite b with hb | hb | hb
    · simp [add, hb, hnan]
    · by_cases hs : sign a = sign b <;> simp [add, isNaN_false_of_isInf, ha, hb, hs, hnan]
    · simp [add, isNaN_false_of_isInf, isNaN_false_of_isFinite, isInf_false_of_isFinite, ha, hb]
  · rcases isNaN_or_isInf_or_isFinite b with hb | hb | hb
    · simp [add, hb, hnan]
    · simp [add, isNaN_false_of_isInf, isNaN_false_of_isFinite, isInf_false_of_isFinite, ha, hb]
    · rw [add_finite nan ha hb]
      simp [isNaN_addFinite, isNaN_false_of_isFinite, isInf_false_of_isFinite, ha, hb]

/-- The product is a NaN for a NaN operand and for a zero times an infinity. -/
theorem isNaN_mul {nan : Word} (hnan : isNaN nan = true) (a b : Word) :
    isNaN (mul nan a b) = true ↔ isNaN a = true ∨ isNaN b = true ∨
      (isInf a = true ∧ isZero b = true) ∨ (isZero a = true ∧ isInf b = true) := by
  have hinf : ∀ s, isNaN (pack s infMag) = false := fun s => isNaN_pack_of_le s le_rfl
  rcases isNaN_or_isInf_or_isFinite a with ha | ha | ha
  · simp [mul, ha, hnan]
  · have hza := isZero_false_of_isInf ha
    rcases isNaN_or_isInf_or_isFinite b with hb | hb | hb
    · simp [mul, hb, hnan]
    · simp [mul, isNaN_false_of_isInf, isZero_false_of_isInf, ha, hb, hinf]
    · cases hz : isZero b <;>
        simp [mul, isNaN_false_of_isInf, isNaN_false_of_isFinite, ha, hb, hza, hz, hnan, hinf]
  · rcases isNaN_or_isInf_or_isFinite b with hb | hb | hb
    · simp [mul, hb, hnan]
    · have hzb := isZero_false_of_isInf hb
      cases hz : isZero a <;>
        simp [mul, isNaN_false_of_isInf, isNaN_false_of_isFinite, ha, hb, hzb, hz, hnan, hinf]
    · rw [mul_finite nan ha hb]
      simp [isNaN_pack_roundMag, isNaN_false_of_isFinite, isInf_false_of_isFinite, ha, hb]

/-- The quotient is a NaN for a NaN operand, for two infinities and for two zeros. -/
theorem isNaN_div {nan : Word} (hnan : isNaN nan = true) (a b : Word) :
    isNaN (div nan a b) = true ↔ isNaN a = true ∨ isNaN b = true ∨
      (isInf a = true ∧ isInf b = true) ∨ (isZero a = true ∧ isZero b = true) := by
  have hinf : ∀ s, isNaN (pack s infMag) = false := fun s => isNaN_pack_of_le s le_rfl
  have hzero : ∀ s, isNaN (pack s 0) = false := fun s => isNaN_pack_of_le s (Nat.zero_le _)
  rcases isNaN_or_isInf_or_isFinite a with ha | ha | ha
  · simp [div, ha, hnan]
  · have hza := isZero_false_of_isInf ha
    rcases isNaN_or_isInf_or_isFinite b with hb | hb | hb
    · simp [div, hb, hnan]
    · simp [div, isNaN_false_of_isInf, ha, hb, hnan]
    · simp [div, isNaN_false_of_isInf, isNaN_false_of_isFinite, isInf_false_of_isFinite, ha, hb, hza, hinf]
  · rcases isNaN_or_isInf_or_isFinite b with hb | hb | hb
    · simp [div, hb, hnan]
    · simp [div, isNaN_false_of_isInf, isNaN_false_of_isFinite, isInf_false_of_isFinite,
        isZero_false_of_isInf, ha, hb, hzero]
    · cases hzb : isZero b
      · rw [div_finite nan ha hb hzb]
        simp [isNaN_pack_roundMag, isNaN_false_of_isFinite, isInf_false_of_isFinite, ha, hb]
      · cases hza : isZero a <;>
          simp [div, isNaN_false_of_isFinite, isInf_false_of_isFinite, ha, hb, hza, hzb, hnan, hinf]

/-- Settles O59: each operation by the classes of its operands, and the block's own patterns are NaNs. -/
theorem invalidOperationsProduceNaN : Obligations.InvalidOperationsProduceNaN :=
  ⟨fun _ a b hnan => ⟨isNaN_add hnan a b, isNaN_mul hnan a b, isNaN_div hnan a b⟩, isNaN_openValues_nan⟩

end Sys2Proof.F64
end

section
/-! SUPPORT. The proofs of the obligations of 10_state.md: what a command, a transaction and a step can do is
said once, as an inductive, and the invariant and the frames follow from it case by case. -/

namespace Sys2Proof.Machine

open F64

/-! ## What a command can do -/

/-- The oscillator commands, each with the step it runs (41_phase_accumulator.md R175, 42_oscillators.md R194,
R197). -/
inductive StepCommand : (BitVec 4 → Instr) → OscStep → Prop
  | pastep : StepCommand .pastep paStep
  | tonestep : StepCommand .tonestep toneStep
  | quadstep : StepCommand .quadstep quadStep

theorem exec_stepCommand {c : BitVec 4 → Instr} {f : OscStep} (hc : StepCommand c f) (sel : BitVec 4)
    (s : State) : exec (c sel) s = onOscillator sel f s := by
  cases hc <;> rfl

theorem exists_stepCommand {c : BitVec 4 → Instr}
    (hc : c = Instr.pastep ∨ c = Instr.tonestep ∨ c = Instr.quadstep) : ∃ f, StepCommand c f := by
  rcases hc with rfl | rfl | rfl
  · exact ⟨_, .pastep⟩
  · exact ⟨_, .tonestep⟩
  · exact ⟨_, .quadstep⟩

/-- What command `i` can make of `s`, as far as frames and the invariant need it: the values that PSIN, EXP2
and WRAP01 compute are left open. -/
inductive CommandDoes (s : State) : Instr → State → Prop
  | nop : CommandDoes s .nop s
  | raise {i : Instr} {b : StatusBit} (hb : b ≠ .configured) :
      CommandDoes s i (s.setStatus (withBit b s.status))
  | init (hrate : gt s.sampleRate 0 = true) :
      CommandDoes s .init ((s.construct.setMixOut 0).setStatus (withBit .configured s.status))
  | psin (w : Word) : CommandDoes s .psin (s.setResult0 w).tick
  | exp2 (r : Exp2Result) : CommandDoes s .exp2 (s.putExp2 r)
  | wrap01 (w : Word) : CommandDoes s .wrap01 (s.setResult0 w).tick
  | oscStep {c : BitVec 4 → Instr} {f : OscStep} (hc : StepCommand c f) (sel : BitVec 4) (j : Osc) :
      CommandDoes s (c sel) (s.stepOsc Config.openValues j f)
  | gstep : CommandDoes s .gstep (s.graphSample Config.openValues)
  | render (hfits : s.bufBase.toNat + s.bufCount.toNat ≤ s.bufLen.toNat) :
      CommandDoes s .render (s.renderLoop Config.openValues s.bufCount.toNat s.bufBase.toNat)

/-- The configured check lets the command through or raises `ERR_NOT_CFG` (60_exceptions.md R302). -/
theorem whenConfigured_cases {s t : State} {r : Result} (h : whenConfigured s r = .next t) :
    r = .next t ∨ t = s.setStatus (withBit .errNotCfg s.status) := by
  cases hc : s.flag .configured
  · rw [whenConfigured_notConfigured hc] at h
    exact .inr (Host.Outcome.next.inj h).symm
  · rw [whenConfigured_configured hc] at h
    exact .inl h

theorem CommandDoes.of_stepCommand {c : BitVec 4 → Instr} {f : OscStep} (hc : StepCommand c f)
    {sel : BitVec 4} {s t : State} (h : exec (c sel) s = .next t) : CommandDoes s (c sel) t := by
  rw [exec_stepCommand hc] at h
  rcases onOscillator_cases sel f s with ⟨-, h'⟩ | ⟨_, -, -, h'⟩ | ⟨j, -, -, h'⟩ <;>
    rw [h'] at h <;> cases h
  · exact .raise (by decide)
  · exact .raise (by decide)
  · exact .oscStep hc sel j

/-- Every command does one of the listed things. -/
theorem commandDoes_of_exec {i : Instr} {s t : State} (h : exec i s = .next t) : CommandDoes s i t := by
  cases i with
  | nop => cases h; exact .nop
  | init =>
    simp only [exec, execInit] at h
    split at h
    · cases h; exact .raise (by decide)
    · split at h <;> cases h
      · exact .raise (by decide)
      · rename_i hrate
        exact .init (by simpa using hrate)
  | psin => cases h; exact .psin _
  | exp2 => cases h; exact .exp2 _
  | wrap01 => cases h; exact .wrap01 _
  | pastep sel => exact .of_stepCommand .pastep h
  | tonestep sel => exact .of_stepCommand .tonestep h
  | quadstep sel => exact .of_stepCommand .quadstep h
  | gstep =>
    rcases whenConfigured_cases h with hr | rfl
    · obtain rfl := Host.Outcome.next.inj hr
      exact .gstep
    · exact .raise (by decide)
  | render =>
    rcases whenConfigured_cases h with hr | rfl
    · split at hr
      next hfits =>
        obtain rfl := Host.Outcome.next.inj hr
        exact .render (of_decide_eq_true hfits)
      next =>
        obtain rfl := Host.Outcome.next.inj hr
        exact .raise (by decide)
    · exact .raise (by decide)

/-! ## What a transaction and a step can do -/

/-- What the transaction `op` can make of `s`, as far as frames and the invariant need it: a reset is told apart
from the other transactions, and which of them reads, stores or runs a command is left open. -/
inductive TransactionDoes (s : State) : HostOp → State → Prop
  | answer {op : HostOp} (w : Word) : TransactionDoes s op (s.setReply (some w))
  | raise {op : HostOp} {b : StatusBit} (hb : b ≠ .configured) :
      TransactionDoes s op (s.setStatus (withBit b s.status))
  | answerAndRaise {op : HostOp} (w : Word) {b : StatusBit} (hb : b ≠ .configured) :
      TransactionDoes s op ((s.setReply (some w)).setStatus (withBit b s.status))
  | command {op : HostOp} {i : Instr} {t : State} (h : exec i s = .next t) : TransactionDoes s op t
  | store {op : HostOp} {r : Reg} (hr : s.writable r = true) (v : Word) :
      TransactionDoes s op (s.storeReg r v)
  | writeBuf {op : HostOp} {k : Nat} (hk : k < s.bufLen.toNat) (v : Word) :
      TransactionDoes s op (s.setBuffer (s.buffer.write k v))
  | reset : TransactionDoes s .reset s.resetBlock

theorem TransactionDoes.of_writeCommand {op : HostOp} {v : Word} {s t : State}
    (h : writeCommand v s = .next t) : TransactionDoes s op t := by
  unfold writeCommand at h
  split at h
  · cases h; exact .raise (by decide)
  · exact .command h

/-- Every transaction of the host that does not fault does one of the listed things. -/
theorem transactionDoes_of_hostOp {op : HostOp} {s t : State} (h : hostOp op s = .next t) :
    TransactionDoes s op t := by
  cases op with
  | readReg j => cases h; exact .answer _
  | writeReg j v =>
    simp only [hostOp, hostWriteReg] at h
    split at h
    · exact .of_writeCommand h
    · rcases hostStoreReg_cases j v s with h' | ⟨r, -, hr, h'⟩ <;> rw [h'] at h <;> cases h
      · exact .raise (by decide)
      · exact .store hr v
  | readBuf k =>
    simp only [hostOp, hostReadBuf] at h
    split at h
    · split at h <;> cases h
      exact .answer _
    · cases h; exact .answerAndRaise 0 (by decide)
  | writeBuf k v =>
    simp only [hostOp, hostWriteBuf] at h
    split at h <;> cases h
    · rename_i hk
      exact .writeBuf hk v
    · exact .raise (by decide)
  | reset => cases h; exact .reset

/-- A step is idle, or does what the first transaction pending does. -/
theorem step_does {s t : State} (h : step s = .next t) :
    t = s ∨ ∃ op rest, s.pending = op :: rest ∧ TransactionDoes (s.accept rest) op t := by
  rcases step_cases h with ⟨-, rfl⟩ | ⟨op, rest, hp, hop⟩
  · exact .inl rfl
  · exact .inr ⟨op, rest, hp, transactionDoes_of_hostOp hop⟩

/-- With no transaction pending a step is idle (10_state.md R20). -/
theorem step_of_pending_nil {s : State} (h : s.pending = []) : step s = .next s := by
  simp [step, nextTransaction, h]

/-! ## A store to a register the host may write -/

section
variable (r : Reg) (v : Word) (s : State)

@[simp] theorem State.storeReg_status : (s.storeReg r v).status = s.status := by
  cases r <;> simp [State.storeReg]
@[simp] theorem State.storeReg_buffer : (s.storeReg r v).buffer = s.buffer := by
  cases r <;> simp [State.storeReg]
@[simp] theorem State.storeReg_bufLen : (s.storeReg r v).bufLen = s.bufLen := by
  cases r <;> simp [State.storeReg]
@[simp] theorem State.storeReg_flag (b : StatusBit) : (s.storeReg r v).flag b = s.flag b := by
  simp [State.flag]
end

theorem State.storeReg_sampleRate {r : Reg} (h : r ≠ .sampleRate) (v : Word) (s : State) :
    (s.storeReg r v).sampleRate = s.sampleRate := by
  cases r with
  | sampleRate => exact absurd rfl h
  | osc i f => simp [State.storeReg]
  | _ => rfl

/-- `SAMPLE_RATE` is read-only once the graph is constructed (10_state.md R22). -/
theorem State.ne_sampleRate_of_writable {s : State} {r : Reg} (hr : s.writable r = true)
    (hc : s.flag .configured = true) : r ≠ .sampleRate := by
  rintro rfl
  simp [State.writable, Reg.access, hc] at hr

/-- The host may not write `WRAP` (10_state.md R37), so a store leaves every wrap flag alone. -/
theorem State.storeReg_wrap {s : State} {r : Reg} (hr : s.writable r = true) (v : Word) (i : Osc) :
    ((s.storeReg r v).oscRec i).wrap = (s.oscRec i).wrap := by
  cases r with
  | osc j f =>
    have hf : Field.wrap ≠ f := by
      rintro rfl
      cases hr
    rw [State.storeReg, State.oscRec_setOsc]
    split
    · subst i
      exact (OscRec.get_set _ f .wrap v).trans (if_neg hf)
    · rfl
  | _ => simp [State.storeReg]

/-! ## Every step keeps the invariant -/

/-- Every step of an oscillator leaves a wrap flag of 0 or 1 (41_phase_accumulator.md R167). -/
theorem StepCommand.wrapOk {c : BitVec 4 → Instr} {f : OscStep} (hc : StepCommand c f) (v : OpenValues)
    (t : Nat) (sr : Word) (o : OscRec) : (f v t sr o).osc.wrapOk := by
  cases hc <;> exact wrapWord_cases _

theorem State.setStatus_withBit_flag_of_ne (s : State) {b c : StatusBit} (h : c ≠ b) :
    (s.setStatus (withBit b s.status)).flag c = s.flag c := by
  rw [State.setStatus_withBit_flag, decide_eq_false h, Bool.or_false, State.flag]

theorem State.Inv.raise {s : State} {b : StatusBit} (h : s.Inv) (hb : b ≠ .configured) :
    (s.setStatus (withBit b s.status)).Inv := by
  obtain ⟨hstatus, hwrap, hrate, hbuffer⟩ := h
  refine ⟨withBit_reserved b _ hstatus, by simpa using hwrap, fun hc => hrate ?_, hbuffer⟩
  rwa [s.setStatus_withBit_flag_of_ne hb.symm] at hc

theorem State.Inv.raiseIf {s : State} {b : StatusBit} (h : s.Inv) (hb : b ≠ .configured) (x : Bool) :
    (s.setStatus (withBitIf x b s.status)).Inv := by
  cases x
  · exact h
  · exact h.raise hb

theorem State.Inv.setOsc {s : State} {r : OscRec} (h : s.Inv) (hr : r.wrapOk) (i : Osc) :
    (s.setOsc i r).Inv := by
  obtain ⟨hstatus, hwrap, hrate, hbuffer⟩ := h
  refine ⟨by simpa using hstatus, fun j => ?_, by simpa using hrate, by simpa using hbuffer⟩
  rw [State.oscRec_setOsc]
  split
  · exact hr
  · exact hwrap j

theorem State.Inv.construct {s : State} (h : s.Inv) : s.construct.Inv :=
  ((h.setOsc (.inl rfl) .osc1).setOsc (.inl rfl) .osc2).setOsc (.inl rfl) .lfo

theorem State.Inv.setMixOut {s : State} (h : s.Inv) (w : Word) : (s.setMixOut w).Inv := h

/-- INIT checks the rate before it sets `CONFIGURED` (43_synth_graph.md R222, R223). -/
theorem State.Inv.setConfigured {s : State} (h : s.Inv) (hrate : gt s.sampleRate 0 = true) :
    (s.setStatus (withBit .configured s.status)).Inv := by
  obtain ⟨hstatus, hwrap, -, hbuffer⟩ := h
  exact ⟨withBit_reserved _ _ hstatus, by simpa using hwrap, fun _ => hrate, hbuffer⟩

theorem State.Inv.stepOsc {s : State} {c : BitVec 4 → Instr} {f : OscStep} (h : s.Inv)
    (hc : StepCommand c f) (v : OpenValues) (i : Osc) : (s.stepOsc v i f).Inv := by
  have hset := h.setOsc (hc.wrapOk v s.draws s.sampleRate (s.oscRec i)) i
  have hraise := hset.raiseIf (b := .exp2Oor) (by decide) (f v s.draws s.sampleRate (s.oscRec i)).outOfRange
  rwa [State.setOsc_keeps_status] at hraise

theorem State.Inv.feedLfo {s : State} (h : s.Inv) : s.feedLfo.Inv := by
  have ⟨_, hwrap, _⟩ := h
  exact (h.setOsc (r := { s.osc1 with freqMod := s.lfo.out }) (hwrap .osc1) .osc1).setOsc
    (r := { s.osc2 with freqMod := s.lfo.out }) (hwrap .osc2) .osc2

theorem State.Inv.putMix {s : State} (h : s.Inv) (v : OpenValues) : (s.putMix v).Inv := h

theorem State.Inv.graphSample {s : State} (h : s.Inv) (v : OpenValues) : (s.graphSample v).Inv := by
  unfold State.graphSample
  have hlfo := (h.stepOsc .quadstep v .lfo).feedLfo
  exact ((hlfo.stepOsc .tonestep v .osc1).stepOsc .tonestep v .osc2).putMix v

theorem State.Inv.writeBuffer {s : State} {k : Nat} (h : s.Inv) (hk : k < s.bufLen.toNat) (w : Word) :
    (s.setBuffer (s.buffer.write k w)).Inv := by
  obtain ⟨hstatus, hwrap, hrate, hwf, hbelow, hlen⟩ := h
  exact ⟨hstatus, by simpa using hwrap, hrate, Memory.wf_write _ _ _ hwf,
    Memory.below_write _ _ _ _ hk hbelow, hlen⟩

theorem State.Inv.renderLoop {s : State} {n k : Nat} (h : s.Inv) (v : OpenValues)
    (hfits : k + n ≤ s.bufLen.toNat) : (s.renderLoop v n k).Inv := by
  refine (State.renderLoop_induction v (fun t => t.Inv ∧ t.bufLen = s.bufLen) k (k + n) ?_ ?_ n k s
    le_rfl le_rfl ⟨h, rfl⟩).1
  · rintro t ⟨ht, hlen⟩
    obtain ⟨-, -, -, -, hsame, -, -⟩ := t.graphSample_hostSide v
    exact ⟨ht.graphSample v, hsame.trans hlen⟩
  · rintro t j w - hj ⟨ht, hlen⟩
    exact ⟨ht.writeBuffer (by rw [hlen]; omega) w, hlen⟩

theorem State.Inv.exec {s t : State} {i : Instr} (h : s.Inv) (hexec : exec i s = .next t) : t.Inv := by
  cases commandDoes_of_exec hexec with
  | nop => exact h
  | raise hb => exact h.raise hb
  | init hrate => exact (h.construct.setMixOut 0).setConfigured hrate
  | psin w => exact h
  | exp2 r => exact h.raiseIf (by decide) r.outOfRange
  | wrap01 w => exact h
  | oscStep hc sel j => exact h.stepOsc hc _ j
  | gstep => exact h.graphSample _
  | render hfits => exact h.renderLoop _ hfits

theorem State.Inv.storeReg {s : State} {r : Reg} (h : s.Inv) (hr : s.writable r = true) (v : Word) :
    (s.storeReg r v).Inv := by
  obtain ⟨hstatus, hwrap, hrate, hbuffer⟩ := h
  refine ⟨by simpa using hstatus, fun i => ?_, fun hc => ?_, by simpa using hbuffer⟩
  · rw [OscRec.wrapOk, State.storeReg_wrap hr]
    exact hwrap i
  · rw [State.storeReg_flag] at hc
    rw [State.storeReg_sampleRate (State.ne_sampleRate_of_writable hr hc)]
    exact hrate hc

theorem State.reset_oscRec (i : Osc) : State.reset.oscRec i = OscRec.reset := by
  cases i <;> rfl

@[simp] theorem State.resetBlock_status (s : State) : s.resetBlock.status = 0 := rfl

theorem State.resetBlock_oscRec (s : State) (i : Osc) : s.resetBlock.oscRec i = OscRec.reset := by
  cases i <;> rfl

/-- Every register of `resetBlock` but `BUF_LEN` stands at its reset value (70_reset_and_hazards.md R340), so
all that the invariant asks is a buffer of at least one word. -/
theorem State.inv_resetBlock {s : State} (h : 1 ≤ s.bufLen.toNat) : s.resetBlock.Inv := by
  refine ⟨by simp, fun i => .inl ?_, fun hc => ?_, rfl, rfl, h⟩
  · rw [State.resetBlock_oscRec, OscRec.reset]
  · simp [State.flag] at hc

theorem TransactionDoes.inv {s t : State} {op : HostOp} (hdoes : TransactionDoes s op t) (h : s.Inv) :
    t.Inv := by
  cases hdoes with
  | answer w => exact h
  | raise hb => exact h.raise hb
  | answerAndRaise w hb => exact h.raise hb
  | command hexec => exact h.exec hexec
  | store hr v => exact h.storeReg hr v
  | writeBuf hk v => exact h.writeBuffer hk v
  | reset =>
    obtain ⟨-, -, -, -, -, hlen⟩ := h
    exact State.inv_resetBlock hlen

/-- Settles O16: the invariant does not read the queue or the host's last word, and each thing that a
transaction can do keeps it. -/
theorem everyStepKeepsTheInvariant : Obligations.EveryStepKeepsTheInvariant := by
  intro s t h hstep
  rcases step_does hstep with rfl | ⟨op, rest, -, hdoes⟩
  · exact h
  · exact hdoes.inv h

/-! ## The STATUS bits are sticky (10_state.md R24) -/

/-- Every `STATUS` bit set in `s` is set in `t`. -/
def KeepsFlags (s t : State) : Prop := ∀ b, s.flag b = true → t.flag b = true

theorem KeepsFlags.refl (s : State) : KeepsFlags s s := fun _ h => h

theorem KeepsFlags.trans {s t u : State} (h : KeepsFlags s t) (h' : KeepsFlags t u) : KeepsFlags s u :=
  fun b hb => h' b (h b hb)

theorem State.setStatus_withBit_keepsFlags (s : State) (b : StatusBit) :
    KeepsFlags s (s.setStatus (withBit b s.status)) := fun c hc => by
  rw [State.setStatus_withBit_flag]
  exact Bool.or_eq_true_iff.mpr (.inl hc)

theorem State.setStatus_withBitIf_keepsFlags (s : State) (x : Bool) (b : StatusBit) :
    KeepsFlags s (s.setStatus (withBitIf x b s.status)) := by
  cases x
  · exact KeepsFlags.refl s
  · exact s.setStatus_withBit_keepsFlags b

theorem State.stepOsc_keepsFlags (s : State) (v : OpenValues) (i : Osc) (f : OscStep) :
    KeepsFlags s (s.stepOsc v i f) := fun b hb => by
  rw [State.stepOsc_flag, hb, Bool.true_or]

theorem State.feedLfo_keepsFlags (s : State) : KeepsFlags s s.feedLfo := KeepsFlags.refl s

theorem State.putMix_keepsFlags (s : State) (v : OpenValues) : KeepsFlags s (s.putMix v) :=
  KeepsFlags.refl s

theorem State.graphSample_keepsFlags (s : State) (v : OpenValues) : KeepsFlags s (s.graphSample v) :=
  (s.stepOsc_keepsFlags v .lfo quadStep).trans <|
    (State.feedLfo_keepsFlags _).trans <|
      (State.stepOsc_keepsFlags _ v .osc1 toneStep).trans <|
        (State.stepOsc_keepsFlags _ v .osc2 toneStep).trans (State.putMix_keepsFlags _ v)

theorem State.renderLoop_keepsFlags (s : State) (v : OpenValues) (n k : Nat) :
    KeepsFlags s (s.renderLoop v n k) :=
  State.renderLoop_induction v (KeepsFlags s) k (k + n) (fun t h => h.trans (t.graphSample_keepsFlags v))
    (fun _ _ _ _ _ h => h) n k s le_rfl le_rfl (KeepsFlags.refl s)

/-- Construction leaves `STATUS` alone; INIT sets `CONFIGURED` after it. -/
theorem State.construct_setMixOut_keepsFlags (s : State) : KeepsFlags s (s.construct.setMixOut 0) :=
  KeepsFlags.refl s

theorem exec_keepsFlags {i : Instr} {s t : State} (h : exec i s = .next t) : KeepsFlags s t := by
  cases commandDoes_of_exec h with
  | nop => exact KeepsFlags.refl s
  | raise hb => exact s.setStatus_withBit_keepsFlags _
  | init hrate => exact s.construct_setMixOut_keepsFlags.trans (State.setStatus_withBit_keepsFlags _ _)
  | psin w => exact KeepsFlags.refl s
  | exp2 r => exact s.setStatus_withBitIf_keepsFlags r.outOfRange .exp2Oor
  | wrap01 w => exact KeepsFlags.refl s
  | oscStep hc sel j => exact s.stepOsc_keepsFlags _ j _
  | gstep => exact s.graphSample_keepsFlags _
  | render hfits => exact s.renderLoop_keepsFlags _ _ _

theorem TransactionDoes.keepsFlags {s t : State} {op : HostOp} (hdoes : TransactionDoes s op t)
    (hop : op ≠ .reset) : KeepsFlags s t := by
  cases hdoes with
  | answer w => exact KeepsFlags.refl s
  | raise hb => exact s.setStatus_withBit_keepsFlags _
  | answerAndRaise w hb => exact s.setStatus_withBit_keepsFlags _
  | command hexec => exact exec_keepsFlags hexec
  | store hr v => exact fun b hb => (s.storeReg_flag _ v b).trans hb
  | writeBuf hk v => exact KeepsFlags.refl s
  | reset => exact absurd rfl hop

/-- A step that is no reset is idle, or does what a transaction that is no reset does. -/
theorem step_does_of_no_reset {s t : State} (h : step s = .next t)
    (hreset : ∀ rest, s.pending ≠ .reset :: rest) :
    t = s ∨ ∃ op rest, op ≠ .reset ∧ TransactionDoes (s.accept rest) op t := by
  rcases step_does h with rfl | ⟨op, rest, hp, hdoes⟩
  · exact .inl rfl
  · exact .inr ⟨op, rest, fun hop => hreset rest (hop ▸ hp), hdoes⟩

/-- Settles O17. -/
theorem statusBitsAreSticky : Obligations.StatusBitsAreSticky := by
  intro s t b hstep hreset hb
  rcases step_does_of_no_reset hstep hreset with rfl | ⟨op, rest, hop, hdoes⟩
  · exact hb
  · exact hdoes.keepsFlags hop b hb

/-! ## SAMPLE_RATE and BUF_LEN (10_state.md R22, R30) -/

theorem TransactionDoes.sampleRate {s t : State} {op : HostOp} (hdoes : TransactionDoes s op t)
    (hop : op ≠ .reset) (hc : s.flag .configured = true) : t.sampleRate = s.sampleRate := by
  cases hdoes with
  | answer w => rfl
  | raise hb => rfl
  | answerAndRaise w hb => rfl
  | command hexec => exact (exec_hostSide hexec).1
  | store hr v => exact State.storeReg_sampleRate (State.ne_sampleRate_of_writable hr hc) v s
  | writeBuf hk v => rfl
  | reset => exact absurd rfl hop

/-- Settles O18: `CONFIGURED` is sticky, and while it is set the one store that could change `SAMPLE_RATE` is
refused. -/
theorem sampleRateIsFixedOnceConfigured : Obligations.SampleRateIsFixedOnceConfigured := by
  intro s t hstep hreset hc
  refine ⟨?_, statusBitsAreSticky s t .configured hstep hreset hc⟩
  rcases step_does_of_no_reset hstep hreset with rfl | ⟨op, rest, hop, hdoes⟩
  · rfl
  · exact hdoes.sampleRate hop hc

theorem TransactionDoes.bufLen {s t : State} {op : HostOp} (hdoes : TransactionDoes s op t) :
    t.bufLen = s.bufLen := by
  cases hdoes with
  | answer w => rfl
  | raise hb => rfl
  | answerAndRaise w hb => rfl
  | command hexec =>
    obtain ⟨-, -, -, -, hlen, -, -⟩ := exec_hostSide hexec
    exact hlen
  | store hr v => exact s.storeReg_bufLen _ v
  | writeBuf hk v => rfl
  | reset => rfl

/-- Settles O19. -/
theorem bufLenNeverChanges : Obligations.BufLenNeverChanges := by
  have hread : ∀ s : State, s.readReg 0x08 = s.bufLen := fun s => s.readReg_index .bufLen
  refine ⟨hread State.reset, fun s t hstep => ?_⟩
  rw [hread, hread]
  rcases step_does hstep with rfl | ⟨op, rest, -, hdoes⟩
  · rfl
  · exact hdoes.bufLen

/-! ## What a command writes (10_state.md R21, R25 to R29) -/

/-- Settles O20. -/
theorem noCommandWritesTheOperandRegisters : Obligations.NoCommandWritesTheOperandRegisters := by
  intro i s t h
  obtain ⟨hrate, harg, hbase, hcount, -, -, -⟩ := exec_hostSide h
  exact ⟨hrate, harg, hbase, hcount⟩

section
variable {i : Instr} {s t : State}

theorem exec_result0 (h : exec i s = .next t) (hpsin : i ≠ .psin) (hexp2 : i ≠ .exp2)
    (hwrap01 : i ≠ .wrap01) : t.result0 = s.result0 := by
  cases commandDoes_of_exec h with
  | nop => rfl
  | raise hb => rfl
  | init hrate => rfl
  | psin w => exact absurd rfl hpsin
  | exp2 r => exact absurd rfl hexp2
  | wrap01 w => exact absurd rfl hwrap01
  | oscStep hc sel j => exact State.stepOsc_result0 _ j _ s
  | gstep => exact s.graphSample_result0 _
  | render hfits => exact State.renderLoop_result0 _ _ _ s

theorem exec_mixOut (h : exec i s = .next t) (hinit : i ≠ .init) (hgstep : i ≠ .gstep)
    (hrender : i ≠ .render) : t.mixOut = s.mixOut := by
  cases commandDoes_of_exec h with
  | nop => rfl
  | raise hb => rfl
  | init hrate => exact absurd rfl hinit
  | psin w => rfl
  | exp2 r => rfl
  | wrap01 w => rfl
  | oscStep hc sel j => exact State.stepOsc_mixOut _ j _ s
  | gstep => exact absurd rfl hgstep
  | render hfits => exact absurd rfl hrender

/-- A command leaves the buffer alone, but for the render loop of RENDER. -/
theorem exec_buffer_cases (h : exec i s = .next t) :
    t.buffer = s.buffer ∨
      i = .render ∧ t = s.renderLoop Config.openValues s.bufCount.toNat s.bufBase.toNat := by
  cases commandDoes_of_exec h with
  | nop => exact .inl rfl
  | raise hb => exact .inl rfl
  | init hrate => exact .inl rfl
  | psin w => exact .inl rfl
  | exp2 r => exact .inl rfl
  | wrap01 w => exact .inl rfl
  | oscStep hc sel j => exact .inl (State.stepOsc_buffer _ j _ s)
  | gstep => exact .inl (s.graphSample_buffer _)
  | render hfits => exact .inr ⟨rfl, rfl⟩

theorem exec_buffer (h : exec i s = .next t) (hrender : i ≠ .render) : t.buffer = s.buffer :=
  (exec_buffer_cases h).resolve_right fun hr => hrender hr.1

/-- No command writes a buffer word outside the range that `BUF_BASE` and `BUF_COUNT` name. -/
theorem exec_buffer_outside (h : exec i s = .next t) {k : Nat}
    (hk : k < s.bufBase.toNat ∨ s.bufBase.toNat + s.bufCount.toNat ≤ k) :
    t.buffer.read k = s.buffer.read k := by
  rcases exec_buffer_cases h with hbuffer | ⟨-, rfl⟩
  · rw [hbuffer]
  · exact State.renderLoop_buffer_other _ _ _ s k hk
end

/-- Settles O21. -/
theorem resultsAreWrittenByTheirCommandsOnly : Obligations.ResultsAreWrittenByTheirCommandsOnly :=
  fun _ _ _ h => ⟨exec_result0 h, exec_mixOut h, exec_buffer h, fun _ => exec_buffer_outside h⟩

/-! ## A step command reads its own record only (10_state.md R41) -/

theorem exec_stepCommand_steps {c : BitVec 4 → Instr} {f : OscStep} (hc : StepCommand c f)
    {sel : BitVec 4} {i : Osc} {s t : State} (hsel : oscOfSel sel = some i)
    (hconf : s.flag .configured = true) (h : exec (c sel) s = .next t) :
    t = s.stepOsc Config.openValues i f := by
  rw [exec_stepCommand hc, onOscillator_steps f hsel hconf] at h
  cases h
  rfl

/-- Settles O47: the record after the step is a function of the tick, `SAMPLE_RATE` and the record before. -/
theorem stepsDependOnlyOnTheirOscillator : Obligations.StepsDependOnlyOnTheirOscillator := by
  intro s s' t t' sel i c hc hsel hconf hconf' hrate hrec hdraws h h'
  obtain ⟨f, hf⟩ := exists_stepCommand hc
  have ht := exec_stepCommand_steps hf hsel hconf h
  have ht' := exec_stepCommand_steps hf hsel hconf' h'
  subst ht ht'
  refine ⟨?_, fun j hj => State.stepOsc_oscRec_other _ i j f s hj⟩
  rw [State.stepOsc_oscRec_same, State.stepOsc_oscRec_same, hrate, hrec, hdraws]

/-! ## The idle step and the state after reset (10_state.md R20, R24, R40) -/

/-- Settles O7. -/
theorem idleBlockKeepsItsState : Obligations.IdleBlockKeepsItsState := fun _ => step_of_pending_nil

/-- `BUF_LEN` is at least 1 (00_scope.md section 4). -/
theorem one_le_bufLen : 1 ≤ Config.bufLen.toNat := by
  have := Config.bufLenLessOne.isLt
  rw [Config.bufLen, BitVec.toNat_ofNat]
  omega

theorem OscRec.get_reset (f : Field) : OscRec.reset.get f = 0 := by
  cases f <;> rfl

theorem State.regValue_reset {r : Reg} (h : r ≠ .bufLen) : State.reset.regValue r = 0 := by
  cases r with
  | bufLen => exact absurd rfl h
  | osc i f => rw [State.regValue, State.reset_oscRec, OscRec.get_reset]
  | _ => rfl

theorem State.readReg_reset (j : BitVec 8) :
    State.reset.readReg j = if j = 0x08 then Config.bufLen else 0 := by
  split
  · subst j
    exact State.reset.readReg_index .bufLen
  · rename_i hj
    unfold State.readReg
    cases hr : regAt j with
    | none => rfl
    | some r =>
      refine State.regValue_reset ?_
      rintro rfl
      exact hj (index_of_regAt hr).symm

/-- Settles O14. -/
theorem registersAfterReset : Obligations.RegistersAfterReset :=
  ⟨State.readReg_reset, fun _ => rfl, one_le_bufLen⟩

/-- Settles O15: the reset state is what a reset transaction makes of it. -/
theorem resetMeetsTheInvariant : Obligations.ResetMeetsTheInvariant :=
  State.inv_resetBlock (s := State.reset) one_le_bufLen

/-- Settles O60: index 1 reads `STATUS`, and each field is the bit at its position. -/
theorem statusFieldsStandAtTheirBits : Obligations.StatusFieldsStandAtTheirBits := by
  intro s
  have hread : s.readReg 0x01 = s.status := s.readReg_index .status
  rw [hread]
  exact ⟨rfl, rfl, rfl, rfl, rfl, rfl, rfl⟩

end Sys2Proof.Machine
end

section
/-! SUPPORT. The proofs of the obligations of 20_memory.md: what a step makes of the first transaction pending, and
what each transaction of the host does, by the index it names. -/

namespace Sys2Proof.Machine

/-- Two states whose registers hold the same values read the same at every index. -/
theorem State.readReg_congr {s t : State} (h : ∀ r : Reg, t.regValue r = s.regValue r) (j : BitVec 8) :
    t.readReg j = s.readReg j :=
  readReg_frame (written := []) (fun r _ => h r) j List.not_mem_nil

/-! ## The state in which a transaction is performed -/

section
variable {s s' : State} {op : HostOp}

/-- A step performs the transaction that is accepted (20_memory.md R70). -/
theorem Accepts.step_eq (h : Accepts s op s') : step s = hostOp op s' := by
  obtain ⟨rest, hp, rfl⟩ := h
  exact step_of_pending hp

theorem Accepts.readReg (h : Accepts s op s') (j : BitVec 8) : s'.readReg j = s.readReg j := by
  obtain ⟨rest, -, rfl⟩ := h
  refine State.readReg_congr (fun r => ?_) j
  cases r with
  | osc i f => cases i <;> rfl
  | _ => rfl

theorem Accepts.flag (h : Accepts s op s') (b : StatusBit) : s'.flag b = s.flag b := by
  obtain ⟨rest, -, rfl⟩ := h
  rfl

theorem Accepts.buffer (h : Accepts s op s') : s'.buffer = s.buffer := by
  obtain ⟨rest, -, rfl⟩ := h
  rfl

theorem Accepts.bufLen (h : Accepts s op s') : s'.bufLen = s.bufLen := by
  obtain ⟨rest, -, rfl⟩ := h
  rfl

theorem Accepts.reply (h : Accepts s op s') : s'.reply = none := by
  obtain ⟨rest, -, rfl⟩ := h
  rfl
end

/-! ## Register reads (20_memory.md R61) -/

theorem State.readReg_of_reserved {j : BitVec 8} (h : reservedIndex j = true) (s : State) :
    s.readReg j = 0 := by
  rw [State.readReg, (regAt_none_iff j).mpr h]

theorem exists_reg_of_not_reserved {j : BitVec 8} (h : reservedIndex j ≠ true) : ∃ r : Reg, r.index = j := by
  obtain ⟨r, hr⟩ := Option.ne_none_iff_exists'.mp (mt (regAt_none_iff j).mp h)
  exact ⟨r, index_of_regAt hr⟩

/-- Settles O8. -/
theorem registerReadHasNoSideEffect : Obligations.RegisterReadHasNoSideEffect := by
  intro s s' j h
  refine ⟨s.readReg j, ?_, ?_⟩
  · rw [h.step_eq, ← h.readReg]
    rfl
  · split
    next hzero =>
      rcases hzero with hres | rfl
      · exact s.readReg_of_reserved hres
      · exact s.readReg_index .cmd
    next hreg =>
      obtain ⟨r, rfl⟩ := exists_reg_of_not_reserved (not_or.mp hreg).1
      exact ⟨r, rfl, s.readReg_index r⟩

/-! ## Command writes (30_encoding.md R91) -/

theorem writeCommand_of_decode {v : Word} {i : Instr} (h : decode v = .ok i) (s : State) :
    writeCommand v s = exec i s := by
  rw [writeCommand, h]

theorem writeCommand_illegal {v : Word} (h : ∀ i, decode v ≠ .ok i) (s : State) :
    writeCommand v s = raiseErr .errCmd s := by
  unfold writeCommand
  cases hv : decode v with
  | error e => rfl
  | ok i => exact absurd hv (h i)

/-! ## What a store to a register changes -/

section
variable (r : Reg) (v : Word) (s : State)

@[simp] theorem State.storeReg_pending : (s.storeReg r v).pending = s.pending := by
  cases r <;> simp [State.storeReg]
@[simp] theorem State.storeReg_reply : (s.storeReg r v).reply = s.reply := by
  cases r <;> simp [State.storeReg]
@[simp] theorem State.storeReg_draws : (s.storeReg r v).draws = s.draws := by
  cases r <;> simp [State.storeReg]
end

/-- A store gives a register the host may write its value. -/
theorem State.regValue_storeReg_same {s : State} {r : Reg} (hr : s.writable r = true) (v : Word) :
    (s.storeReg r v).regValue r = v := by
  cases r with
  | cmd | status | result0 | mixOut | bufLen => cases hr
  | sampleRate | arg0 | bufBase | bufCount => rfl
  | osc i f => simp [State.storeReg, State.regValue, OscRec.get_set]

/-- A store leaves every other register alone. -/
theorem State.regValue_storeReg_other {r q : Reg} (h : q ≠ r) (v : Word) (s : State) :
    (s.storeReg r v).regValue q = s.regValue q := by
  cases r with
  | cmd | status | result0 | mixOut | bufLen => rfl
  | sampleRate | arg0 | bufBase | bufCount =>
    cases q <;> simp_all [State.storeReg, State.regValue]
  | osc i f =>
    cases q with
    | osc j g =>
      simp only [State.storeReg, State.regValue, State.oscRec_setOsc]
      split
      · subst j
        rw [OscRec.get_set, if_neg fun hgf => h (congrArg _ hgf)]
      · rfl
    | _ => simp [State.storeReg, State.regValue]

theorem State.storeReg_unchangedBut (r : Reg) (v : Word) (s : State) :
    UnchangedBut [r.index] s (s.storeReg r v) := by
  refine ⟨readReg_frame fun q hq => ?_, fun k => by simp, by simp, by simp⟩
  refine State.regValue_storeReg_other ?_ v s
  rintro rfl
  exact hq (List.mem_singleton.mpr rfl)

/-! ## Register writes by their index (20_memory.md R62, 60_exceptions.md R305) -/

theorem readOnlyIndex_index (r : Reg) : readOnlyIndex r.index = decide (r.access = .readOnly) := by
  cases r with
  | osc i f => cases i <;> cases f <;> rfl
  | _ => rfl

/-- Only `SAMPLE_RATE` is writable until INIT and read-only after (10_state.md R22). -/
theorem access_readWriteUntilInit_iff (r : Reg) : r.access = .readWriteUntilInit ↔ r = .sampleRate := by
  cases r with
  | osc i f => cases f <;> simp [Reg.access, Field.access]
  | _ => simp [Reg.access]

theorem access_writeOnly_iff (r : Reg) : r.access = .writeOnly ↔ r = .cmd := by
  cases r with
  | osc i f => cases f <;> simp [Reg.access, Field.access]
  | _ => simp [Reg.access]

/-- The registers that the host may write now, by their indices. -/
theorem State.writable_iff (s : State) (r : Reg) : s.writable r = true ↔
    r.index ≠ 0x00 ∧ readOnlyIndex r.index = false ∧
      ¬(r.index = 0x02 ∧ s.flag .configured = true) := by
  have hcmd : r.index = 0x00 ↔ r.access = .writeOnly := by
    rw [access_writeOnly_iff]
    exact ⟨fun h => Reg.index_injective (b := .cmd) h, fun h => h ▸ rfl⟩
  have hrate : r.index = 0x02 ↔ r.access = .readWriteUntilInit := by
    rw [access_readWriteUntilInit_iff]
    exact ⟨fun h => Reg.index_injective (b := .sampleRate) h, fun h => h ▸ rfl⟩
  rw [ne_eq, hcmd, hrate, readOnlyIndex_index, State.writable]
  cases r.access <;> simp

/-- The grounds on which the host is refused a write of register index `j` (60_exceptions.md R305). -/
def RefusesWrite (s : State) (j : BitVec 8) : Prop :=
  readOnlyIndex j = true ∨ reservedIndex j = true ∨ (j = 0x02 ∧ s.flag .configured = true)

theorem RefusesWrite.ne_cmd {s : State} {j : BitVec 8} (h : RefusesWrite s j) : j ≠ 0x00 := by
  rintro rfl
  rcases h with h | h | ⟨h, -⟩ <;> exact absurd h (by decide)

theorem RefusesWrite.not_writable {s : State} {j : BitVec 8} {r : Reg} (h : RefusesWrite s j)
    (hr : regAt j = some r) : s.writable r = false := by
  obtain rfl := index_of_regAt hr
  refine Bool.eq_false_iff.mpr fun hw => ?_
  obtain ⟨-, hro, hrate⟩ := (s.writable_iff r).mp hw
  rcases h with h | h | h
  · rw [hro] at h
    cases h
  · rw [(regAt_none_iff _).mpr h] at hr
    cases hr
  · exact hrate h

theorem hostWriteReg_of_ne_cmd {j : BitVec 8} (h : j ≠ 0x00) (v : Word) (s : State) :
    hostWriteReg j v s = hostStoreReg j v s := if_neg h

theorem hostWriteReg_refused {s : State} {j : BitVec 8} (h : RefusesWrite s j) (v : Word) :
    hostWriteReg j v s = raiseErr .errWr s := by
  rw [hostWriteReg_of_ne_cmd h.ne_cmd]
  rcases hostStoreReg_cases j v s with h' | ⟨r, hr, hw, -⟩
  · exact h'
  · exact absurd hw (by simp [h.not_writable hr])

theorem hostWriteReg_stored {s : State} {j : BitVec 8} (hcmd : j ≠ 0x00) (h : ¬RefusesWrite s j)
    (v : Word) : ∃ r : Reg, r.index = j ∧ s.writable r = true ∧
      hostWriteReg j v s = .next (s.storeReg r v) := by
  obtain ⟨hro, hgrounds⟩ := not_or.mp h
  obtain ⟨hres, hrate⟩ := not_or.mp hgrounds
  obtain ⟨r, rfl⟩ := exists_reg_of_not_reserved hres
  have hw : s.writable r = true := (s.writable_iff r).mpr ⟨hcmd, Bool.eq_false_iff.mpr hro, hrate⟩
  refine ⟨r, rfl, hw, ?_⟩
  rw [hostWriteReg_of_ne_cmd hcmd, hostStoreReg, regAt_index]
  exact if_pos hw

/-- Settles O9: `CMD`, then the grounds of a refusal, then the registers that the host may write. -/
theorem registerWriteStoresOrRaisesErrWr : Obligations.RegisterWriteStoresOrRaisesErrWr := by
  intro s s' j v h
  have hstep : step s = hostWriteReg j v s' := h.step_eq
  have hrefused (hr : RefusesWrite s' j) : ∃ t, step s = .next t ∧ RaisedOnly 0x20 s' t :=
    ⟨_, hstep.trans (hostWriteReg_refused hr v), raisedOnly_setStatus .errWr s'⟩
  rw [← h.flag]
  split_ifs with hcmd hindex hrate
  · have hwrite : step s = writeCommand v s' := hstep.trans (if_pos hcmd)
    exact ⟨fun i hi => hwrite.trans (writeCommand_of_decode hi s'),
      fun hi => ⟨_, hwrite.trans (writeCommand_illegal hi s'), raisedOnly_setStatus .errCmd s'⟩⟩
  · exact hrefused (hindex.elim (fun hres => .inr (.inl hres)) .inl)
  · exact hrefused (.inr (.inr hrate))
  · obtain ⟨hres, hro⟩ := not_or.mp hindex
    have hnot : ¬RefusesWrite s' j := not_or.mpr ⟨hro, not_or.mpr ⟨hres, hrate⟩⟩
    obtain ⟨r, rfl, hw, hstore⟩ := hostWriteReg_stored hcmd hnot v
    refine ⟨_, hstep.trans hstore, ?_, State.storeReg_unchangedBut r v s', State.storeReg_draws r v s'⟩
    rw [State.readReg_index, State.regValue_storeReg_same hw]

/-! ## The sample buffer (20_memory.md R63, R64) -/

theorem State.readReg_setBuffer (m : Memory) (s : State) (j : BitVec 8) :
    (s.setBuffer m).readReg j = s.readReg j := by
  refine State.readReg_congr (fun r => ?_) j
  cases r with
  | osc i f => simp [State.regValue]
  | _ => rfl

theorem hostWriteBuf_inside {s : State} {k : Nat} (hk : k < s.bufLen.toNat) (v : Word) :
    hostWriteBuf k v s = .next (s.setBuffer (s.buffer.write k v)) := if_pos hk

theorem hostReadBuf_written {s : State} {k : Nat} {w : Word} (hk : k < s.bufLen.toNat)
    (h : s.buffer.read k = some w) : hostReadBuf k s = .next (s.setReply (some w)) := by
  rw [hostReadBuf, if_pos hk, h]

theorem hostReadBuf_unwritten {s : State} {k : Nat} (hk : k < s.bufLen.toNat)
    (h : s.buffer.read k = none) : hostReadBuf k s = .fault .unwrittenBufferWord := by
  rw [hostReadBuf, if_pos hk, h]

/-- Settles O10. -/
theorem bufferTransactionsReachTheirWord : Obligations.BufferTransactionsReachTheirWord := by
  constructor
  · intro s s' k v h hk
    rw [← h.bufLen] at hk
    refine ⟨_, h.step_eq.trans (hostWriteBuf_inside hk v), Memory.read_write_same _ k v, fun a ha => ?_,
      fun j => ?_, rfl, h.reply⟩
    · rw [← h.buffer]
      exact Memory.read_write_other _ v ha
    · rw [State.readReg_setBuffer, h.readReg]
  · intro s s' k w h hk hread
    rw [← h.bufLen] at hk
    rw [← h.buffer] at hread
    exact h.step_eq.trans (hostReadBuf_written hk hread)

/-- Settles O11. -/
theorem unwrittenBufferWordFaults : Obligations.UnwrittenBufferWordFaults := by
  refine ⟨fun s s' k h hk hread => ?_, fun _ => rfl⟩
  rw [← h.bufLen] at hk
  rw [← h.buffer] at hread
  exact h.step_eq.trans (hostReadBuf_unwritten hk hread)

end Sys2Proof.Machine
end

section
/-! SUPPORT. The proofs of the obligations of 30_encoding.md: a command word is its four fields, a row of the opcode
map and `SEL` name one well-formed command, so decoding undoes encoding; and a step runs what it decodes. -/

namespace Sys2Proof

/-! ## The fields of a word (30_encoding.md R90) -/

theorem append_fields (w : CmdWord) : fieldOpc w ++ fieldRsv1 w ++ fieldSel w ++ fieldRsv0 w = w := by
  have hopc : fieldOpc w ++ fieldRsv1 w = w.extractLsb' 20 12 :=
    BitVec.extractLsb'_append_extractLsb'_eq_extractLsb' rfl
  have hsel : w.extractLsb' 20 12 ++ fieldSel w = w.extractLsb' 16 16 :=
    BitVec.extractLsb'_append_extractLsb'_eq_extractLsb' rfl
  have hall : w.extractLsb' 16 16 ++ fieldRsv0 w = w.extractLsb' 0 32 :=
    BitVec.extractLsb'_append_extractLsb'_eq_extractLsb' rfl
  rw [hopc, hsel, hall, BitVec.extractLsb'_eq_self]

/-- Every command keeps the law that was made command by command. -/
theorem encodingFields (i : Instr) : Laws.EncodingFields.Statement i := by
  cases i with
  | nop => exact Laws.EncodingFields.nop
  | init => exact Laws.EncodingFields.init
  | psin => exact Laws.EncodingFields.psin
  | exp2 => exact Laws.EncodingFields.exp2
  | wrap01 => exact Laws.EncodingFields.wrap01
  | pastep sel => exact Laws.EncodingFields.pastep sel
  | tonestep sel => exact Laws.EncodingFields.tonestep sel
  | quadstep sel => exact Laws.EncodingFields.quadstep sel
  | gstep => exact Laws.EncodingFields.gstep
  | render => exact Laws.EncodingFields.render

/-- A command's word is the one whose reserved fields are 0 and whose other fields are the command's. -/
theorem encode_eq_iff {i : Instr} {w : CmdWord} :
    encode i = w ↔ i.opc = fieldOpc w ∧ fieldRsv1 w = 0 ∧ i.sel = fieldSel w ∧ fieldRsv0 w = 0 := by
  constructor
  · rintro rfl
    obtain ⟨hrsv1, hrsv0, hopc, hsel, -⟩ := encodingFields i
    exact ⟨hopc.symm, hrsv1, hsel.symm, hrsv0⟩
  · rintro ⟨hopc, hrsv1, hsel, hrsv0⟩
    calc encode i = fieldOpc w ++ fieldRsv1 w ++ fieldSel w ++ fieldRsv0 w := by
          rw [encode, hopc, hrsv1, hsel, hrsv0]; rfl
      _ = w := append_fields w

/-- The written word is the command's word below an upper half of 0 (10_state.md R23). -/
theorem encodeWrite_eq_iff {i : Instr} {v : Word} :
    encodeWrite i = v ↔ v.extractLsb' 32 32 = 0 ∧ encode i = v.extractLsb' 0 32 := by
  have hlt := (encode i).isLt
  have hzero : (0 : BitVec 32).toNat = 0 := rfl
  rw [encodeWrite, BitVec.toNat_eq, BitVec.toNat_eq, BitVec.toNat_eq, BitVec.toNat_setWidth,
    BitVec.extractLsb'_toNat, BitVec.extractLsb'_toNat, Nat.shiftRight_eq_div_pow, Nat.shiftRight_zero,
    hzero]
  omega

/-! ## The opcode map (30_encoding.md R91, R94) -/

/-- `row.Completes sel i`: the row of the opcode map and the `SEL` of a word, taken or 0, stand for `i`. -/
inductive OpcodeRow.Completes : OpcodeRow → BitVec 4 → Instr → Prop
  | plain (i : Instr) : Completes (.plain i) 0 i
  | withSel (command : BitVec 4 → Instr) {sel : BitVec 4} (h : sel.toNat ≤ 2) :
      Completes (.withSel command) sel (command sel)

/-- The command that a row and `SEL` stand for is well-formed, and has that `OPC` and that `SEL`. -/
theorem OpcodeRow.Completes.spec {opc : BitVec 8} {row : OpcodeRow} {sel : BitVec 4} {i : Instr}
    (hc : row.Completes sel i) (hrow : opcodeRow opc = some row) :
    i.wellFormed = true ∧ i.opc = opc ∧ i.sel = sel := by
  unfold opcodeRow at hrow
  cases hc with
  | plain i => split at hrow <;> cases hrow <;> exact ⟨rfl, rfl, rfl⟩
  | withSel command h => split at hrow <;> cases hrow <;> exact ⟨decide_eq_true h, rfl, rfl⟩

/-- Every well-formed command stands in the opcode map, at its `OPC`. -/
theorem exists_row_completes {i : Instr} (h : i.wellFormed = true) :
    ∃ row, opcodeRow i.opc = some row ∧ row.Completes i.sel i := by
  cases i with
  | pastep sel => exact ⟨_, rfl, .withSel .pastep (of_decide_eq_true h)⟩
  | tonestep sel => exact ⟨_, rfl, .withSel .tonestep (of_decide_eq_true h)⟩
  | quadstep sel => exact ⟨_, rfl, .withSel .quadstep (of_decide_eq_true h)⟩
  | _ => exact ⟨_, rfl, .plain _⟩

/-! ## Decoding undoes encoding (30_encoding.md R91, R95) -/

/-- A check that a word must pass: it answers what follows exactly where the check does not fail. -/
theorem check_eq_ok_iff {fails : Prop} [Decidable fails] {e : DecodeError} {rest : Except DecodeError Instr}
    {i : Instr} : (if fails then .error e else rest) = .ok i ↔ ¬fails ∧ rest = .ok i := by
  split_ifs with h <;> simp [h]

/-- The checks of R91 on the 32 command bits, as one condition. -/
theorem decodeCommand_eq_ok_iff {w : CmdWord} {i : Instr} :
    decodeCommand w = .ok i ↔ ∃ row, opcodeRow (fieldOpc w) = some row ∧ fieldRsv1 w = 0 ∧
      fieldRsv0 w = 0 ∧ row.Completes (fieldSel w) i := by
  constructor
  · intro h
    unfold decodeCommand at h
    cases hrow : opcodeRow (fieldOpc w) with
    | none => rw [hrow] at h; cases h
    | some row =>
      rw [hrow] at h
      dsimp only at h
      obtain ⟨hrsv, h⟩ := check_eq_ok_iff.mp h
      obtain ⟨hrsv1, hrsv0⟩ := not_or.mp hrsv
      refine ⟨row, rfl, not_not.mp hrsv1, not_not.mp hrsv0, ?_⟩
      cases row with
      | plain j =>
        obtain ⟨hsel, hj⟩ := check_eq_ok_iff.mp h
        cases hj
        rw [not_not.mp hsel]
        exact .plain i
      | withSel command =>
        obtain ⟨hsel, hj⟩ := check_eq_ok_iff.mp h
        cases hj
        exact .withSel command (not_lt.mp hsel)
  · rintro ⟨row, hrow, hrsv1, hrsv0, hc⟩
    have hrsv : ¬(fieldRsv1 w ≠ 0 ∨ fieldRsv0 w ≠ 0) := not_or.mpr ⟨not_not.mpr hrsv1, not_not.mpr hrsv0⟩
    rw [decodeCommand, hrow]
    refine check_eq_ok_iff.mpr ⟨hrsv, ?_⟩
    generalize fieldSel w = sel at hc ⊢
    cases hc with
    | plain i => exact check_eq_ok_iff.mpr ⟨not_not.mpr rfl, rfl⟩
    | withSel command hsel => exact check_eq_ok_iff.mpr ⟨not_lt.mpr hsel, rfl⟩

theorem decodeCommand_eq_ok_iff_encode {w : CmdWord} {i : Instr} :
    decodeCommand w = .ok i ↔ i.wellFormed = true ∧ encode i = w := by
  rw [decodeCommand_eq_ok_iff, encode_eq_iff]
  constructor
  · rintro ⟨row, hrow, hrsv1, hrsv0, hc⟩
    obtain ⟨hwf, hopc, hsel⟩ := hc.spec hrow
    exact ⟨hwf, hopc, hrsv1, hsel, hrsv0⟩
  · rintro ⟨hwf, hopc, hrsv1, hsel, hrsv0⟩
    obtain ⟨row, hrow, hc⟩ := exists_row_completes hwf
    exact ⟨row, hopc ▸ hrow, hrsv1, hrsv0, hsel ▸ hc⟩

theorem decode_eq_ok_iff {v : Word} {i : Instr} :
    decode v = .ok i ↔ v.extractLsb' 32 32 = 0 ∧ decodeCommand (v.extractLsb' 0 32) = .ok i := by
  rw [decode, check_eq_ok_iff, not_not]

/-- Settles O1: the upper half first, then the four fields of the lower one. -/
theorem decodeIsTheInverseOfEncode : Obligations.DecodeIsTheInverseOfEncode := by
  intro v i
  rw [decode_eq_ok_iff, decodeCommand_eq_ok_iff_encode, encodeWrite_eq_iff]
  exact and_left_comm

/-! ## The 16 legal words (30_encoding.md R94, R95) -/

/-- The commands of the 16 legal words. -/
def legalCommands : List Instr :=
  [.nop, .init, .psin, .exp2, .wrap01, .pastep 0, .pastep 1, .pastep 2, .tonestep 0, .tonestep 1, .tonestep 2,
    .quadstep 0, .quadstep 1, .quadstep 2, .gstep, .render]

theorem mem_legalCommands_iff (i : Instr) : i ∈ legalCommands ↔ i.wellFormed = true := by
  cases i with
  | pastep sel => revert sel; decide
  | tonestep sel => revert sel; decide
  | quadstep sel => revert sel; decide
  | _ => decide

theorem map_encodeWrite_legalCommands : legalCommands.map encodeWrite = Machine.legalWrites := by decide

/-- Settles O2: the legal words are the words of the well-formed commands. -/
theorem exactlySixteenCommandWordsAreLegal : Obligations.ExactlySixteenCommandWordsAreLegal := by
  intro v
  calc (∃ i, decode v = .ok i)
      ↔ ∃ i, i ∈ legalCommands ∧ encodeWrite i = v :=
        exists_congr fun i => by rw [decodeIsTheInverseOfEncode v i, mem_legalCommands_iff]
    _ ↔ v ∈ legalCommands.map encodeWrite := List.mem_map.symm
    _ ↔ v ∈ Machine.legalWrites := by rw [map_encodeWrite_legalCommands]

/-- The word of a well-formed command decodes to it. -/
theorem decode_of_encodeWrite_eq {i : Instr} {v : Word} (hwf : i.wellFormed = true) (hv : encodeWrite i = v) :
    decode v = .ok i :=
  (decodeIsTheInverseOfEncode v i).mpr ⟨hwf, hv⟩

/-- Settles O3: each word is its command's encoding. -/
theorem wordsOfTheOpcodeMapDecode : Obligations.WordsOfTheOpcodeMapDecode := by
  refine ⟨?_, ?_, ?_, ?_, ?_, ?_, ?_, ?_, ?_, ?_, ?_, ?_, ?_, ?_, ?_, ?_⟩ <;>
    exact decode_of_encodeWrite_eq rfl rfl

end Sys2Proof

namespace Sys2Proof.Machine

/-! ## Mnemonics (30_encoding.md R98) -/

theorem mnemonicWord_eq_encode (i : Instr) : mnemonicWord i = encode i := by
  cases i with
  | pastep sel => revert sel; decide
  | tonestep sel => revert sel; decide
  | quadstep sel => revert sel; decide
  | _ => rfl

theorem cmdOp_mnemonicWord (i : Instr) : cmdOp (mnemonicWord i) = .writeReg 0x00 (encodeWrite i) := by
  rw [mnemonicWord_eq_encode]
  rfl

/-- Settles O4: a compound pseudo-instruction writes its command by the mnemonic's word. -/
theorem mnemonicsExpandToTheirEncodings : Obligations.MnemonicsExpandToTheirEncodings := by
  refine ⟨fun i => ⟨mnemonicWord_eq_encode i, ?_⟩, fun l => ?_, fun l => ?_, fun l => ?_, fun base n => ?_,
    fun l => ?_⟩ <;>
    (rw [← cmdOp_mnemonicWord]; rfl)

/-! ## A step runs what it decodes (30_encoding.md R91) -/

/-- A host write to `CMD` is a command write (20_memory.md R62). -/
theorem hostOp_writeReg_cmd (v : Word) (s : State) : hostOp (.writeReg 0x00 v) s = writeCommand v s := by
  rw [hostOp, hostWriteReg]
  exact if_pos rfl

/-- Settles O5. -/
theorem stepRunsTheDecodedCommand : Obligations.StepRunsTheDecodedCommand := by
  intro s s' v i h hdecode
  calc step s = hostOp (.writeReg 0x00 v) s' := h.step_eq
    _ = writeCommand v s' := hostOp_writeReg_cmd v s'
    _ = exec i s' := writeCommand_of_decode hdecode s'

theorem accepts_withFetchWord (s : State) (nbits w : Nat) :
    Accepts (s.withFetchWord nbits w) (.writeReg 0x00 (tableWrite nbits w)) { s with reply := none } :=
  ⟨s.pending, rfl, rfl⟩

theorem decode_tableWrite {nbits w : Nat} {i : Instr} (h : decodeTableWord nbits w = some i) :
    decode (tableWrite nbits w) = .ok i := by
  unfold decodeTableWord at h
  split_ifs at h
  split at h
  next j hj => rw [hj, Option.some.inj h]
  next => cases h

/-- Settles O6: the loader's word is the first transaction pending, and it decodes to the command. -/
theorem stepRunsTheCommandPlaced : Obligations.StepRunsTheCommandPlaced :=
  fun s nbits w i h => stepRunsTheDecodedCommand _ _ _ i (accepts_withFetchWord s nbits w) (decode_tableWrite h)

end Sys2Proof.Machine
end

section
/-! SUPPORT. The commands of 40_fastmath.md on the state: each completes, writes its result (EXP2 also its STATUS
bit) and leaves every other register and the buffer alone. -/

namespace Sys2Proof.Machine

open F64

/-! ## What a FastMath command leaves unchanged (R140 to R142) -/

/-- Writing a result changes `RESULT0` alone. -/
theorem State.setResult0_tick_unchangedBut (v : Word) (s : State) :
    UnchangedBut [0x04] s (s.setResult0 v).tick := by
  refine ⟨readReg_frame fun r hr => ?_, fun _ => rfl, rfl, rfl⟩
  cases r with
  | result0 => exact absurd (by decide) hr
  | osc i f => simp [State.regValue]
  | _ => rfl

/-- Writing an `exp2` evaluation changes `STATUS` and `RESULT0` alone. -/
theorem State.putExp2_unchangedBut (r : Exp2Result) (s : State) :
    UnchangedBut [0x01, 0x04] s (s.putExp2 r) := by
  refine ⟨readReg_frame fun q hq => ?_, fun _ => rfl, rfl, rfl⟩
  cases q with
  | status => exact absurd (by decide) hq
  | result0 => exact absurd (by decide) hq
  | osc i f => simp [State.putExp2, State.regValue]
  | _ => rfl

/-! ## What each command answers -/

theorem exec_psin (s : State) :
    exec .psin s = .next (s.setResult0 (parabolicSine (Config.openValues.nan s.draws) s.arg0)).tick := by
  rfl

theorem exec_exp2 (s : State) : exec .exp2 s = .next (s.putExp2 (exp2OfArg0 Config.openValues s)) := by
  rfl

theorem exec_wrap01 (s : State) :
    exec .wrap01 s = .next (s.setResult0 (wrap01 (Config.openValues.nan s.draws) s.arg0)).tick := by
  rfl

/-- Settles O29: the two stages of `parabolicSine` are the listing's seven lines. -/
theorem psinComputesTheParabolicSine : Obligations.PsinComputesTheParabolicSine := fun s =>
  ⟨_, Config.openValues.nan s.draws, isNaN_openValues_nan s.draws, exec_psin s, rfl,
    State.setResult0_tick_unchangedBut _ s⟩

/-- An `exp2` evaluation with the block's `EXP2_FRAC` is the one of R127 to R130. -/
theorem isExp2_exp2 (draw : Word) {nan : Nat → Word} (hnan : ∀ k, isNaN (nan k) = true) (x status : Word) :
    IsExp2 x (exp2 Config.exp2Frac draw nan x).value status
      (withBitIf (exp2 Config.exp2Frac draw nan x).outOfRange .exp2Oor status) := by
  unfold IsExp2
  split
  next hrange =>
    rw [exp2_inRange _ _ _ ((exp2InRange_iff x).mpr hrange), exp2Scale_eq]
    exact ⟨⟨nan, hnan, rfl⟩, rfl⟩
  next hrange =>
    rw [exp2_outOfRange _ _ _ (Bool.eq_false_iff.mpr fun h => hrange ((exp2InRange_iff x).mp h))]
    rfl

/-- Settles O36. -/
theorem exp2ComputesOrDraws : Obligations.Exp2ComputesOrDraws := fun s =>
  ⟨_, exec_exp2 s, isExp2_exp2 _ (isNaN_openValues_nan s.draws) s.arg0 s.status,
    State.putExp2_unchangedBut _ s⟩

/-! ## The branches of wrap01 (R133) -/

section
variable (nan : Nat → Word) {x : Word}

theorem wrap01_of_inside (h : ge x 0 = true ∧ lt x one = true) : wrap01 nan x = x :=
  if_pos (Bool.and_eq_true_iff.mpr h)

theorem wrap01_of_outside (h : ¬(ge x 0 = true ∧ lt x one = true)) : wrap01 nan x =
    if lt (fmod (nan 0) x one) 0 = true then add (nan 1) (fmod (nan 0) x one) one else fmod (nan 0) x one :=
  if_neg (mt Bool.and_eq_true_iff.mp h)
end

/-- Settles O40: the branches of `wrap01` are those of the listing. -/
theorem wrap01ComputesTheRemainder : Obligations.Wrap01ComputesTheRemainder := by
  intro s
  refine ⟨_, Config.openValues.nan s.draws, isNaN_openValues_nan s.draws, exec_wrap01 s, ?_,
    State.setResult0_tick_unchangedBut _ s⟩
  have hread (v : Word) : (s.setResult0 v).tick.readReg 0x04 = v := rfl
  rw [hread]
  split
  next hin => exact wrap01_of_inside _ hin
  next hout =>
    rw [wrap01_of_outside _ hout]
    split <;> rfl

end Sys2Proof.Machine
end

section
/-! SUPPORT. The symmetry of `parabolic_sine` and its NaN results (40_fastmath.md R123). -/

namespace Sys2Proof.F64

/-! ## Where a result is a NaN, and that nothing else rests on the open patterns (R6) -/

/-- The product with an infinity, of operands that are neither NaNs nor zeros. -/
theorem mul_infinite {a b : Word} (nan : Word) (ha : isNaN a = false) (hb : isNaN b = false)
    (hza : isZero a = false) (hzb : isZero b = false) (hinf : isInf a = true ∨ isInf b = true) :
    mul nan a b = pack (sign a != sign b) infMag := by
  simp [mul, ha, hb, hza, hzb, hinf]

theorem add_inf_finite {a b : Word} (nan : Word) (ha : isInf a = true) (hb : isFinite b = true) :
    add nan a b = a := by
  simp [add, isNaN_false_of_isInf, isNaN_false_of_isFinite, isInf_false_of_isFinite, ha, hb]

theorem add_finite_inf {a b : Word} (nan : Word) (ha : isFinite a = true) (hb : isInf b = true) :
    add nan a b = b := by
  simp [add, isNaN_false_of_isInf, isNaN_false_of_isFinite, isInf_false_of_isFinite, ha, hb]

/-- A sum that is no NaN does not depend on the open pattern. -/
theorem add_of_not_nan {n a b : Word} (hn : isNaN n = true) (h : isNaN (add n a b) = false) (n' : Word) :
    add n' a b = add n a b := by
  unfold add at *
  split_ifs at *
  · exact absurd h (by simp [hn])
  · exact absurd h (by simp [hn])
  · rfl
  · rfl
  · rfl

/-- A product that is no NaN does not depend on the open pattern. -/
theorem mul_of_not_nan {n a b : Word} (hn : isNaN n = true) (h : isNaN (mul n a b) = false) (n' : Word) :
    mul n' a b = mul n a b := by
  unfold mul at *
  split_ifs at *
  · exact absurd h (by simp [hn])
  · exact absurd h (by simp [hn])
  · rfl
  · rfl

theorem not_nan_of_add {n a b : Word} (hn : isNaN n = true) (h : isNaN (add n a b) = false) :
    isNaN a = false ∧ isNaN b = false := by
  rw [Bool.eq_false_iff, ne_eq, isNaN_add hn] at h
  simp only [not_or, Bool.not_eq_true] at h
  exact ⟨h.1, h.2.1⟩

theorem not_nan_of_mul {n a b : Word} (hn : isNaN n = true) (h : isNaN (mul n a b) = false) :
    isNaN a = false ∧ isNaN b = false := by
  rw [Bool.eq_false_iff, ne_eq, isNaN_mul hn] at h
  simp only [not_or, Bool.not_eq_true] at h
  exact ⟨h.1, h.2.1⟩

/-! ## Negated operands -/

/-- `b` is the negation of `a`: of a NaN some NaN, of an infinity the other one, of a finite value a pattern of
the negated value, where the sign of a zero is free. -/
inductive Negates : Word → Word → Prop
  | nan {a b : Word} (ha : isNaN a = true) (hb : isNaN b = true) : Negates a b
  | inf {a : Word} (ha : isInf a = true) : Negates a (neg a)
  | finite {a b : Word} (ha : isFinite a = true) (hb : isFinite b = true) (h : toRat b = -toRat a) :
      Negates a b

theorem negates_neg (a : Word) : Negates a (neg a) := by
  rcases isNaN_or_isInf_or_isFinite a with ha | ha | ha
  · exact .nan ha (by rwa [isNaN_neg])
  · exact .inf ha
  · exact .finite ha (by rwa [isFinite_neg]) (toRat_neg a)

section
variable {a a' b b' : Word}

theorem Negates.isNaN_eq (h : Negates a a') : isNaN a' = isNaN a := by
  cases h with
  | nan ha hb => rw [ha, hb]
  | inf ha => exact isNaN_neg a
  | finite ha hb _ => rw [isNaN_false_of_isFinite ha, isNaN_false_of_isFinite hb]

theorem Negates.eq_neg (h : Negates a a') (hnan : isNaN a = false) : F64.eq a' (neg a) = true := by
  cases h with
  | nan ha _ => rw [ha] at hnan; cases hnan
  | inf ha => simp [F64.eq, hnan]
  | finite ha hb h =>
    have hneg : isFinite (neg a) = true := by rwa [isFinite_neg]
    obtain ⟨-, -, -, -, heq⟩ := comparisons_iff_toRat hb hneg
    rw [heq, h, toRat_neg]

/-- Opposite values that are no NaN have one magnitude. -/
theorem Negates.mag_eq (h : Negates a a') (hnan : isNaN a = false) : mag a' = mag a := by
  cases h with
  | nan ha _ => rw [ha] at hnan; cases hnan
  | inf ha => exact mag_neg a
  | finite ha hb h => rw [← mag_neg a]; exact mag_eq_of_toRat_eq (h.trans (toRat_neg a).symm)

theorem Negates.abs_eq (h : Negates a a') (hnan : isNaN a = false) : F64.abs a' = F64.abs a :=
  pattern_ext (by rw [sign_abs, sign_abs]) (by rw [mag_abs, mag_abs, h.mag_eq hnan])

/-- But for zeros and NaNs, the opposite is the negated pattern. -/
theorem Negates.eq_neg_or_zero (h : Negates a a') (hnan : isNaN a = false) :
    a' = neg a ∨ (mag a = 0 ∧ mag a' = 0) := by
  have hmag := h.mag_eq hnan
  cases h with
  | nan ha _ => rw [ha] at hnan; cases hnan
  | inf ha => exact .inl rfl
  | finite ha hb h =>
    by_cases h0 : toRat a = 0
    · have hz := (toRat_eq_zero a).mp h0
      exact .inr ⟨hz, hmag.trans hz⟩
    · refine .inl (pattern_ext ?_ (by rw [hmag, mag_neg]))
      rw [← toRat_neg] at h
      rw [sign_of_toRat (by rwa [h, toRat_neg, neg_ne_zero]), sign_of_toRat (by rwa [toRat_neg, neg_ne_zero]), h]

theorem negates_of_mag_eq_zero (ha : mag a = 0) (hb : mag b = 0) : Negates a b := by
  have hpos : 0 < infMag := by decide
  refine .finite (by rw [isFinite_iff, ha]; exact hpos) (by rw [isFinite_iff, hb]; exact hpos) ?_
  rw [(toRat_eq_zero a).mpr ha, (toRat_eq_zero b).mpr hb, neg_zero]

end

/-! ## Operations on negated operands (R123) -/

section
variable {n a a' b b' : Word}

theorem mul_swap (n a b : Word) : mul n a b = mul n b a := by
  simp only [mul, Bool.or_comm (isNaN a), Bool.or_comm (isInf a), Bool.or_comm (isZero a),
    bne_comm (a := sign a), Nat.mul_comm (quanta (mag a))]

/-- Negating a factor negates a product that is no NaN. -/
theorem mul_neg_left (hn : isNaN n = true) (h : isNaN (mul n a b) = false) :
    mul n (neg a) b = neg (mul n a b) := by
  have hsign : ((!sign a) != sign b) = !(sign a != sign b) := by cases sign a <;> cases sign b <;> rfl
  unfold mul at *
  simp only [isNaN_neg, isInf_neg, isZero_neg, mag_neg, sign_neg, hsign] at *
  split_ifs at *
  · exact absurd h (by simp [hn])
  · exact absurd h (by simp [hn])
  · rw [neg_pack _ infMag_lt]
  · rw [neg_pack _ (roundMag_lt _ _)]

/-- A product with a zero is a zero or a NaN. -/
theorem mul_zero_left (hn : isNaN n = true) (ha : mag a = 0) (b : Word) :
    isNaN (mul n a b) = true ∨ mag (mul n a b) = 0 := by
  have hfin : isFinite a = true := by rw [isFinite_iff, ha]; decide
  rcases isNaN_or_isInf_or_isFinite b with hb | hb | hb
  · exact .inl ((isNaN_mul hn a b).mpr (.inr (.inl hb)))
  · exact .inl ((isNaN_mul hn a b).mpr (.inr (.inr (.inr ⟨(isZero_iff a).mpr ha, hb⟩))))
  · refine .inr ?_
    rw [mul_finite n hfin hb, mag_pack _ (roundMag_lt _ _), ha, quanta_zero, Nat.zero_mul, roundMag_zero]

theorem Negates.isNaN_mul_eq (hn : isNaN n = true) (h : Negates a a') (b : Word) :
    isNaN (mul n a' b) = isNaN (mul n a b) := by
  rw [Bool.eq_iff_iff, isNaN_mul hn, isNaN_mul hn]
  cases hnan : isNaN a
  case true => simp [h.isNaN_eq, hnan]
  case false => simp only [isInf, isZero, h.isNaN_eq, h.mag_eq hnan, hnan]

theorem Negates.mul_left (hn : isNaN n = true) (h : Negates a a') (b : Word) :
    Negates (mul n a b) (mul n a' b) := by
  cases hnan : isNaN (mul n a b)
  case true => exact .nan hnan ((h.isNaN_mul_eq hn b).trans hnan)
  case false =>
    rcases h.eq_neg_or_zero (not_nan_of_mul hn hnan).1 with rfl | ⟨ha, ha'⟩
    · rw [mul_neg_left hn hnan]
      exact negates_neg _
    · have hnan' := (h.isNaN_mul_eq hn b).trans hnan
      refine negates_of_mag_eq_zero ?_ ?_
      · exact (mul_zero_left hn ha b).resolve_left (by simp [hnan])
      · exact (mul_zero_left hn ha' b).resolve_left (by simp [hnan'])

theorem Negates.mul_right (hn : isNaN n = true) (h : Negates b b') (a : Word) :
    Negates (mul n a b) (mul n a b') := by
  rw [mul_swap n a b, mul_swap n a b']
  exact h.mul_left hn a

theorem Negates.addFinite (ha : toRat a' = -toRat a) (hb : toRat b' = -toRat b) :
    Negates (addFinite a b) (addFinite a' b') := by
  have hscaled {c d : Word} (h : toRat d = -toRat c) : scaled d = -scaled c := by
    have := congrArg (· * (2 : ℚ) ^ 1074) h
    simp only [neg_mul, ← scaled_cast] at this
    exact_mod_cast this
  have hsum : scaled a' + scaled b' = -(scaled a + scaled b) := by
    rw [hscaled ha, hscaled hb, neg_add]
  by_cases h0 : scaled a + scaled b = 0
  · have h0' : scaled a' + scaled b' = 0 := by rw [hsum, h0, neg_zero]
    refine negates_of_mag_eq_zero ?_ ?_
    · rw [mag_addFinite, h0, Int.natAbs_zero, roundMag_zero]
    · rw [mag_addFinite, h0', Int.natAbs_zero, roundMag_zero]
  · have hneg : F64.addFinite a' b' = neg (F64.addFinite a b) := by
      have hsign : decide (-(scaled a + scaled b) < 0) = !decide (scaled a + scaled b < 0) := by
        rw [← decide_not, decide_eq_decide]
        omega
      rw [addFinite_of_ne h0, neg_pack _ (roundMag_lt _ _), addFinite_of_ne (by rwa [hsum, neg_ne_zero]), hsum,
        Int.natAbs_neg, hsign]
    rw [hneg]
    exact negates_neg _

theorem Negates.add (hn : isNaN n = true) (ha : Negates a a') (hb : Negates b b') :
    Negates (add n a b) (add n a' b') := by
  have hnan {c d : Word} (h : isNaN c = true ∨ isNaN d = true) : isNaN (F64.add n c d) = true :=
    (isNaN_add hn c d).mpr (h.elim .inl fun h => .inr (.inl h))
  cases ha with
  | nan ha ha' => exact .nan (hnan (.inl ha)) (hnan (.inl ha'))
  | inf ha =>
    cases hb with
    | nan hb hb' => exact .nan (hnan (.inr hb)) (hnan (.inr hb'))
    | inf hb =>
      by_cases hs : sign a = sign b
      · have hsum : F64.add n a b = a := by simp [F64.add, isNaN_false_of_isInf, ha, hb, hs]
        have hsum' : F64.add n (neg a) (neg b) = neg a := by simp [F64.add, isNaN_false_of_isInf, ha, hb, hs]
        rw [hsum, hsum']
        exact .inf ha
      · exact .nan (by simp [isNaN_add hn, ha, hb, hs]) (by simp [isNaN_add hn, ha, hb, hs])
    | finite hb hb' _ =>
      rw [add_inf_finite n ha hb, add_inf_finite n (by rwa [isInf_neg]) hb']
      exact .inf ha
  | finite ha ha' h =>
    cases hb with
    | nan hb hb' => exact .nan (hnan (.inr hb)) (hnan (.inr hb'))
    | inf hb =>
      rw [add_finite_inf n ha hb, add_finite_inf n ha' (by rwa [isInf_neg])]
      exact .inf hb
    | finite hb hb' h' =>
      rw [add_finite n ha hb, add_finite n ha' hb']
      exact .addFinite h h'

theorem Negates.neg (h : Negates a a') : Negates (neg a) (neg a') := by
  cases h with
  | nan ha ha' => exact .nan (by rwa [isNaN_neg]) (by rwa [isNaN_neg])
  | inf ha => exact .inf (by rwa [isInf_neg])
  | finite ha ha' h => exact .finite (by rwa [isFinite_neg]) (by rwa [isFinite_neg]) (by rw [toRat_neg, toRat_neg, h])

/-- The factor `|b|` is one for both signs. -/
theorem Negates.mul_abs (hn : isNaN n = true) (ha : Negates a a') (hb : Negates b b') :
    Negates (mul n a (F64.abs b)) (mul n a' (F64.abs b')) := by
  cases hnan : isNaN b
  case true =>
    have hnan' := hb.isNaN_eq.trans hnan
    exact .nan (by simp [isNaN_mul hn, hnan]) (by simp [isNaN_mul hn, hnan'])
  case false =>
    rw [hb.abs_eq hnan]
    exact ha.mul_left hn _

end

end Sys2Proof.F64

namespace Sys2Proof.Machine

open F64

/-! ## parabolic_sine of a negated operand and of one that is not finite (R123) -/

section
variable {nan : Nat → Word} (hnan : ∀ k, isNaN (nan k) = true) {x x' : Word}
include hnan

theorem negates_psinFirst (h : Negates x x') : Negates (psinFirst nan x) (psinFirst nan x') :=
  .add (hnan 3) (h.mul_right (hnan 0) _) (.mul_abs (hnan 2) (h.mul_right (hnan 1) _) h)

theorem negates_psinSecond (h : Negates x x') : Negates (psinSecond nan x) (psinSecond nan x') :=
  .add (hnan 7) (.mul_right (hnan 6) (.add (hnan 5) (.mul_abs (hnan 4) h h) h.neg) _) h

theorem negates_parabolicSine (h : Negates x x') :
    Negates (parabolicSine nan x) (parabolicSine nan x') :=
  negates_psinSecond hnan (negates_psinFirst hnan h)

theorem psinFirst_infinite (h : isInf x = true) : isNaN (psinFirst nan x) = true := by
  have hx := isNaN_false_of_isInf h
  have hz := isZero_false_of_isInf h
  have hpack (s : Bool) : isInf (pack s infMag) = true := by rw [isInf_iff, mag_pack s infMag_lt]
  have hB : mul (nan 0) Config.psinB x = pack (sign x) infMag := by
    rw [mul_infinite _ (by decide) hx (by decide) hz (.inr h), show sign Config.psinB = false by decide,
      Bool.false_bne]
  have hC : mul (nan 1) Config.psinC x = pack (!sign x) infMag := by
    rw [mul_infinite _ (by decide) hx (by decide) hz (.inr h), show sign Config.psinC = true by decide,
      Bool.true_bne]
  have hC' : mul (nan 2) (pack (!sign x) infMag) (F64.abs x) = pack (!sign x) infMag := by
    rw [mul_infinite _ (isNaN_false_of_isInf (hpack _)) (by rwa [isNaN_abs])
      (isZero_false_of_isInf (hpack _)) (by rwa [isZero_abs]) (.inl (hpack _)), sign_pack _ infMag_lt, sign_abs,
      Bool.bne_false]
  rw [psinFirst, hB, hC, hC', isNaN_add (hnan 3)]
  refine .inr (.inr ⟨hpack _, hpack _, ?_⟩)
  rw [sign_pack _ infMag_lt, sign_pack _ infMag_lt]
  exact (Bool.not_ne_self _).symm

theorem psinFirst_nonFinite (h : isFinite x = false) : isNaN (psinFirst nan x) = true := by
  rcases isNaN_or_isInf_or_isFinite x with hx | hx | hx
  · have ht : isNaN (mul (nan 0) Config.psinB x) = true := (isNaN_mul (hnan 0) _ _).mpr (.inr (.inl hx))
    exact (isNaN_add (hnan 3) _ _).mpr (.inl ht)
  · exact psinFirst_infinite hnan hx
  · rw [h] at hx
    cases hx

theorem psinSecond_nan (h : isNaN x = true) : isNaN (psinSecond nan x) = true :=
  (isNaN_add (hnan 7) _ _).mpr (.inr (.inl h))

/-! ## A result that is no NaN does not depend on the open patterns (R6) -/

theorem psinFirst_of_not_nan (h : isNaN (psinFirst nan x) = false) (nan' : Nat → Word) :
    psinFirst nan' x = psinFirst nan x := by
  obtain ⟨ht1, ht2⟩ := not_nan_of_add (hnan 3) h
  obtain ⟨hcx, -⟩ := not_nan_of_mul (hnan 2) ht2
  unfold psinFirst
  rw [mul_of_not_nan (hnan 0) ht1, mul_of_not_nan (hnan 1) hcx, mul_of_not_nan (hnan 2) ht2,
    add_of_not_nan (hnan 3) h]

theorem psinSecond_of_not_nan (h : isNaN (psinSecond nan x) = false) (nan' : Nat → Word) :
    psinSecond nan' x = psinSecond nan x := by
  unfold psinSecond sub at *
  obtain ⟨hw, -⟩ := not_nan_of_add (hnan 7) h
  obtain ⟨-, hv⟩ := not_nan_of_mul (hnan 6) hw
  obtain ⟨hu, -⟩ := not_nan_of_add (hnan 5) hv
  rw [mul_of_not_nan (hnan 4) hu, add_of_not_nan (hnan 5) hv, mul_of_not_nan (hnan 6) hw,
    add_of_not_nan (hnan 7) h]

theorem parabolicSine_of_not_nan (h : isNaN (parabolicSine nan x) = false) (nan' : Nat → Word) :
    parabolicSine nan' x = parabolicSine nan x := by
  have hy : isNaN (psinFirst nan x) = false := by
    by_contra hy
    rw [Bool.not_eq_false] at hy
    have := psinSecond_nan hnan hy
    rw [parabolicSine, this] at h
    cases h
  rw [parabolicSine, psinFirst_of_not_nan hnan hy]
  exact psinSecond_of_not_nan hnan h nan'

end

/-! ## The obligations of R123 -/

/-- Settles O30: every step of the formula negates. -/
theorem parabolicSineIsOdd : Obligations.ParabolicSineIsOdd := by
  intro nan x hnan
  have hodd : Negates (parabolicSine nan x) (parabolicSine nan (neg x)) :=
    negates_parabolicSine hnan (negates_neg x)
  exact ⟨hodd.isNaN_eq, hodd.eq_neg⟩

/-- Settles O31: the first stage is a NaN already, and PSIN writes no flag. -/
theorem psinOfANonFiniteIsNaN : Obligations.PsinOfANonFiniteIsNaN := by
  intro s hs
  have hnan := isNaN_openValues_nan s.draws
  exact ⟨_, exec_psin s, psinSecond_nan hnan (psinFirst_nonFinite hnan hs), rfl⟩

/-- A value of `parabolic_sine` found with one choice of the NaN patterns is the value for every choice. -/
theorem parabolicSine_eq_of_eval {x w : Word} (hw : isNaN w = false)
    (h : parabolicSine (fun _ => 0x7FF8000000000000) x = w) (nan : Nat → Word) : parabolicSine nan x = w := by
  have hnan (_ : Nat) : isNaN 0x7FF8000000000000 = true := by decide
  rw [parabolicSine_of_not_nan hnan (h ▸ hw), h]

/-- Settles O32: the six values by evaluation, no NaN on the way. -/
theorem psinAtMultiplesOfHalfPi : Obligations.PsinAtMultiplesOfHalfPi := by
  intro s
  have hval (x w : Word) (hw : isNaN w = false)
      (h : parabolicSine (fun _ => 0x7FF8000000000000) x = w) (hx : s.arg0 = x) :
      (s.setResult0 (parabolicSine (Config.openValues.nan s.draws) s.arg0)).tick.result0 = w := by
    rw [hx]
    exact parabolicSine_eq_of_eval hw h _
  exact ⟨_, exec_psin s, hval _ _ (by decide) (by decide +kernel), hval _ _ (by decide) (by decide +kernel),
    hval _ _ (by decide) (by decide +kernel), hval _ _ (by decide) (by decide +kernel),
    hval _ _ (by decide) (by decide +kernel), hval _ _ (by decide) (by decide +kernel)⟩

end Sys2Proof.Machine
end

section
/-! SUPPORT. Exact results and the error of a rounding (00_scope.md R3), and what the integral operations give as
magnitudes: `round_half_away` (40_fastmath.md R126) and the remainder by 1.0 (R133). -/

namespace Sys2Proof.F64

open Sys2Proof.Machine

/-! ## Numbers of quanta that are magnitudes -/

/-- Every number of units up to 2^53, at any exponent step, is a magnitude. -/
theorem exists_quanta_eq {m : Nat} (hm : m ≤ 2 ^ 53) (k : Nat) : ∃ p, quanta p = m * 2 ^ k := by
  induction k generalizing m with
  | zero => exact ⟨0 * 2 ^ 52 + m, quanta_binade 0 m hm (.inl rfl)⟩
  | succ k ih =>
    by_cases h : 2 ^ 52 ≤ m
    · exact ⟨_, quanta_binade (k + 1) m hm (.inr h)⟩
    · obtain ⟨p, hp⟩ := ih (m := 2 * m) (by omega)
      exact ⟨p, by rw [hp, pow_succ]; ring⟩

/-- Every magnitude is a number of at most 53 bits at some exponent step. -/
theorem quanta_eq_units (p : Nat) : ∃ m k, m < 2 ^ 53 ∧ quanta p = m * 2 ^ k := by
  obtain ⟨k, m, rfl, hm, h⟩ := exists_binade p
  exact ⟨m, k, hm, quanta_binade k m hm.le h⟩

theorem quanta_infMag : quanta infMag = 2 ^ 52 * 2 ^ 2046 := by
  have h := quanta_binade 2046 (2 ^ 52) (by norm_num) (.inr le_rfl)
  rwa [show 2046 * 2 ^ 52 + 2 ^ 52 = infMag by norm_num [infMag]] at h

theorem lt_infMag_of_quanta_lt {p : Nat} (h : quanta p < 2 ^ 52 * 2 ^ 2046) : p < infMag := by
  rw [← quanta_infMag] at h
  exact quanta_lt.mp h

theorem isFinite_pack (s : Bool) {p : Nat} (h : p < infMag) : isFinite (pack s p) = true := by
  rwa [isFinite_iff, mag_pack s (h.trans infMag_lt)]

theorem toRat_pack (s : Bool) {p : Nat} (h : p < infMag) :
    toRat (pack s p) = (if s then -1 else 1) * ((quanta p : ℚ) / 2 ^ 1074) := by
  rw [toRat_eq, sign_pack s (h.trans infMag_lt), mag_pack s (h.trans infMag_lt)]

/-- The magnitude of 1.0 is the unit. -/
theorem quanta_one : quanta (mag one) = quantaOne := by
  rw [show mag one = 1022 * 2 ^ 52 + 2 ^ 52 by decide, quanta_binade 1022 (2 ^ 52) (by norm_num) (.inr le_rfl),
    quantaOne, ← pow_add]

theorem isFinite_zero : isFinite 0 = true := by decide
theorem isFinite_one : isFinite one = true := by decide

theorem toRat_zero : toRat 0 = 0 := (toRat_eq_zero 0).mpr (by decide)

theorem toRat_one : toRat one = 1 := by
  rw [toRat_eq, quanta_one, quantaOne_cast, div_self (by positivity), show sign one = false by decide]
  norm_num

/-! ## Exact results -/

/-- A value that some pattern has is rounded to itself. -/
theorem isRounded_exact {x : ℚ} {w u : Word} (h : IsRounded x w) (hu : isFinite u = true) (hx : toRat u = x) :
    isFinite w = true ∧ toRat w = x := by
  obtain ⟨-, h⟩ := h
  subst hx
  rw [if_neg (not_le.mpr (abs_toRat_lt_overflowBound hu))] at h
  obtain ⟨hw, hnear⟩ := h
  obtain ⟨hle, -⟩ := hnear u hu
  rw [sub_self, abs_zero] at hle
  exact ⟨hw, sub_eq_zero.mp (abs_nonpos_iff.mp hle)⟩

/-- A whole number of quanta that is a magnitude is a value of its own. -/
theorem isRounded_exact_of_quanta {z : Int} {w : Word} {p : Nat} (h : IsRounded ((z : ℚ) / 2 ^ 1074) w)
    (hp : p < infMag) (hz : quanta p = z.natAbs) : isFinite w = true ∧ toRat w = (z : ℚ) / 2 ^ 1074 := by
  refine isRounded_exact h (isFinite_pack (decide (z < 0)) hp) ?_
  rw [toRat_pack _ hp, hz, ← mul_div_assoc]
  congr 1
  have := signed_natAbs z
  rwa [Nat.cast_one, div_one] at this

/-! ## The error of one rounding -/

/-- Rounding moves a magnitude by at most half a unit of its last place: 2^-53 of it, or half a quantum. -/
theorem rawMag_error (n d : Nat) (hd : 0 < d) :
    |(quanta (rawMag n d) : ℚ) - n / d| ≤ (n : ℚ) / d / 2 ^ 53 + 1 / 2 := by
  obtain ⟨-, hbig⟩ := expStep_spec n d hd
  obtain ⟨hlo, hhi, -, -⟩ := roundDiv_spec n (d * 2 ^ expStep n d) (expStep_den_pos n d hd)
  rw [quanta_rawMag n d hd]
  generalize expStep n d = k at *
  generalize roundDiv n (d * 2 ^ k) = r at *
  have hdq : (0 : ℚ) < d := by exact_mod_cast hd
  have hx : (n : ℚ) = n / d * d := by field_simp
  have hx0 : (0 : ℚ) ≤ n / d := by positivity
  have hlo' : (2 * r * (d * 2 ^ k) : ℚ) ≤ 2 * n + d * 2 ^ k := by exact_mod_cast hlo
  have hhi' : (2 * n : ℚ) ≤ 2 * r * (d * 2 ^ k) + d * 2 ^ k := by exact_mod_cast hhi
  have hbig' : k = 0 ∨ (2 ^ 52 * (d * 2 ^ k) : ℚ) ≤ n := hbig.imp_right fun h => by exact_mod_cast h
  push_cast
  generalize (n : ℚ) / d = X at *
  rw [hx] at hlo' hhi' hbig'
  generalize hK : (2 : ℚ) ^ k = K at *
  have hhalf : K / 2 ≤ X / 2 ^ 53 + 1 / 2 := by
    rcases hbig' with rfl | hbig'
    · rw [← hK, pow_zero]
      have : 0 ≤ X / 2 ^ 53 := by positivity
      linarith
    · have : 2 ^ 52 * K ≤ X := le_of_mul_le_mul_right (by linarith) hdq
      linarith
  have hlo'' : 2 * r * K ≤ 2 * X + K := le_of_mul_le_mul_right (by linarith) hdq
  have hhi'' : 2 * X ≤ 2 * r * K + K := le_of_mul_le_mul_right (by linarith) hdq
  rw [abs_le]
  constructor <;> linarith

/-- A rational number is its sign and a fraction of quanta, in the form that `isRounded_pack` takes. -/
theorem exists_quanta_fraction (x : ℚ) : ∃ n d : Nat, 0 < d ∧ |x| = (n : ℚ) / d / 2 ^ 1074 ∧
    x = (if decide (x < 0) then -1 else 1) * ((n : ℚ) / d / 2 ^ 1074) := by
  have hfrac : |x| = ((x.num.natAbs * quantaOne : Nat) : ℚ) / x.den / 2 ^ 1074 := by
    rw [Nat.cast_mul, quantaOne_cast, mul_div_right_comm, mul_div_cancel_right₀ _ (by positivity), Nat.cast_natAbs,
      Int.cast_abs, ← Nat.abs_cast x.den, ← abs_div, Rat.num_div_den]
  refine ⟨_, x.den, x.den_pos, hfrac, ?_⟩
  rw [← hfrac]
  by_cases h : x < 0
  · simp [h, abs_of_neg h]
  · simp [h, abs_of_nonneg (not_lt.mp h)]

/-- A value that does not overflow is rounded to a finite one, and by how little. -/
theorem isRounded_error {x : ℚ} {w : Word} (h : IsRounded x w) (hx : |x| < overflowBound) :
    isFinite w = true ∧ |toRat w - x| ≤ |x| / 2 ^ 53 + 1 / 2 ^ 1075 := by
  obtain ⟨n, d, hd, habs, hsgn⟩ := exists_quanta_fraction x
  have hpack := isRounded_pack (decide (x < 0)) n d hd
  rw [← hsgn] at hpack
  obtain ⟨-, hpack⟩ := hpack
  obtain ⟨-, h⟩ := h
  rw [if_neg hx.not_ge] at h hpack
  obtain ⟨hw, hnear⟩ := h
  obtain ⟨hu, -⟩ := hpack
  refine ⟨hw, ((hnear _ hu).1).trans ?_⟩
  rw [isFinite_iff, mag_pack _ (roundMag_lt n d)] at hu
  have hraw : roundMag n d = rawMag n d := by
    rw [roundMag_eq] at hu ⊢
    omega
  have hval : toRat (pack (decide (x < 0)) (roundMag n d)) - x =
      (if decide (x < 0) then -1 else 1) * (((quanta (rawMag n d) : ℚ) - n / d) / 2 ^ 1074) := by
    rw [toRat_pack _ hu, hraw]
    obtain ⟨P, hP, hPe⟩ := exists_unit
    rw [← hPe] at hsgn ⊢
    linear_combination -hsgn
  have hsign : |if decide (x < 0) then (-1 : ℚ) else 1| = 1 := by split <;> simp
  rw [hval, abs_mul, hsign, one_mul, abs_div, abs_of_pos (a := (2 : ℚ) ^ 1074) (by positivity)]
  calc |(quanta (rawMag n d) : ℚ) - n / d| / 2 ^ 1074
      ≤ ((n : ℚ) / d / 2 ^ 53 + 1 / 2) / 2 ^ 1074 :=
        div_le_div_of_nonneg_right (rawMag_error n d hd) (by positivity)
    _ = |x| / 2 ^ 53 + 1 / 2 ^ 1075 := by rw [habs, pow_succ 2 1074]; ring

/-! ## round_half_away (40_fastmath.md R126) -/

/-- The integral magnitude that `round_half_away` takes, as an integer. -/
def halfAwayNat (x : Word) : Nat := (quanta (mag x) + 2 ^ 1073) / quantaOne

theorem roundHalfAway_eq (x : Word) :
    roundHalfAway x = pack (sign x) (roundMag (halfAwayNat x * quantaOne) 1) := by
  rw [roundHalfAway, halfAwayNat, quantaOne]

/-- A half, kept as a variable: no proof below needs its value. -/
theorem exists_half_unit : ∃ H : Nat, 0 < H ∧ H = 2 ^ 1073 ∧ quantaOne = 2 * H :=
  ⟨2 ^ 1073, Nat.two_pow_pos _, rfl, by rw [quantaOne, ← pow_succ']⟩

/-- It is the nearest integer, and of two the larger one. -/
theorem halfAwayNat_iff (x : Word) (n : Nat) : halfAwayNat x = n ↔
    2 * (n * quantaOne) ≤ 2 * quanta (mag x) + quantaOne ∧
      2 * quanta (mag x) < 2 * (n * quantaOne) + quantaOne := by
  obtain ⟨H, hH, hHe, hU⟩ := exists_half_unit
  rw [halfAwayNat, ← hHe, hU, Nat.div_eq_iff (by omega)]
  clear hHe hU
  rw [Nat.mul_left_comm]
  generalize n * H = m
  omega

/-- A finite magnitude is an integer, or below 2^52. -/
theorem integral_or_small (x : Word) : quantaOne ∣ quanta (mag x) ∨ quanta (mag x) < 2 ^ 52 * quantaOne := by
  rw [quantaOne]
  exact quanta_multiple_or_small (mag x) 1074

theorem halfAwayNat_of_integral {x : Word} (h : quantaOne ∣ quanta (mag x)) :
    halfAwayNat x * quantaOne = quanta (mag x) := by
  obtain ⟨c, hc⟩ := h
  have hpos := quantaOne_pos
  rw [(halfAwayNat_iff x c).mpr (by rw [hc, Nat.mul_comm c]; omega), hc, Nat.mul_comm]

theorem halfAwayNat_le_of_small {x : Word} (h : quanta (mag x) < 2 ^ 52 * quantaOne) :
    halfAwayNat x ≤ 2 ^ 52 := by
  obtain ⟨hle, -⟩ := (halfAwayNat_iff x _).mp rfl
  have hpos := quantaOne_pos
  generalize halfAwayNat x = n at *
  generalize quantaOne = U at *
  by_contra hn
  have : (2 ^ 52 + 1) * U ≤ n * U := Nat.mul_le_mul_right U (by omega)
  omega

/-- `round_half_away` is exact: its magnitude is that integer. -/
theorem exists_roundHalfAway {x : Word} (hx : isFinite x = true) :
    ∃ p, p < infMag ∧ quanta p = halfAwayNat x * quantaOne ∧ roundHalfAway x = pack (sign x) p := by
  obtain ⟨p, hp, hlt⟩ : ∃ p, quanta p = halfAwayNat x * quantaOne ∧ p < infMag := by
    rcases integral_or_small x with h | h
    · exact ⟨mag x, (halfAwayNat_of_integral h).symm, (isFinite_iff x).mp hx⟩
    · have hle := halfAwayNat_le_of_small h
      obtain ⟨p, hp⟩ := exists_quanta_eq (hle.trans (by norm_num)) 1074
      refine ⟨p, hp, lt_infMag_of_quanta_lt ?_⟩
      rw [hp]
      exact Nat.mul_lt_mul_of_le_of_lt hle (Nat.pow_lt_pow_right (by norm_num) (by norm_num)) (by norm_num)
  refine ⟨p, hlt, hp, ?_⟩
  have hexact := roundMag_exact p 1 one_pos hlt.le
  rw [Nat.mul_one] at hexact
  rw [roundHalfAway_eq, ← hp, hexact]

/-! ## The remainder by 1.0 (40_fastmath.md R133) -/

/-- The fraction of a magnitude is a magnitude. -/
theorem exists_quanta_fract (m : Nat) : ∃ p, quanta p = quanta m % quantaOne := by
  obtain ⟨u, k, hu, hq⟩ := quanta_eq_units m
  rw [hq, quantaOne]
  by_cases hk : k ≤ 1074
  · rw [← Nat.sub_add_cancel hk, pow_add, Nat.mul_mod_mul_right]
    exact exists_quanta_eq ((Nat.mod_le _ _).trans hu.le) k
  · refine ⟨0, ?_⟩
    rw [quanta_zero, eq_comm, ← Nat.dvd_iff_mod_eq_zero]
    exact Dvd.dvd.mul_left (pow_dvd_pow 2 (by omega)) u

/-- The remainder by 1.0 is exact: its magnitude is the fraction. -/
theorem exists_fmod_one {x : Word} (nan : Word) (hx : isFinite x = true) :
    ∃ p, p < infMag ∧ quanta p = quanta (mag x) % quantaOne ∧ fmod nan x one = pack (sign x) p := by
  obtain ⟨p, hp⟩ := exists_quanta_fract (mag x)
  have hlt : p < infMag := by
    refine lt_of_le_of_lt (quanta_le.mp ?_) ((isFinite_iff x).mp hx)
    rw [hp]
    exact Nat.mod_le _ _
  refine ⟨p, hlt, hp, ?_⟩
  have hexact := roundMag_exact p 1 one_pos hlt.le
  rw [Nat.mul_one] at hexact
  have hfmod : fmod nan x one = pack (sign x) (roundMag (quanta (mag x) % quanta (mag one)) 1) := by
    simp [fmod, isNaN_false_of_isFinite hx, isInf_false_of_isFinite hx, show isNaN one = false by decide,
      show isZero one = false by decide, show isInf one = false by decide]
  rw [hfmod, quanta_one, ← hp, hexact]

end Sys2Proof.F64
end

section
/-! SUPPORT. The proofs about `exp2` (40_fastmath.md R126 to R131): the split of the operand, `EXP2_FRAC`, and the
product with the scale. -/

namespace Sys2Proof.F64

open Sys2Proof.Machine

/-! ## The integer part (R126) -/

section
variable {x : Word}

theorem isFinite_roundHalfAway (hx : isFinite x = true) : isFinite (roundHalfAway x) = true := by
  obtain ⟨p, hlt, -, hr⟩ := exists_roundHalfAway hx
  rw [hr]
  exact isFinite_pack _ hlt

theorem sign_roundHalfAway (x : Word) : sign (roundHalfAway x) = sign x := by
  rw [roundHalfAway_eq, sign_pack _ (roundMag_lt _ _)]

theorem quanta_roundHalfAway (hx : isFinite x = true) :
    quanta (mag (roundHalfAway x)) = halfAwayNat x * quantaOne := by
  obtain ⟨p, hlt, hp, hr⟩ := exists_roundHalfAway hx
  rw [hr, mag_pack _ (hlt.trans infMag_lt), hp]

theorem toRat_roundHalfAway (hx : isFinite x = true) :
    toRat (roundHalfAway x) = (if sign x then -1 else 1) * halfAwayNat x := by
  rw [toRat_eq, sign_roundHalfAway, quanta_roundHalfAway hx, ← quantaOne_cast, Nat.cast_mul,
    mul_div_cancel_right₀ _ (Nat.cast_ne_zero.mpr quantaOne_pos.ne')]

theorem toInt_roundHalfAway (hx : isFinite x = true) :
    toInt (roundHalfAway x) = (if sign x then -1 else 1) * halfAwayNat x := by
  rw [toInt, sign_roundHalfAway, quanta_roundHalfAway hx, Nat.mul_div_cancel _ quantaOne_pos]
  split <;> ring

theorem floor_abs_add_half (x : Word) : ⌊|toRat x| + 1 / 2⌋ = (halfAwayNat x : Int) := by
  obtain ⟨hlo, hhi⟩ := (halfAwayNat_iff x _).mp rfl
  have hU : (0 : ℚ) < quantaOne := Nat.cast_pos.mpr quantaOne_pos
  have hlo' : (2 * (halfAwayNat x * quantaOne) : ℚ) ≤ 2 * quanta (mag x) + quantaOne := by exact_mod_cast hlo
  have hhi' : (2 * quanta (mag x) : ℚ) < 2 * (halfAwayNat x * quantaOne) + quantaOne := by exact_mod_cast hhi
  rw [Int.floor_eq_iff, abs_toRat, ← quantaOne_cast, Int.cast_natCast]
  generalize (quantaOne : ℚ) = U at *
  have hq : (quanta (mag x) : ℚ) = quanta (mag x) / U * U := by field_simp
  generalize (quanta (mag x) : ℚ) / U = X at *
  rw [hq] at hlo' hhi'
  clear hlo hhi hq
  constructor
  · refine le_of_mul_le_mul_right (a := U) ?_ hU
    linarith
  · refine lt_of_mul_lt_mul_right (a := U) ?_ hU.le
    linarith

end

/-- Settles O34. -/
theorem roundHalfAwayIsNearestAwayFromZero : Obligations.RoundHalfAwayIsNearestAwayFromZero := by
  intro x hx
  refine ⟨isFinite_roundHalfAway hx, sign_roundHalfAway x, ?_, ?_⟩
  · rw [floor_abs_add_half, toRat_roundHalfAway hx, abs_mul, Int.cast_natCast, Nat.abs_cast]
    split <;> simp
  · rw [toInt_roundHalfAway hx, toRat_roundHalfAway hx]
    split <;> simp

/-! ## The fraction (R127) -/

/-- A number of units and a positive multiple of `2^e` units near it differ by a magnitude. -/
theorem exists_quanta_natAbs_sub {u n e : Nat} (k : Nat) (hu : u < 2 ^ 53) (hn : n ≠ 0)
    (hle : 2 * (n * 2 ^ e) ≤ 2 * u + 2 ^ e) : ∃ p, quanta p = ((u : Int) - (n * 2 ^ e : Nat)).natAbs * 2 ^ k := by
  refine exists_quanta_eq ?_ k
  have hn' : 1 * 2 ^ e ≤ n * 2 ^ e := Nat.mul_le_mul_right _ (Nat.one_le_iff_ne_zero.mpr hn)
  have he : e < 54 := (Nat.pow_lt_pow_iff_right one_lt_two).mp (show 2 ^ e < 2 ^ 54 by omega)
  have : 2 ^ e ≤ 2 ^ 53 := Nat.pow_le_pow_right two_pos (by omega)
  omega

/-- The difference of a magnitude and its nearest integer is a magnitude. -/
theorem exists_quanta_half_fract (x : Word) :
    ∃ p, quanta p = ((quanta (mag x) : Int) - (halfAwayNat x * quantaOne : Nat)).natAbs := by
  by_cases hN : halfAwayNat x = 0
  · exact ⟨mag x, by rw [hN, Nat.zero_mul, Nat.cast_zero, sub_zero, Int.natAbs_natCast]⟩
  by_cases hint : quantaOne ∣ quanta (mag x)
  · exact ⟨0, by rw [halfAwayNat_of_integral hint, sub_self, Int.natAbs_zero, quanta_zero]⟩
  obtain ⟨u, k, hu, hq⟩ := quanta_eq_units (mag x)
  obtain ⟨e, he⟩ : ∃ e, quantaOne = 2 ^ e * 2 ^ k := by
    refine ⟨1074 - k, ?_⟩
    rw [quantaOne, ← pow_add, Nat.sub_add_cancel]
    by_contra hk
    refine hint ?_
    rw [hq, quantaOne]
    exact Dvd.dvd.mul_left (pow_dvd_pow 2 (by omega)) u
  obtain ⟨hle, -⟩ := (halfAwayNat_iff x _).mp rfl
  rw [hq, he] at hle
  obtain ⟨p, hp⟩ := exists_quanta_natAbs_sub k hu hN
    (Nat.le_of_mul_le_mul_right (by linarith) (Nat.two_pow_pos k))
  have hfactor : ((u * 2 ^ k : Nat) : Int) - (halfAwayNat x * (2 ^ e * 2 ^ k) : Nat) =
      (u - (halfAwayNat x * 2 ^ e : Nat)) * (2 ^ k : Nat) := by
    push_cast
    ring
  exact ⟨p, by rw [hp, hq, he, hfactor, Int.natAbs_mul, Int.natAbs_natCast]⟩

/-- The fraction in quanta is that of the magnitudes, since both operands have one sign. -/
theorem natAbs_scaled_sub_roundHalfAway {x : Word} (hx : isFinite x = true) :
    (scaled x - scaled (roundHalfAway x)).natAbs =
      ((quanta (mag x) : Int) - (halfAwayNat x * quantaOne : Nat)).natAbs := by
  rw [scaled, scaled, sign_roundHalfAway, quanta_roundHalfAway hx]
  split
  · rw [← Int.natAbs_neg, neg_sub_neg, neg_sub]
  · rfl

/-- Settles O35: the difference is a number of quanta that is a magnitude, and at most half the unit. -/
theorem exp2FractionIsExact : Obligations.Exp2FractionIsExact := by
  intro nan x hx
  obtain ⟨-, hround⟩ := sumsAreCorrectlyRounded nan x (roundHalfAway x) hx (isFinite_roundHalfAway hx)
  obtain ⟨p, hp⟩ := exists_quanta_half_fract x
  have hhalf : 2 * quanta p ≤ quantaOne := by
    obtain ⟨hlo, hhi⟩ := (halfAwayNat_iff x _).mp rfl
    rw [hp]
    omega
  have hlt : p < infMag := by
    refine lt_of_le_of_lt (b := mag one) (quanta_le.mp ?_) (by decide)
    rw [quanta_one]
    omega
  rw [← natAbs_scaled_sub_roundHalfAway hx] at hp
  have hdiff : toRat x - toRat (roundHalfAway x) =
      ((scaled x - scaled (roundHalfAway x) : Int) : ℚ) / 2 ^ 1074 := by
    rw [toRat, toRat, ← sub_div, Int.cast_sub]
  rw [hdiff] at hround ⊢
  obtain ⟨hfin, hval⟩ := isRounded_exact_of_quanta hround hlt hp
  refine ⟨hfin, hval, ?_⟩
  rw [hval, abs_div, ← Int.cast_abs, ← Int.natCast_natAbs, ← hp, Int.cast_natCast, ← quantaOne_cast, Nat.abs_cast,
    div_le_iff₀ (Nat.cast_pos.mpr quantaOne_pos)]
  have : (2 * quanta p : ℚ) ≤ quantaOne := by exact_mod_cast hhalf
  linarith

end Sys2Proof.F64
end

section
/-! SUPPORT. The values of `exp2` (40_fastmath.md R128, R129, R131). -/

namespace Sys2Proof.F64

open Sys2Proof.Machine

theorem toRat_half : toRat half = 1 / 2 := by decide +kernel

/-- 1.0 is neutral. -/
theorem mul_one_left {w : Word} (nan : Word) (hw : isFinite w = true) : mul nan one w = w := by
  rw [mul_finite nan (by decide) hw, quanta_one, Nat.mul_comm,
    roundMag_exact _ _ quantaOne_pos ((isFinite_iff w).mp hw).le, show sign one = false by decide, Bool.false_bne,
    pack_sign_mag]

end Sys2Proof.F64

namespace Sys2Proof.Machine

open F64

/-! ## EXP2_FRAC (R128) -/

theorem exp2Frac_of_isZero {f : Word} (h : isZero f = true) : Config.exp2Frac f = one := if_pos h

theorem exp2Frac_accurate : Config.Exp2FracAccurate Config.exp2Frac := by
  intro f hf habs
  by_cases h0 : isZero f = true
  · rw [exp2Frac_of_isZero h0, toRat_one, (toRat_eq_zero f).mpr ((isZero_iff f).mp h0)]
    exact ⟨by decide, by norm_num⟩
  · rw [Config.exp2Frac, if_neg h0]
    exact (@Config.someExp2Frac ⟨⟨Config.exp2Witness, Config.exp2Witness_accurate⟩⟩).2 f hf habs

/-- Settles O39: at a zero by definition, elsewhere by the property of the parameter. -/
theorem exp2FracHasItsRequiredProperties : Obligations.Exp2FracHasItsRequiredProperties :=
  ⟨exp2Frac_of_isZero (by decide), exp2Frac_of_isZero (by decide), exp2Frac_accurate⟩

/-- On [-0.5, 0.5] `EXP2_FRAC` stays in the binades of 0.5 and 1.0. -/
theorem exp2Frac_bounds {f : Word} (hf : isFinite f = true) (habs : |toRat f| ≤ 1 / 2) :
    1 / 2 ≤ toRat (Config.exp2Frac f) ∧ toRat (Config.exp2Frac f) < 2 := by
  obtain ⟨-, hacc⟩ := exp2Frac_accurate f hf habs
  obtain ⟨-, hlo, hhi⟩ := Config.exp2Series_close (toRat f) habs
  obtain ⟨hacc1, hacc2⟩ := abs_le.mp hacc
  constructor
  · have : ((1 / 2 : ℚ) : ℝ) ≤ (toRat (Config.exp2Frac f) : ℝ) := by
      push_cast
      linarith
    exact_mod_cast this
  · have : (toRat (Config.exp2Frac f) : ℝ) < ((2 : ℚ) : ℝ) := by
      push_cast
      linarith
    exact_mod_cast this

/-! ## The scale (R129) -/

/-- The scale is `2^n`, a normal number. -/
theorem exp2Scale_value {n : Int} (hlo : -1022 ≤ n) (hhi : n ≤ 1023) :
    isFinite (exp2Scale n) = true ∧ toRat (exp2Scale n) = (2 : ℚ) ^ n := by
  obtain ⟨hfin, hval⟩ := Config.scaled_of_bits (n + 1023).toNat 0 (by omega) (by omega) (by norm_num)
  rw [exp2Scale_eq, ← Nat.add_zero ((n + 1023).toNat * 2 ^ 52)]
  refine ⟨hfin, ?_⟩
  have hexp : ((52 + ((n + 1023).toNat - 1) : Nat) : Int) = n + (1074 : Nat) := by omega
  rw [toRat, hval, Nat.add_zero, ← pow_add, Int.cast_natCast, Nat.cast_pow, Nat.cast_ofNat, ← zpow_natCast, hexp,
    zpow_add₀ two_ne_zero, zpow_natCast, mul_div_cancel_right₀ _ (by positivity)]

/-- A factor of the binades of 0.5 and 1.0 is scaled by `2^n` with no rounding. -/
theorem exists_scaled {g : Word} {n : Int} (hlo : 1 / 2 ≤ toRat g) (hhi : toRat g < 2) (hn : -1021 ≤ n)
    (hn' : n ≤ 1023) : ∃ u, isFinite u = true ∧ toRat u = toRat g * 2 ^ n := by
  have habs : |toRat g| = toRat g := abs_of_nonneg (by linarith)
  have hhalf : mag half ≤ mag g := (abs_toRat_le half g).mp (by rw [habs, toRat_half]; norm_num [hlo, abs_of_pos])
  have htwo : mag g < mag 0x4000000000000000 := by
    rw [← not_le, ← abs_toRat_le, habs, show toRat 0x4000000000000000 = 2 by decide +kernel]
    norm_num [hhi]
  rw [show mag half = 1021 * 2 ^ 52 + 2 ^ 52 by decide] at hhalf
  rw [show mag 0x4000000000000000 = 1023 * 2 ^ 52 + 2 ^ 52 by decide] at htwo
  obtain ⟨k, m, hk, hm, hnormal⟩ := exists_binade (mag g)
  obtain ⟨j, hj⟩ : ∃ j : Nat, (j : Int) = k + n := ⟨(k + n).toNat, by omega⟩
  have hlt : j * 2 ^ 52 + m < infMag := by
    unfold infMag
    omega
  refine ⟨pack (sign g) (j * 2 ^ 52 + m), isFinite_pack _ hlt, ?_⟩
  rw [toRat_pack _ hlt, toRat_eq, hk, quanta_binade k m hm.le hnormal, quanta_binade j m hm.le (.inr (by omega)),
    mul_assoc, div_mul_eq_mul_div]
  push_cast
  rw [mul_assoc, ← zpow_natCast 2 k, ← zpow_add₀ two_ne_zero, ← hj, zpow_natCast]

theorem mul_exp2Scale {g : Word} {n : Int} (nan : Word) (hg : isFinite g = true) (hlo : 1 / 2 ≤ toRat g)
    (hhi : toRat g < 2) (hn : -1021 ≤ n) (hn' : n ≤ 1023) :
    isFinite (mul nan g (exp2Scale n)) = true ∧ toRat (mul nan g (exp2Scale n)) = toRat g * 2 ^ n := by
  obtain ⟨hscale, hval⟩ := exp2Scale_value (n := n) (by omega) hn'
  obtain ⟨u, hu, huval⟩ := exists_scaled hlo hhi hn hn'
  rw [← hval] at huval ⊢
  exact isRounded_exact (isRounded_mul nan hg hscale) hu huval

/-! ## exp2 of an operand in range (R129, R131) -/

section
variable {x : Word}

theorem toRat_roundHalfAway_eq_exp2Int (hx : isFinite x = true) : toRat (roundHalfAway x) = exp2Int x := by
  obtain ⟨-, -, -, hint⟩ := roundHalfAwayIsNearestAwayFromZero x hx
  exact hint.symm

theorem toRat_exp2Fp (nan : Word) (hx : isFinite x = true) : toRat (exp2Fp nan x) = toRat x - exp2Int x := by
  obtain ⟨-, hval, -⟩ := exp2FractionIsExact nan x hx
  rw [exp2Fp, hval, toRat_roundHalfAway_eq_exp2Int hx]

theorem rpow_toRat (nan : Word) (hx : isFinite x = true) :
    (2 : ℝ) ^ (toRat x : ℝ) = (2 : ℝ) ^ (toRat (exp2Fp nan x) : ℝ) * (2 : ℝ) ^ exp2Int x := by
  rw [toRat_exp2Fp nan hx, ← Real.rpow_intCast, ← Real.rpow_add two_pos]
  push_cast
  rw [sub_add_cancel]

/-- An integral operand is its own integer part. -/
theorem exp2Int_of_integral {k : Int} (hx : isFinite x = true) (hk : toRat x = k) : exp2Int x = k := by
  obtain ⟨-, -, habs⟩ := exp2FractionIsExact 0 x hx
  rw [← exp2Fp, toRat_exp2Fp 0 hx, hk, ← Int.cast_sub, ← Int.cast_abs] at habs
  have : |k - exp2Int x| < 1 := by
    have : ((|k - exp2Int x| : Int) : ℚ) < ((1 : Int) : ℚ) := by
      push_cast at habs ⊢
      linarith
    exact_mod_cast this
  have := Int.abs_lt_one_iff.mp this
  omega

end

theorem exec_exp2_inRange {s : State} (h : exp2InRange s.arg0 = true) :
    ∃ (t : State) (nan : Nat → Word), exec .exp2 s = .next t ∧
    t.result0 = mul (nan 1) (Config.exp2Frac (exp2Fp (nan 0) s.arg0)) (exp2Scale (exp2Int s.arg0)) ∧
    t.status = s.status := by
  refine ⟨_, Config.openValues.nan s.draws, exec_exp2 s, ?_⟩
  rw [exp2OfArg0, exp2_inRange _ _ _ h]
  exact ⟨rfl, rfl⟩

/-- Settles O37: the fraction is a zero, so that the product is 1.0 times the scale. -/
theorem exp2IsExactAtIntegers : Obligations.Exp2IsExactAtIntegers := by
  intro s k hlo hhi hx hk
  have hint := exp2Int_of_integral hx hk
  obtain ⟨t, nan, hexec, hres, hstatus⟩ :=
    exec_exp2_inRange ((exp2InRange_iff s.arg0).mpr ⟨hx, by rw [hint]; exact hlo, by rw [hint]; exact hhi⟩)
  have hzero : isZero (exp2Fp (nan 0) s.arg0) = true := by
    rw [isZero_iff, ← toRat_eq_zero, toRat_exp2Fp _ hx, hint, hk, sub_self]
  refine ⟨t, hexec, ?_, hstatus⟩
  rw [hres, exp2Frac_of_isZero hzero, hint, mul_one_left _ (exp2Scale_value hlo hhi).1, exp2Scale_eq]

/-- Settles O38: the product with the scale is exact, so that the error is that of `EXP2_FRAC`. -/
theorem exp2IsAccurateInRange : Obligations.Exp2IsAccurateInRange := by
  intro s hx hlo hhi
  rw [← exp2Int] at hlo hhi
  obtain ⟨t, nan, hexec, hres, -⟩ := exec_exp2_inRange ((exp2InRange_iff s.arg0).mpr ⟨hx, by omega, hhi⟩)
  obtain ⟨hfp, -, habs⟩ := exp2FractionIsExact (nan 0) s.arg0 hx
  rw [← exp2Fp] at hfp habs
  obtain ⟨hg, hacc⟩ := exp2Frac_accurate _ hfp habs
  obtain ⟨hglo, hghi⟩ := exp2Frac_bounds hfp habs
  obtain ⟨hfin, hprod⟩ := mul_exp2Scale (nan 1) hg hglo hghi hlo hhi
  rw [← hres] at hfin hprod
  refine ⟨t, hexec, hfin, ?_⟩
  rw [hprod, rpow_toRat (nan 0) hx, Rat.cast_mul, Rat.cast_zpow, Rat.cast_ofNat, ← sub_mul, abs_mul,
    abs_of_pos (a := (2 : ℝ) ^ exp2Int s.arg0) (by positivity), ← mul_assoc]
  exact mul_le_mul_of_nonneg_right hacc (by positivity)

end Sys2Proof.Machine
end

section
/-! SUPPORT. The properties of `wrap01` (40_fastmath.md R134, R135): the remainder by 1.0 is the fraction of the
magnitude, and the one sum that follows it rounds once. -/

namespace Sys2Proof.F64

open Sys2Proof.Machine

/-! ## The fraction of a magnitude (R133) -/

section
variable {x : Word}

theorem fract_abs_toRat (x : Word) :
    Int.fract |toRat x| = ((quanta (mag x) % quantaOne : Nat) : ℚ) / quantaOne := by
  rw [abs_toRat, ← quantaOne_cast, Int.fract_div_natCast_eq_div_natCast_mod]

theorem isFinite_fmod_one (nan : Word) (hx : isFinite x = true) : isFinite (fmod nan x one) = true := by
  obtain ⟨p, hlt, -, hr⟩ := exists_fmod_one nan hx
  rw [hr]
  exact isFinite_pack _ hlt

theorem sign_fmod_one (nan : Word) (hx : isFinite x = true) : sign (fmod nan x one) = sign x := by
  obtain ⟨p, hlt, -, hr⟩ := exists_fmod_one nan hx
  rw [hr, sign_pack _ (hlt.trans infMag_lt)]

theorem toRat_fmod_one (nan : Word) (hx : isFinite x = true) :
    toRat (fmod nan x one) = (if sign x then -1 else 1) * Int.fract |toRat x| := by
  obtain ⟨p, hlt, hp, hr⟩ := exists_fmod_one nan hx
  rw [hr, toRat_pack _ hlt, hp, fract_abs_toRat, quantaOne_cast]

end

theorem toRat_eq_sign_mul_abs (x : Word) : toRat x = (if sign x then -1 else 1) * |toRat x| := by
  rw [abs_toRat]
  exact toRat_eq x

/-- The remainder by 1.0 of an operand that is not negative, of a negative integer, and of a negative value between
two integers. -/
theorem toRat_fmod_one_cases (nan : Word) {x : Word} (hx : isFinite x = true) :
    (0 ≤ toRat x ∧ toRat (fmod nan x one) = Int.fract (toRat x)) ∨
    (Int.fract (toRat x) = 0 ∧ toRat (fmod nan x one) = 0) ∨
    (toRat x < 0 ∧ 0 < Int.fract |toRat x| ∧ toRat (fmod nan x one) = -Int.fract |toRat x| ∧
      Int.fract (toRat x) = 1 - Int.fract |toRat x|) := by
  have hval := toRat_fmod_one nan hx
  have hxabs := toRat_eq_sign_mul_abs x
  cases hs : sign x
  · rw [hs, if_neg Bool.false_ne_true, one_mul] at hxabs hval
    rw [← hxabs] at hval
    exact .inl ⟨abs_eq_self.mp hxabs.symm, hval⟩
  · rw [hs, if_pos rfl, neg_one_mul] at hxabs hval
    by_cases h0 : Int.fract |toRat x| = 0
    · have hzero : Int.fract (toRat x) = 0 := by rw [hxabs, Int.fract_neg_eq_zero, h0]
      exact .inr (.inl ⟨hzero, by rw [hval, h0, neg_zero]⟩)
    · have hneg : toRat x < 0 := by
        refine lt_of_le_of_ne (abs_eq_neg_self.mp (neg_eq_iff_eq_neg.mpr hxabs).symm) fun hz => h0 ?_
        rw [hz, abs_zero, Int.fract_zero]
      have hfract : Int.fract (toRat x) = 1 - Int.fract |toRat x| := by
        conv_lhs => rw [hxabs]
        exact Int.fract_neg h0
      exact .inr (.inr ⟨hneg, lt_of_le_of_ne (Int.fract_nonneg _) (Ne.symm h0), hval, hfract⟩)

/-- The fraction of a value of at least 1.0 is a multiple of 2^-52. -/
theorem fract_abs_ge {x : Word} (h1 : 1 ≤ |toRat x|) (h0 : Int.fract |toRat x| ≠ 0) :
    1 / 2 ^ 52 ≤ Int.fract |toRat x| := by
  have hU : (0 : ℚ) < quantaOne := Nat.cast_pos.mpr quantaOne_pos
  have hunit : quantaOne = 2 ^ 52 * 2 ^ 1022 := by rw [quantaOne, ← pow_add]
  have hge : ¬ quanta (mag x) < 2 ^ 52 * 2 ^ 1022 := by
    rw [abs_toRat, ← quantaOne_cast, le_div_iff₀ hU, one_mul, Nat.cast_le] at h1
    rw [← hunit]
    exact h1.not_gt
  have hdvd : 2 ^ 1022 ∣ quanta (mag x) % quantaOne := by
    rw [Nat.dvd_mod_iff (hunit ▸ Dvd.intro_left _ rfl)]
    exact (quanta_multiple_or_small (mag x) 1022).resolve_right hge
  rw [fract_abs_toRat] at h0 ⊢
  have hpos : 0 < quanta (mag x) % quantaOne := by
    rw [Nat.pos_iff_ne_zero]
    intro hz
    rw [hz, Nat.cast_zero, zero_div] at h0
    exact h0 rfl
  have hle : 1 * quantaOne ≤ (quanta (mag x) % quantaOne) * 2 ^ 52 := by
    calc 1 * quantaOne = 2 ^ 1022 * 2 ^ 52 := by rw [Nat.one_mul, hunit, Nat.mul_comm]
      _ ≤ _ := Nat.mul_le_mul_right _ (Nat.le_of_dvd hpos hdvd)
  rw [div_le_div_iff₀ (by norm_num) hU]
  exact_mod_cast hle

/-! ## One rounding in the unit interval -/

section
variable {y : ℚ} {w : Word}

theorem isRounded_nearest (h : IsRounded y w) (hy : |y| ≤ 1) : isFinite w = true ∧
    ∀ u : Word, isFinite u = true → |toRat w - y| ≤ |toRat u - y| ∧
      (|toRat w - y| = |toRat u - y| → toRat u ≠ toRat w → mag w % 2 = 0) := by
  obtain ⟨-, h⟩ := h
  have hbound : |toRat one| < overflowBound := abs_toRat_lt_overflowBound (by decide)
  rw [toRat_one, abs_one] at hbound
  rwa [if_neg (by linarith)] at h

theorem isRounded_unit (h : IsRounded y w) (h0 : 0 ≤ y) (h1 : y ≤ 1) :
    isFinite w = true ∧ 0 ≤ toRat w ∧ toRat w ≤ 1 := by
  obtain ⟨hw, hnear⟩ := isRounded_nearest h (abs_le.mpr ⟨by linarith, h1⟩)
  obtain ⟨hzero, -⟩ := hnear 0 (by decide)
  obtain ⟨hone, -⟩ := hnear one (by decide)
  rw [toRat_zero, zero_sub, abs_neg, abs_of_nonneg h0] at hzero
  rw [toRat_one, abs_of_nonneg (show 0 ≤ 1 - y by linarith)] at hone
  exact ⟨hw, by linarith [neg_abs_le (toRat w - y)], by linarith [le_abs_self (toRat w - y)]⟩

/-- The pattern below 1.0, whose fraction is odd. -/
theorem toRat_pred_one : toRat 0x3FEFFFFFFFFFFFFF = 1 - 1 / 2 ^ 53 := by decide +kernel

/-- A value from 0 to below 1.0 is at most the one of the pattern below 1.0. -/
theorem toRat_le_pred_one (h0 : 0 ≤ toRat w) (h1 : toRat w < 1) : toRat w ≤ 1 - 1 / 2 ^ 53 := by
  have hmag : ¬ mag one ≤ mag w := by
    rw [← abs_toRat_le, toRat_one, abs_one, abs_of_nonneg h0]
    exact h1.not_ge
  have hle : mag w ≤ mag 0x3FEFFFFFFFFFFFFF := by
    rw [show mag one = mag 0x3FEFFFFFFFFFFFFF + 1 by decide] at hmag
    omega
  rw [← abs_toRat_le, abs_of_nonneg h0, toRat_pred_one] at hle
  exact hle.trans_eq (abs_of_nonneg (by norm_num))

/-- Below 1.0 a value rounds to 1.0 within half of the last place there; the tie goes up, to the even one. -/
theorem isRounded_eq_one_iff (h : IsRounded y w) (h0 : 0 ≤ y) (h1 : y ≤ 1) :
    toRat w = 1 ↔ 1 - y ≤ 1 / 2 ^ 54 := by
  obtain ⟨hw, hw0, hw1⟩ := isRounded_unit h h0 h1
  obtain ⟨-, hnear⟩ := isRounded_nearest h (abs_le.mpr ⟨by linarith, h1⟩)
  obtain ⟨hone, htie⟩ := hnear one (by decide)
  obtain ⟨hpred, -⟩ := hnear 0x3FEFFFFFFFFFFFFF (by decide)
  rw [toRat_one, abs_of_nonneg (show 0 ≤ 1 - y by linarith)] at hone htie
  rw [toRat_pred_one] at hpred
  constructor
  · intro hw
    rw [hw, abs_of_nonneg (show 0 ≤ 1 - y by linarith)] at hpred
    rcases abs_cases (1 - 1 / 2 ^ 53 - y) with ⟨habs, -⟩ | ⟨habs, -⟩ <;> linarith
  · intro hy
    by_contra hne
    have hle := toRat_le_pred_one hw0 (lt_of_le_of_ne hw1 hne)
    have habs : y - toRat w ≤ |toRat w - y| := by
      rw [abs_sub_comm]
      exact le_abs_self _
    have hval : toRat w = toRat 0x3FEFFFFFFFFFFFFF := by
      rw [toRat_pred_one]
      linarith
    have heven := htie (by linarith) (Ne.symm hne)
    rw [mag_eq_of_toRat_eq hval] at heven
    revert heven
    decide

end

end Sys2Proof.F64

namespace Sys2Proof.Machine

open F64

/-! ## The branches of wrap01, by value (R133) -/

section
variable (nan : Nat → Word) {x : Word}

theorem wrap01_unit (hx : isFinite x = true) (h : 0 ≤ toRat x ∧ toRat x < 1) : wrap01 nan x = x := by
  obtain ⟨hlt, -⟩ := comparisons_iff_toRat hx isFinite_one
  obtain ⟨-, -, -, hge, -⟩ := comparisons_iff_toRat hx isFinite_zero
  rw [toRat_one] at hlt
  rw [toRat_zero] at hge
  exact wrap01_of_inside nan ⟨hge.mpr h.1, hlt.mpr h.2⟩

theorem wrap01_not_unit (hx : isFinite x = true) (h : ¬(0 ≤ toRat x ∧ toRat x < 1)) : wrap01 nan x =
    if toRat (fmod (nan 0) x one) < 0 then addFinite (fmod (nan 0) x one) one else fmod (nan 0) x one := by
  have hr := isFinite_fmod_one (nan 0) hx
  obtain ⟨hlt, -⟩ := comparisons_iff_toRat hx isFinite_one
  obtain ⟨-, -, -, hge, -⟩ := comparisons_iff_toRat hx isFinite_zero
  obtain ⟨hneg, -⟩ := comparisons_iff_toRat hr isFinite_zero
  rw [toRat_one] at hlt
  rw [toRat_zero] at hge hneg
  rw [← hge, ← hlt] at h
  simp only [wrap01_of_outside nan h, hneg, add_finite _ hr isFinite_one]

/-- What `wrap01` answers for a finite operand: the fraction exactly, with the sign of the operand, or for a negative
operand between two integers the fraction rounded. -/
theorem wrap01_cases (hx : isFinite x = true) :
    ((0 ≤ toRat x ∨ Int.fract (toRat x) = 0) ∧ isFinite (wrap01 nan x) = true ∧
      toRat (wrap01 nan x) = Int.fract (toRat x) ∧ sign (wrap01 nan x) = sign x) ∨
    (toRat x < 0 ∧ Int.fract (toRat x) = 1 - Int.fract |toRat x| ∧ Int.fract |toRat x| ≠ 0 ∧
      IsRounded (Int.fract (toRat x)) (wrap01 nan x)) := by
  by_cases hin : 0 ≤ toRat x ∧ toRat x < 1
  · rw [wrap01_unit nan hx hin]
    exact .inl ⟨.inl hin.1, hx, (Int.fract_eq_self.mpr hin).symm, rfl⟩
  rw [wrap01_not_unit nan hx hin]
  have hr := isFinite_fmod_one (nan 0) hx
  have hsign := sign_fmod_one (nan 0) hx
  rcases toRat_fmod_one_cases (nan 0) hx with ⟨h0, hval⟩ | ⟨hzero, hval⟩ | ⟨hneg, hpos, hval, hfract⟩
  · rw [if_neg (by rw [hval]; exact (Int.fract_nonneg _).not_gt)]
    exact .inl ⟨.inl h0, hr, hval, hsign⟩
  · rw [if_neg hval.not_lt]
    exact .inl ⟨.inr hzero, hr, hval.trans hzero.symm, hsign⟩
  · rw [if_pos (by rw [hval]; linarith)]
    have hround := isRounded_addFinite (fmod (nan 0) x one) one
    rw [hval, toRat_one, neg_add_eq_sub, ← hfract] at hround
    exact .inr ⟨hneg, hfract, hpos.ne', hround⟩

end

/-- An integer is a value whose fraction is 0. -/
theorem eq_floor_iff (q : ℚ) : q = ⌊q⌋ ↔ Int.fract q = 0 := by
  rw [← Int.self_sub_floor, sub_eq_zero]

/-- Settles O41. -/
theorem wrap01IsTheRoundedFraction : Obligations.Wrap01IsTheRoundedFraction := by
  intro nan x hx
  rw [ne_eq, eq_floor_iff, Int.self_sub_floor]
  rcases wrap01_cases nan hx with ⟨-, hw, hval, hsign⟩ | ⟨-, hfract, h0, hround⟩
  · refine ⟨fun _ => hval ▸ isRounded_self hw, fun hint => ⟨?_, hsign⟩⟩
    rw [isZero_iff, ← toRat_eq_zero, hval, hint]
  · refine ⟨fun _ => hround, fun hint => ?_⟩
    have := Int.fract_lt_one |toRat x|
    linarith

/-- The fraction of the magnitude is at most 2^-54 for a magnitude of at most 2^-54 alone. -/
theorem fract_abs_le_iff {x : Word} (h0 : Int.fract |toRat x| ≠ 0) :
    Int.fract |toRat x| ≤ 1 / 2 ^ 54 ↔ |toRat x| ≤ 1 / 2 ^ 54 := by
  rcases lt_or_ge |toRat x| 1 with h1 | h1
  · rw [Int.fract_eq_self.mpr ⟨abs_nonneg _, h1⟩]
  · have := fract_abs_ge h1 h0
    constructor <;> intro h <;> norm_num at * <;> linarith

/-- Settles O42. -/
theorem wrap01LiesInTheUnitInterval : Obligations.Wrap01LiesInTheUnitInterval := by
  intro nan x hx
  have hcompare {w : Word} (hw : isFinite w = true) (h0 : 0 ≤ toRat w) (h1 : toRat w ≤ 1) :
      ge w 0 = true ∧ le w one = true := by
    obtain ⟨-, hle, -⟩ := comparisons_iff_toRat hw isFinite_one
    obtain ⟨-, -, -, hge, -⟩ := comparisons_iff_toRat hw isFinite_zero
    rw [hge, hle, toRat_zero, toRat_one]
    exact ⟨h0, h1⟩
  have hfract0 := Int.fract_nonneg (toRat x)
  have hfract1 := Int.fract_lt_one (toRat x)
  rcases wrap01_cases nan hx with ⟨hint, hw, hval, -⟩ | ⟨hneg, hfract, h0, hround⟩
  · obtain ⟨hge, hle⟩ := hcompare hw (by linarith) (by linarith)
    refine ⟨hge, hle, iff_of_false (by linarith) fun ⟨hlo, hhi⟩ => ?_⟩
    have hx' := (eq_floor_iff _).mpr (hint.resolve_left hhi.not_ge)
    have hfloor : ⌊toRat x⌋ < 0 := Int.floor_lt.mpr (by rwa [Int.cast_zero])
    have : (⌊toRat x⌋ : ℚ) ≤ -1 := by exact_mod_cast Int.le_sub_one_iff.mpr hfloor
    norm_num at hlo
    linarith
  · obtain ⟨hw, hw0, hw1⟩ := isRounded_unit hround hfract0 hfract1.le
    obtain ⟨hge, hle⟩ := hcompare hw hw0 hw1
    refine ⟨hge, hle, ?_⟩
    rw [isRounded_eq_one_iff hround hfract0 hfract1.le, hfract, sub_sub_cancel, fract_abs_le_iff h0, abs_of_neg hneg,
      neg_le]
    exact (and_iff_left hneg).symm

end Sys2Proof.Machine
end

section
/-! SUPPORT. The accuracy of `parabolic_sine` (40_fastmath.md R124): the real formula of R122 against the sine, and the
rounding errors of its eight operations. -/

namespace Sys2Proof.Machine

/-! ## The sine near its maximum -/

/-- The cosine between its Taylor polynomials, on the quarter period. -/
theorem cos_taylor {u : ℝ} (hu : |u| ≤ 8 / 5) :
    |Real.cos u - (1 - u ^ 2 / 2 + u ^ 4 / 24 - u ^ 6 / 720 + u ^ 8 / 40320)| ≤ 1 / 10000 := by
  have hnorm : ‖(u : ℂ) * Complex.I‖ = |u| := by
    rw [norm_mul, Complex.norm_I, mul_one, Complex.norm_real, Real.norm_eq_abs]
  have htaylor := Complex.exp_bound' (x := u * Complex.I) (n := 10) (by
    rw [hnorm]
    norm_num
    linarith)
  have hre := (Complex.abs_re_le_norm _).trans htaylor
  rw [Complex.sub_re, Complex.exp_ofReal_mul_I_re, hnorm] at hre
  have hsum : (∑ m ∈ Finset.range 10, ((u : ℂ) * Complex.I) ^ m / (m.factorial : ℂ)).re =
      1 - u ^ 2 / 2 + u ^ 4 / 24 - u ^ 6 / 720 + u ^ 8 / 40320 := by
    have hI2 : (Complex.I ^ 2).re = -1 := by rw [Complex.I_sq]; rfl
    have hI3 : (Complex.I ^ 3).re = 0 := by rw [Complex.I_pow_three]; simp
    simp [Finset.sum_range_succ, Nat.factorial, mul_pow, Complex.I_pow_eq_pow_mod, ← Complex.ofReal_pow, hI2, hI3]
    ring
  rw [hsum] at hre
  refine hre.trans ?_
  have hpow : |u| ^ 10 ≤ (8 / 5) ^ 10 := pow_le_pow_left₀ (abs_nonneg u) hu 10
  norm_num [Nat.factorial] at hpow ⊢
  linarith

/-! ## The formula of R122 over the reals -/

/-- The first stage of R122 with its ideal constants. -/
noncomputable def parabola (x : ℝ) : ℝ := 4 / Real.pi * x + -(4 / Real.pi ^ 2) * x * |x|

/-- The second stage of R122 with its ideal constant. -/
noncomputable def correctedParabola (y : ℝ) : ℝ := 9 / 40 * (y * |y| - y) + y

theorem parabola_neg (x : ℝ) : parabola (-x) = -parabola x := by
  rw [parabola, parabola, abs_neg]
  ring

theorem correctedParabola_neg (y : ℝ) : correctedParabola (-y) = -correctedParabola y := by
  rw [correctedParabola, correctedParabola, abs_neg]
  ring

/-- The parabola has its top 1 at π/2 and its zeros at 0 and π. -/
theorem parabola_eq {x : ℝ} (h : 0 ≤ x) : parabola x = 1 - 4 / Real.pi ^ 2 * (x - Real.pi / 2) ^ 2 := by
  have := Real.pi_ne_zero
  rw [parabola, abs_of_nonneg h]
  field_simp
  ring

/-- The curvature of the parabola. -/
theorem curvature_bounds : 405284 / 1000000 ≤ 4 / Real.pi ^ 2 ∧ 4 / Real.pi ^ 2 ≤ 405285 / 1000000 := by
  have hlo := Real.pi_gt_d20
  have hhi := Real.pi_lt_d20
  have hpos : 0 < Real.pi ^ 2 := by positivity
  rw [div_le_div_iff₀ (by norm_num) hpos, div_le_div_iff₀ hpos (by norm_num)]
  constructor <;> nlinarith

/-- The corrected parabola as a polynomial in the square of the distance from its top, against the Taylor polynomial
of the cosine. -/
theorem polynomial_close {a z : ℝ} (ha : 405284 / 1000000 ≤ a) (ha' : a ≤ 405285 / 1000000) (hz : 0 ≤ z)
    (hz' : z ≤ 2468 / 1000) :
    |9 / 40 * ((1 - a * z) * (1 - a * z) - (1 - a * z)) + (1 - a * z) -
      (1 - z / 2 + z ^ 2 / 24 - z ^ 3 / 720 + z ^ 4 / 40320)| ≤ 3 / 1000 := by
  have h1 : 3525 / 1000000 ≤ 1 / 2 - 49 / 40 * a ∧ 1 / 2 - 49 / 40 * a ≤ 3528 / 1000000 :=
    ⟨by linarith, by linarith⟩
  have h2 : -4710 / 1000000 ≤ 9 / 40 * a ^ 2 - 1 / 24 ∧ 9 / 40 * a ^ 2 - 1 / 24 ≤ -4709 / 1000000 :=
    ⟨by nlinarith, by nlinarith⟩
  have hexpand : 9 / 40 * ((1 - a * z) * (1 - a * z) - (1 - a * z)) + (1 - a * z) -
      (1 - z / 2 + z ^ 2 / 24 - z ^ 3 / 720 + z ^ 4 / 40320) =
      (1 / 2 - 49 / 40 * a) * z + (9 / 40 * a ^ 2 - 1 / 24) * z ^ 2 + z ^ 3 / 720 - z ^ 4 / 40320 := by
    ring
  rw [hexpand]
  generalize 1 / 2 - 49 / 40 * a = c at *
  generalize 9 / 40 * a ^ 2 - 1 / 24 = d at *
  have hc : 3525 / 1000000 * z ≤ c * z ∧ c * z ≤ 3528 / 1000000 * z :=
    ⟨mul_le_mul_of_nonneg_right h1.1 hz, mul_le_mul_of_nonneg_right h1.2 hz⟩
  have hd : -4710 / 1000000 * z ^ 2 ≤ d * z ^ 2 ∧ d * z ^ 2 ≤ -4709 / 1000000 * z ^ 2 :=
    ⟨mul_le_mul_of_nonneg_right h2.1 (sq_nonneg z), mul_le_mul_of_nonneg_right h2.2 (sq_nonneg z)⟩
  have hz3 : 0 ≤ z ^ 3 := by positivity
  have hz4 : 0 ≤ z ^ 4 := by positivity
  have hz4' : z ^ 4 ≤ 2468 / 1000 * z ^ 3 := by nlinarith
  rw [abs_le]
  constructor
  · nlinarith [mul_nonneg hz (sq_nonneg (z - 1774 / 1000))]
  · nlinarith [mul_nonneg hz (sq_nonneg (z - 17 / 10)), mul_nonneg hz (mul_nonneg hz (sub_nonneg.mpr hz'))]

theorem parabola_nonneg {x : ℝ} (h0 : 0 ≤ x) (hpi : x ≤ Real.pi) : 0 ≤ parabola x ∧ parabola x ≤ 1 := by
  have hpos := Real.pi_pos
  have hsq : (x - Real.pi / 2) ^ 2 ≤ (Real.pi / 2) ^ 2 := sq_le_sq' (by linarith) (by linarith)
  have hle := mul_le_mul_of_nonneg_left hsq (show 0 ≤ 4 / Real.pi ^ 2 by positivity)
  have htop : 4 / Real.pi ^ 2 * (Real.pi / 2) ^ 2 = 1 := by
    field_simp
    norm_num
  have : 0 ≤ 4 / Real.pi ^ 2 * (x - Real.pi / 2) ^ 2 := by positivity
  rw [parabola_eq h0]
  constructor <;> linarith

theorem abs_parabola_le_one {x : ℝ} (hx : |x| ≤ Real.pi) : |parabola x| ≤ 1 := by
  obtain ⟨hlo, hhi⟩ := abs_le.mp hx
  rcases le_total 0 x with h | h
  · obtain ⟨h0, h1⟩ := parabola_nonneg h hhi
    rwa [abs_of_nonneg h0]
  · obtain ⟨h0, h1⟩ := parabola_nonneg (neg_nonneg.mpr h) (by linarith)
    rw [parabola_neg] at h0 h1
    rwa [← abs_neg, abs_of_nonneg h0]

/-- The products of the first stage stay small. -/
theorem parabola_terms_le {x : ℝ} (hx : |x| ≤ Real.pi) : |4 / Real.pi * x| ≤ 4 ∧
    |-(4 / Real.pi ^ 2) * x| ≤ 4 ∧ |(-(4 / Real.pi ^ 2) * x * |x|)| ≤ 4 := by
  have hpos := Real.pi_pos
  have hxx : |x| * |x| ≤ Real.pi * Real.pi := mul_self_le_mul_self (abs_nonneg x) hx
  simp only [abs_mul, abs_neg, abs_abs, abs_div, abs_pow, abs_of_pos hpos, Nat.abs_ofNat]
  refine ⟨?_, ?_, ?_⟩
  · rw [div_mul_eq_mul_div, div_le_iff₀ hpos]
    linarith
  · have hle : 4 / Real.pi ^ 2 * |x| ≤ 1 * 4 :=
      mul_le_mul (by linarith [curvature_bounds.2]) (hx.trans Real.pi_le_four) (abs_nonneg x) zero_le_one
    linarith
  · rw [mul_assoc, div_mul_eq_mul_div, div_le_iff₀ (by positivity), sq]
    linarith

theorem correctedParabola_close_of_nonneg {x : ℝ} (h0 : 0 ≤ x) (hpi : x ≤ Real.pi) :
    |correctedParabola (parabola x) - Real.sin x| ≤ 4 / 1000 := by
  obtain ⟨hy, -⟩ := parabola_nonneg h0 hpi
  have hbound := Real.pi_lt_d20
  have hu : |x - Real.pi / 2| ≤ 15708 / 10000 := abs_le.mpr ⟨by linarith, by linarith⟩
  have hz : (x - Real.pi / 2) ^ 2 ≤ 2468 / 1000 := by
    have := pow_le_pow_left₀ (abs_nonneg _) hu 2
    rw [sq_abs] at this
    linarith
  have hpoly := polynomial_close curvature_bounds.1 curvature_bounds.2 (sq_nonneg (x - Real.pi / 2)) hz
  have hcos := cos_taylor (hu.trans (by norm_num))
  rw [Real.cos_sub_pi_div_two] at hcos
  rw [correctedParabola, abs_of_nonneg hy, parabola_eq h0]
  simp only [← pow_mul, Nat.reduceMul] at hpoly
  rw [abs_le] at *
  constructor <;> linarith

/-- The bound of R124 for the formula over the reals. -/
theorem correctedParabola_close {x : ℝ} (hx : |x| ≤ Real.pi) :
    |correctedParabola (parabola x) - Real.sin x| ≤ 4 / 1000 := by
  obtain ⟨hlo, hhi⟩ := abs_le.mp hx
  rcases le_total 0 x with h | h
  · exact correctedParabola_close_of_nonneg h hhi
  · have hclose := correctedParabola_close_of_nonneg (neg_nonneg.mpr h) (by linarith)
    rwa [parabola_neg, correctedParabola_neg, Real.sin_neg, neg_sub_neg, abs_sub_comm] at hclose

/-! ## Binary64 values near a real number -/

end Sys2Proof.Machine

namespace Sys2Proof.F64

open Sys2Proof.Machine

/-- A finite value within `e` of the real number `v`. -/
def Near (e : ℝ) (w : Word) (v : ℝ) : Prop := isFinite w = true ∧ |(toRat w : ℝ) - v| ≤ e

section
variable {e d : ℝ} {a b : Word} {u v : ℝ}

theorem near_self (h : isFinite a = true) : Near 0 a (toRat a : ℝ) := ⟨h, by simp⟩

theorem Near.mono (h : Near e a u) (hle : e ≤ d) : Near d a u := ⟨h.1, h.2.trans hle⟩

theorem Near.abs_toRat_le (h : Near e a u) (hu : |u| ≤ 4) : |(toRat a : ℝ)| ≤ 4 + e := by
  obtain ⟨-, h⟩ := h
  have := abs_sub_abs_le_abs_sub (toRat a : ℝ) u
  linarith

theorem Near.neg (h : Near e a u) : Near e (neg a) (-u) := by
  obtain ⟨hfin, hval⟩ := h
  refine ⟨by rwa [isFinite_neg], ?_⟩
  rwa [toRat_neg, Rat.cast_neg, neg_sub_neg, abs_sub_comm]

theorem Near.abs (h : Near e a u) : Near e (F64.abs a) |u| := by
  obtain ⟨hfin, hval⟩ := h
  refine ⟨by rwa [isFinite_abs], ?_⟩
  have : toRat (F64.abs a) = |toRat a| := by
    rw [abs_toRat, toRat_eq, sign_abs, mag_abs, if_neg Bool.false_ne_true, one_mul]
  rw [this, Rat.cast_abs]
  exact (abs_abs_sub_abs_le _ _).trans hval

/-- One rounding of a value up to 32. -/
theorem near_of_isRounded {x : ℚ} (h : IsRounded x a) (hx : |(x : ℝ)| ≤ 32) : Near (1 / 10 ^ 14) a (x : ℝ) := by
  have hx' : |x| ≤ 32 := by exact_mod_cast hx
  have hbound : |toRat 0x4040000000000000| < overflowBound := abs_toRat_lt_overflowBound (by decide)
  rw [show toRat 0x4040000000000000 = 32 by decide +kernel] at hbound
  norm_num at hbound
  obtain ⟨hfin, herr⟩ := isRounded_error h (by linarith)
  refine ⟨hfin, ?_⟩
  have hsmall : (1 : ℚ) / 2 ^ 1075 ≤ 1 / 2 ^ 53 :=
    one_div_le_one_div_of_le (by norm_num) (pow_le_pow_right₀ (by norm_num) (by norm_num))
  have hle : |toRat a - x| ≤ 1 / 10 ^ 14 := by
    refine herr.trans ((add_le_add_right hsmall _).trans ?_)
    norm_num
    linarith
  have hcast : ((|toRat a - x| : ℚ) : ℝ) ≤ ((1 / 10 ^ 14 : ℚ) : ℝ) := Rat.cast_le.mpr hle
  push_cast at hcast
  exact hcast

theorem Near.add (nan : Word) (ha : Near e a u) (hb : Near d b v) (hu : |u| ≤ 4) (hv : |v| ≤ 4) (he : e ≤ 1)
    (hd : d ≤ 1) : Near (e + d + 1 / 10 ^ 14) (add nan a b) (u + v) := by
  have hua := ha.abs_toRat_le hu
  have hvb := hb.abs_toRat_le hv
  obtain ⟨hfa, hea⟩ := ha
  obtain ⟨hfb, heb⟩ := hb
  obtain ⟨hsum, -⟩ := sumsAreCorrectlyRounded nan a b hfa hfb
  obtain ⟨hfin, herr⟩ := near_of_isRounded hsum (by
    push_cast
    exact (abs_add_le _ _).trans (by linarith))
  refine ⟨hfin, ?_⟩
  push_cast at herr
  rw [abs_le] at *
  constructor <;> linarith

theorem Near.sub (nan : Word) (ha : Near e a u) (hb : Near d b v) (hu : |u| ≤ 4) (hv : |v| ≤ 4) (he : e ≤ 1)
    (hd : d ≤ 1) : Near (e + d + 1 / 10 ^ 14) (sub nan a b) (u - v) := by
  rw [sub_eq_add_neg]
  exact ha.add nan hb.neg hu (by rwa [abs_neg]) he hd

theorem Near.mul (nan : Word) (ha : Near e a u) (hb : Near d b v) (hu : |u| ≤ 4) (hv : |v| ≤ 4) (he : e ≤ 1)
    (hd : d ≤ 1) : Near (5 * e + 5 * d + 1 / 10 ^ 14) (mul nan a b) (u * v) := by
  have hua := (ha.abs_toRat_le hu).trans (show 4 + e ≤ 5 by linarith)
  have hvb := (hb.abs_toRat_le hv).trans (show 4 + d ≤ 5 by linarith)
  obtain ⟨hfa, hea⟩ := ha
  obtain ⟨hfb, heb⟩ := hb
  obtain ⟨hfin, herr⟩ := near_of_isRounded (isRounded_mul nan hfa hfb) (by
    push_cast
    rw [abs_mul]
    exact (mul_le_mul hua hvb (abs_nonneg _) (by norm_num)).trans (by norm_num))
  refine ⟨hfin, ?_⟩
  push_cast at herr
  have hsplit : (toRat (F64.mul nan a b) : ℝ) - u * v = (toRat (F64.mul nan a b) - toRat a * toRat b) +
      ((toRat a - u) * toRat b + u * (toRat b - v)) := by ring
  have hleft : |((toRat a : ℝ) - u) * toRat b| ≤ e * 5 := by
    rw [abs_mul]
    exact mul_le_mul hea hvb (abs_nonneg _) ((abs_nonneg _).trans hea)
  have hright : |u * ((toRat b : ℝ) - v)| ≤ 4 * d := by
    rw [abs_mul]
    exact mul_le_mul hu heb (abs_nonneg _) (by norm_num)
  have hd0 := (abs_nonneg _).trans heb
  rw [hsplit]
  refine (abs_add_le _ _).trans ?_
  have := abs_add_le (((toRat a : ℝ) - u) * toRat b) (u * ((toRat b : ℝ) - v))
  linarith

end

/-! ## The constants of R121 -/

theorem near_psinB : Near (1 / 10 ^ 14) Config.psinB (4 / Real.pi) := by
  have hlo := Real.pi_gt_d20
  have hhi := Real.pi_lt_d20
  have hpos := Real.pi_pos
  refine ⟨by decide, ?_⟩
  rw [show toRat Config.psinB = 5734161139222659 / 4503599627370496 by decide +kernel]
  push_cast
  have h1 : 4 / Real.pi ≤ 5734161139222659 / 4503599627370496 + 1 / 10 ^ 14 := by
    rw [div_le_iff₀ hpos]
    linarith
  have h2 : 5734161139222659 / 4503599627370496 - 1 / 10 ^ 14 ≤ 4 / Real.pi := by
    rw [le_div_iff₀ hpos]
    linarith
  rw [abs_le]
  constructor <;> linarith

theorem near_psinC : Near (1 / 10 ^ 14) Config.psinC (-(4 / Real.pi ^ 2)) := by
  have hlo := Real.pi_gt_d20
  have hhi := Real.pi_lt_d20
  have hpos : 0 < Real.pi ^ 2 := by positivity
  have hlo2 : 9.869604401089358 < Real.pi ^ 2 := by nlinarith
  have hhi2 : Real.pi ^ 2 < 9.869604401089359 := by nlinarith
  refine ⟨by decide, ?_⟩
  rw [show toRat Config.psinC = -228155022448185 / 562949953421312 by decide +kernel]
  push_cast
  have h1 : 4 / Real.pi ^ 2 ≤ 228155022448185 / 562949953421312 + 1 / 10 ^ 14 := by
    rw [div_le_iff₀ hpos]
    linarith
  have h2 : 228155022448185 / 562949953421312 - 1 / 10 ^ 14 ≤ 4 / Real.pi ^ 2 := by
    rw [le_div_iff₀ hpos]
    linarith
  rw [abs_le]
  constructor <;> linarith

theorem near_psinP : Near (1 / 10 ^ 14) Config.psinP (9 / 40) := by
  refine ⟨by decide, ?_⟩
  rw [show toRat Config.psinP = 8106479329266893 / 36028797018963968 by decide +kernel]
  norm_num [abs_le]

end Sys2Proof.F64

namespace Sys2Proof.Machine

open F64

/-! ## The two stages in binary64 -/

/-- The first stage is near the parabola. -/
theorem near_psinFirst (nan : Nat → Word) {x : Word} (hx : isFinite x = true) (hpi : |(toRat x : ℝ)| ≤ Real.pi) :
    Near (1 / 10 ^ 12) (psinFirst nan x) (parabola (toRat x)) := by
  have hpos := Real.pi_pos
  have hx4 : |(toRat x : ℝ)| ≤ 4 := hpi.trans Real.pi_le_four
  obtain ⟨hBx, hCx, hCxx⟩ := parabola_terms_le hpi
  have hB : |4 / Real.pi| ≤ 4 := by
    rw [abs_of_pos (by positivity), div_le_iff₀ hpos]
    linarith [Real.pi_gt_three]
  have hC : |(-(4 / Real.pi ^ 2))| ≤ 4 := by
    rw [abs_neg, abs_of_pos (by positivity)]
    linarith [curvature_bounds.2]
  have ht1 := near_psinB.mul (nan 0) (near_self hx) hB hx4 (by norm_num) (by norm_num)
  have hcx := near_psinC.mul (nan 1) (near_self hx) hC hx4 (by norm_num) (by norm_num)
  have ht2 := hcx.mul (nan 2) (near_self hx).abs hCx (by rwa [abs_abs]) (by norm_num) (by norm_num)
  exact (ht1.add (nan 3) ht2 hBx hCxx (by norm_num) (by norm_num)).mono (by norm_num)

/-- The second stage keeps near the corrected parabola. -/
theorem near_psinSecond (nan : Nat → Word) {y : Word} {v : ℝ} (hy : Near (1 / 10 ^ 12) y v) (hv : |v| ≤ 1) :
    Near (1 / 10 ^ 10) (psinSecond nan y) (correctedParabola v) := by
  have hv4 : |v| ≤ 4 := by linarith
  have hsq : |(v * |v|)| ≤ 1 := by
    rw [abs_mul, abs_abs]
    exact mul_le_one₀ hv (abs_nonneg v) hv
  have hdiff : |v * |v| - v| ≤ 2 := (abs_sub _ _).trans (by linarith)
  have hP : |9 / 40 * (v * |v| - v)| ≤ 4 := by
    rw [abs_mul, abs_of_pos (by norm_num)]
    linarith
  have hu := hy.mul (nan 4) hy.abs hv4 (by rwa [abs_abs]) (by norm_num) (by norm_num)
  have hsub := hu.sub (nan 5) hy (by linarith) hv4 (by norm_num) (by norm_num)
  have hw := near_psinP.mul (nan 6) hsub (by norm_num [abs_of_pos]) (by linarith) (by norm_num) (by norm_num)
  exact (hw.add (nan 7) hy hP hv4 (by norm_num) (by norm_num)).mono (by norm_num)

/-- Settles O33: the rounding errors are far below what the bound leaves beside the error of the formula. -/
theorem parabolicSineIsAccurate : Obligations.ParabolicSineIsAccurate := by
  intro s hx hpi
  obtain ⟨hfin, herr⟩ := near_psinSecond (Config.openValues.nan s.draws)
    (near_psinFirst (Config.openValues.nan s.draws) hx hpi) (abs_parabola_le_one hpi)
  have hclose := correctedParabola_close hpi
  refine ⟨_, exec_psin s, hfin, ?_⟩
  refine (abs_sub_le _ (correctedParabola (parabola (toRat s.arg0))) _).trans ?_
  exact (add_le_add herr hclose).trans (by norm_num)

end Sys2Proof.Machine
end

section
/-! SUPPORT. The proofs of the obligations of 41_phase_accumulator.md: the step commands run the listing of R168, and
the clamp, the NaN phase and the range of the phase are read off the listing. -/

namespace Sys2Proof.F64

open Sys2Proof.Machine

/-! ## Comparisons and one rounding -/

/-- A value rounded between two finite values stays between them. -/
theorem isRounded_between {x : ℚ} {w lo hi : Word} (h : IsRounded x w) (hlo : isFinite lo = true)
    (hhi : isFinite hi = true) (hlox : toRat lo ≤ x) (hxhi : x ≤ toRat hi) :
    isFinite w = true ∧ toRat lo ≤ toRat w ∧ toRat w ≤ toRat hi := by
  have hx : |x| < overflowBound :=
    (abs_le_max_abs_abs hlox hxhi).trans_lt
      (max_lt (abs_toRat_lt_overflowBound hlo) (abs_toRat_lt_overflowBound hhi))
  obtain ⟨-, h⟩ := h
  rw [if_neg hx.not_ge] at h
  obtain ⟨hw, hnear⟩ := h
  obtain ⟨hnearLo, -⟩ := hnear lo hlo
  obtain ⟨hnearHi, -⟩ := hnear hi hhi
  rw [abs_of_nonpos (sub_nonpos.mpr hlox)] at hnearLo
  rw [abs_of_nonneg (sub_nonneg.mpr hxhi)] at hnearHi
  exact ⟨hw, by linarith [neg_abs_le (toRat w - x)], by linarith [le_abs_self (toRat w - x)]⟩

theorem not_nan_of_lt {a b : Word} (h : lt a b = true) : isNaN a = false ∧ isNaN b = false := by
  simp only [lt, Bool.and_eq_true, Bool.not_eq_true'] at h
  exact h.1

theorem not_nan_of_le {a b : Word} (h : le a b = true) : isNaN a = false ∧ isNaN b = false := by
  simp only [le, Bool.and_eq_true, Bool.not_eq_true'] at h
  exact h.1

theorem toRat_lt_of_lt {a b : Word} (h : lt a b = true) : toRat a < toRat b :=
  (lt_iff (not_nan_of_lt h).1 (not_nan_of_lt h).2).mp h

theorem toRat_le_of_le {a b : Word} (h : le a b = true) : toRat a ≤ toRat b :=
  (le_iff (not_nan_of_le h).1 (not_nan_of_le h).2).mp h

theorem lt_asymm_word {a b : Word} (h : lt a b = true) : lt b a = false := by
  obtain ⟨ha, hb⟩ := not_nan_of_lt h
  rw [Bool.eq_false_iff, ne_eq, lt_iff hb ha]
  exact (toRat_lt_of_lt h).not_gt

theorem positive_of_gt_zero {w : Word} (h : gt w 0 = true) :
    isNaN w = false ∧ isZero w = false ∧ sign w = false := by
  have hpos := toRat_lt_of_lt h
  rw [toRat_zero] at hpos
  refine ⟨(not_nan_of_lt h).2, ?_, ?_⟩
  · rw [Bool.eq_false_iff, ne_eq, isZero_iff, ← toRat_eq_zero]
    exact hpos.ne'
  · rw [sign_of_toRat hpos.ne', decide_eq_false hpos.not_gt]

/-- A value from 0 up to a finite one is finite. -/
theorem isFinite_of_toRat_le {w u : Word} (hu : isFinite u = true) (h0 : 0 ≤ toRat w) (h : toRat w ≤ toRat u) :
    isFinite w = true := by
  rw [isFinite_iff] at hu ⊢
  refine lt_of_le_of_lt ((abs_toRat_le w u).mp ?_) hu
  rwa [abs_of_nonneg h0, abs_of_nonneg (h0.trans h)]

theorem toRat_two : toRat 0x4000000000000000 = 2 := by decide +kernel

theorem toRat_pred_two : toRat 0x3FFFFFFFFFFFFFFF = 2 - 1 / 2 ^ 52 := by decide +kernel

/-- A value from 0 to below 2.0 is at most the one of the pattern below 2.0. -/
theorem toRat_le_pred_two {w : Word} (h0 : 0 ≤ toRat w) (h2 : toRat w < 2) : toRat w ≤ 2 - 1 / 2 ^ 52 := by
  have hmag : ¬ mag 0x4000000000000000 ≤ mag w := by
    rw [← abs_toRat_le, toRat_two, abs_two, abs_of_nonneg h0]
    exact h2.not_ge
  have hle : mag w ≤ mag 0x3FFFFFFFFFFFFFFF := by
    rw [show mag 0x4000000000000000 = mag 0x3FFFFFFFFFFFFFFF + 1 by decide] at hmag
    omega
  rw [← abs_toRat_le, abs_of_nonneg h0, toRat_pred_two] at hle
  exact hle.trans_eq (abs_of_nonneg (by norm_num))

/-! ## Clamp and quotient (R163, R165) -/

/-- What lies within `±b` by the comparisons of the clamp lies within it by magnitude. -/
theorem mag_le_of_not_lt {x b : Word} (hx : isNaN x = false) (hb : isNaN b = false)
    (hlo : ¬ lt x (neg b) = true) (hhi : ¬ gt x b = true) : mag x ≤ mag b := by
  rw [lt_iff hx (by rwa [isNaN_neg]), toRat_neg, not_lt] at hlo
  rw [gt, lt_iff hb hx, not_lt] at hhi
  rw [← abs_toRat_le]
  exact (abs_le.mpr ⟨hlo, hhi⟩).trans (le_abs_self _)

/-- The clamp to `±b` gives a NaN or a magnitude of at most `b`. -/
theorem clamp_isNaN_or_mag_le {x b : Word} (hb : isNaN b = false) :
    isNaN (clamp x (neg b) b) = true ∨ mag (clamp x (neg b) b) ≤ mag b := by
  unfold clamp
  split
  next => exact .inr (mag_neg b).le
  next hlo =>
    split
    next => exact .inr le_rfl
    next hhi =>
      cases hx : isNaN x
      · exact .inr (mag_le_of_not_lt hx hb hlo hhi)
      · exact .inl rfl

theorem abs_le_of_mag_le {a b : Word} (ha : isNaN a = false) (hb : isNaN b = false) (hs : sign b = false)
    (h : mag a ≤ mag b) : le (F64.abs a) b = true := by
  simp [le, key, ha, hb, hs, h]

/-- The magnitude of a quotient of finite values by a value that is no zero rises with the dividend's. -/
theorem mag_div_le {a b c : Word} (n m : Word) (hb : isFinite b = true) (hab : mag a ≤ mag b)
    (hc : isNaN c = false) (h0 : isZero c = false) :
    isNaN (div n a c) = false ∧ isNaN (div m b c) = false ∧ mag (div n a c) ≤ mag (div m b c) := by
  have ha : isFinite a = true := by
    rw [isFinite_iff] at hb ⊢
    omega
  rcases isNaN_or_isInf_or_isFinite c with hnan | hinf | hfin
  · simp [hc] at hnan
  · have hdiv (k : Word) {d : Word} (hd : isFinite d = true) : div k d c = pack (sign d != sign c) 0 := by
      simp [div, isNaN_false_of_isFinite hd, isInf_false_of_isFinite hd, hc, hinf]
    rw [hdiv n ha, hdiv m hb]
    simp [isNaN_pack_of_le]
  · have hpos : 0 < quanta (mag c) := quanta_pos (Nat.pos_of_ne_zero (of_decide_eq_false h0))
    rw [div_finite n ha hfin h0, div_finite m hb hfin h0, mag_pack _ (roundMag_lt _ _), mag_pack _ (roundMag_lt _ _)]
    refine ⟨isNaN_pack_roundMag _ _ _, isNaN_pack_roundMag _ _ _, roundMag_mono hpos hpos ?_⟩
    exact Nat.mul_le_mul_right _ (Nat.mul_le_mul_right _ (quanta_le.mpr hab))

theorem sign_div {a b : Word} (n : Word) (ha : isFinite a = true) (hb : isNaN b = false) (h0 : isZero b = false) :
    sign (div n a b) = (sign a != sign b) := by
  rcases isNaN_or_isInf_or_isFinite b with hnan | hinf | hfin
  · simp [hb] at hnan
  · simp [div, isNaN_false_of_isFinite ha, isInf_false_of_isFinite ha, hb, hinf]
  · rw [div_finite n ha hfin h0, sign_pack _ (roundMag_lt _ _)]

end Sys2Proof.F64

namespace Sys2Proof.Machine

open F64

/-! ## The listing (R168) -/

theorem foldsDown_iff {inc p : Word} : foldsDown inc p = true ↔ gt inc 0 = true ∧ ge p one = true :=
  Bool.and_eq_true_iff

theorem foldsUp_iff {inc p : Word} : foldsUp inc p = true ↔ lt inc 0 = true ∧ le p 0 = true :=
  Bool.and_eq_true_iff

/-- Publish-and-advance folds as the listing does (R166, R167). -/
theorem publish_folds (nan : Nat → Word) (inc : Word) (o : OscRec) :
    if gt inc 0 = true ∧ ge o.phase one = true then
      (publish nan inc o).pubPhase = sub (nan 11) o.phase one ∧ (publish nan inc o).wrap = 1
    else if lt inc 0 = true ∧ le o.phase 0 = true then
      (publish nan inc o).pubPhase = add (nan 11) o.phase one ∧ (publish nan inc o).wrap = 1
    else (publish nan inc o).pubPhase = o.phase ∧ (publish nan inc o).wrap = 0 := by
  simp only [← foldsDown_iff, ← foldsUp_iff, publish_pubPhase, publish_wrap]
  rcases publishedPhase_cases nan inc o.phase with ⟨hdown, hp, hw⟩ | ⟨hdown, hup, hp, hw⟩ | ⟨hdown, hup, hp, hw⟩
  · simp [hdown, hp, hw, wrapWord]
  · simp [hdown, hup, hp, hw, wrapWord]
  · simp [hdown, hup, hp, hw, wrapWord]

/-- The record that publish-and-advance leaves at the increment of R165 is the listing's. -/
theorem isPhaseStep_publish (nan : Nat → Word) (sr m : Word) (o : OscRec) :
    IsPhaseStep (fun k => nan (8 + k)) sr m o (publish nan (stepIncrement nan sr o m) o) :=
  ⟨rfl, publish_folds nan (stepIncrement nan sr o m) o, rfl⟩

/-- The listing speaks of the four step fields alone. -/
theorem IsPhaseStep.congr {nan : Nat → Word} {sr m : Word} {o r r' : OscRec} (h : IsPhaseStep nan sr m o r)
    (hpub : r'.pubPhase = r.pubPhase) (hwrap : r'.wrap = r.wrap) (hinc : r'.inc = r.inc)
    (hphase : r'.phase = r.phase) : IsPhaseStep nan sr m o r' := by
  unfold IsPhaseStep at h ⊢
  rwa [hpub, hwrap, hinc, hphase]

/-- Where the listing's NaN patterns stand among the model's operations. -/
def listingSite : Nat → Nat
  | 0 => 3
  | 1 => 0
  | 2 => 1
  | 3 => 2
  | 4 => 4
  | 5 => 5
  | k + 6 => 8 + k

/-- The pitch multiplier is `exp2` of the listing's pitch exponent (R161, R162). -/
theorem isExp2_pitchMultiplier (t : Nat) (o : OscRec) (status : Word) :
    IsExp2 (pitchOctaves (fun k => Config.openValues.nan t (listingSite k)) o)
      (pitchMultiplier Config.openValues t o).value status
      (withBitIf (pitchMultiplier Config.openValues t o).outOfRange .exp2Oor status) :=
  isExp2_exp2 _ (fun k => isNaN_openValues_nan t (6 + k)) _ status

/-- Every step command runs the listing. -/
theorem StepCommand.isPhaseStep {c : BitVec 4 → Instr} {f : OscStep} (hc : StepCommand c f) (v : OpenValues)
    (t : Nat) (sr : Word) (o : OscRec) :
    IsPhaseStep (fun k => v.nan t (8 + k)) sr (pitchMultiplier v t o).value o (f v t sr o).osc := by
  have h := isPhaseStep_publish (v.nan t) sr (pitchMultiplier v t o).value o
  cases hc with
  | pastep => exact h
  | tonestep => exact h.congr rfl rfl rfl rfl
  | quadstep => exact h.congr rfl rfl rfl rfl

theorem StepCommand.outOfRange_eq {c : BitVec 4 → Instr} {f : OscStep} (hc : StepCommand c f) (v : OpenValues)
    (t : Nat) (sr : Word) (o : OscRec) : (f v t sr o).outOfRange = (pitchMultiplier v t o).outOfRange := by
  cases hc <;> rfl

/-- A step by any of the three commands is `PAStep`, as far as its four fields and `STATUS` go. -/
theorem StepCommand.isPAStep {c : BitVec 4 → Instr} {f : OscStep} (hc : StepCommand c f) (i : Osc) (s : State) :
    IsPAStep i s (s.stepOsc Config.openValues i f) := by
  refine ⟨fun k => Config.openValues.nan s.draws (listingSite k),
    (pitchMultiplier Config.openValues s.draws (s.oscRec i)).value, fun k => isNaN_openValues_nan _ _, ?_, ?_⟩
  · rw [State.stepOsc_status, hc.outOfRange_eq]
    exact isExp2_pitchMultiplier _ _ _
  · rw [State.stepOsc_oscRec_same]
    have h := hc.isPhaseStep Config.openValues s.draws s.sampleRate (s.oscRec i)
    simpa only [Nat.add_comm 6, listingSite] using h

/-- Settles O43: the listing by the common step lemma, and the frame of a step of one record. -/
theorem pastepRunsOnePhaseStep : Obligations.PastepRunsOnePhaseStep := fun s _ i hconf hsel =>
  ⟨_, onOscillator_steps paStep hsel hconf, StepCommand.pastep.isPAStep i s,
    State.stepOsc_unchangedBut _ i _ s paFields fun _ hg _ _ _ => paStep_get _ _ _ _ hg⟩

/-- What the three commands do on a constructed graph: each completes, with the listing on its oscillator. -/
theorem exec_isPAStep {c : BitVec 4 → Instr} (hc : c = Instr.pastep ∨ c = Instr.tonestep ∨ c = Instr.quadstep)
    {s : State} {sel : BitVec 4} {i : Osc} (hconf : s.flag .configured = true) (hsel : oscOfSel sel = some i) :
    ∃ t, exec (c sel) s = .next t ∧ IsPAStep i s t := by
  obtain ⟨f, hf⟩ := exists_stepCommand hc
  exact ⟨_, (exec_stepCommand hf sel s).trans (onOscillator_steps f hsel hconf), hf.isPAStep i s⟩

theorem isPAStep_of_exec {c : BitVec 4 → Instr} (hc : c = Instr.pastep ∨ c = Instr.tonestep ∨ c = Instr.quadstep)
    {s t : State} {sel : BitVec 4} {i : Osc} (hconf : s.flag .configured = true) (hsel : oscOfSel sel = some i)
    (ht : exec (c sel) s = .next t) : IsPAStep i s t := by
  obtain ⟨t', ht', hstep⟩ := exec_isPAStep hc hconf hsel
  obtain rfl : t' = t := Host.Outcome.next.inj (ht'.symm.trans ht)
  exact hstep

/-! ## What follows from the listing -/

section
variable {nan : Nat → Word} {sr m : Word} {o o' : OscRec}

/-- The increment is a clamped frequency over the rate (R163 to R165). -/
theorem IsPhaseStep.exists_inc_eq (h : IsPhaseStep nan sr m o o') :
    ∃ x, o'.inc = div (nan 2) (clamp x (neg Config.fClamp) Config.fClamp) sr := by
  obtain ⟨hinc, -, -⟩ := h
  exact ⟨_, hinc⟩

theorem IsPhaseStep.phase_eq (h : IsPhaseStep nan sr m o o') : o'.phase = add (nan 4) o'.pubPhase o'.inc := by
  obtain ⟨hinc, -, hphase⟩ := h
  rw [hphase, hinc]

/-- No fold applies to a NaN (R166). -/
theorem IsPhaseStep.publishes_nan (h : IsPhaseStep nan sr m o o') (hp : isNaN o.phase = true) :
    o'.pubPhase = o.phase ∧ o'.wrap = 0 := by
  obtain ⟨-, hfold, -⟩ := h
  rwa [ge, le_nan_right one hp, le_nan_left 0 hp, if_neg (by simp), if_neg (by simp)] at hfold

/-- A positive increment folds down at 1.0 and never up (R166). -/
theorem IsPhaseStep.publishes_of_pos (h : IsPhaseStep nan sr m o o') (hpos : gt o'.inc 0 = true) :
    o'.pubPhase = if ge o.phase one = true then sub (nan 3) o.phase one else o.phase := by
  obtain ⟨hinc, hfold, -⟩ := h
  rw [← hinc, hpos, show lt o'.inc 0 = false from lt_asymm_word hpos] at hfold
  split at hfold
  next hdown => rw [hfold.1, if_pos hdown.2]
  next hdown =>
    rw [if_neg (by simp)] at hfold
    rw [hfold.1, if_neg fun hge => hdown ⟨rfl, hge⟩]

/-- The increment is a NaN or bounded by the clamp over the rate (R173). -/
theorem IsPhaseStep.inc_bounded (h : IsPhaseStep nan sr m o o') (hnan : ∀ k, isNaN (nan k) = true)
    (hsr : gt sr 0 = true) (n : Word) :
    isNaN o'.inc = true ∨ le (F64.abs o'.inc) (div n Config.fClamp sr) = true := by
  obtain ⟨x, hinc⟩ := h.exists_inc_eq
  obtain ⟨hsrNaN, hsrZero, hsrSign⟩ := positive_of_gt_zero hsr
  have hclamp : isFinite Config.fClamp = true := by decide
  rw [hinc]
  rcases clamp_isNaN_or_mag_le (x := x) (isNaN_false_of_isFinite hclamp) with hf | hf
  · exact .inl ((isNaN_div (hnan 2) _ _).mpr (.inl hf))
  · obtain ⟨hleft, hright, hmag⟩ := mag_div_le (nan 2) n hclamp hf hsrNaN hsrZero
    refine .inr (abs_le_of_mag_le hleft hright ?_ hmag)
    rw [sign_div n hclamp hsrNaN hsrZero, hsrSign]
    decide

/-- From a stored phase in [0, 2) a positive increment publishes one in [0, 1) (R170 item 3). -/
theorem IsPhaseStep.publishes_in_unit (h : IsPhaseStep nan sr m o o') (hpos : gt o'.inc 0 = true)
    (h0 : ge o.phase 0 = true) (h2 : lt o.phase 0x4000000000000000 = true) :
    isFinite o'.pubPhase = true ∧ 0 ≤ toRat o'.pubPhase ∧ toRat o'.pubPhase ≤ 1 - 1 / 2 ^ 53 := by
  have hp0 := toRat_le_of_le h0
  have hp2 := toRat_lt_of_lt h2
  rw [toRat_zero] at hp0
  have hfin := isFinite_of_toRat_le (by decide) hp0 hp2.le
  rw [toRat_two] at hp2
  have hpred := toRat_le_pred_two hp0 hp2
  have hge : ge o.phase one = true ↔ 1 ≤ toRat o.phase := by
    rw [ge, le_iff (isNaN_false_of_isFinite isFinite_one) (isNaN_false_of_isFinite hfin), toRat_one]
  rw [h.publishes_of_pos hpos]
  split
  next hfold =>
    obtain ⟨-, hround⟩ := sumsAreCorrectlyRounded (nan 3) o.phase one hfin isFinite_one
    rw [toRat_one] at hround
    have hbetween := isRounded_between hround isFinite_zero (hi := 0x3FEFFFFFFFFFFFFF) (by decide)
      (by rw [toRat_zero]; linarith [hge.mp hfold]) (by rw [toRat_pred_one]; norm_num at hpred ⊢; linarith)
    rwa [toRat_zero, toRat_pred_one] at hbetween
  next hfold => exact ⟨hfin, hp0, toRat_le_pred_one hp0 (lt_of_not_ge (mt hge.mpr hfold))⟩

/-- A published phase in [0, 1) and an increment in (0, 1 - 2^-53] store a phase in (0, 2) (R170 item 3). -/
theorem IsPhaseStep.stores_below_two (h : IsPhaseStep nan sr m o o') (hpos : gt o'.inc 0 = true)
    (hinc : le o'.inc 0x3FEFFFFFFFFFFFFF = true) (hpub : isFinite o'.pubPhase = true) (h0 : 0 ≤ toRat o'.pubPhase)
    (h1 : toRat o'.pubPhase ≤ 1 - 1 / 2 ^ 53) :
    isFinite o'.phase = true ∧ 0 < toRat o'.phase ∧ toRat o'.phase < 2 := by
  have hi0 := toRat_lt_of_lt hpos
  have hi1 := toRat_le_of_le hinc
  rw [toRat_zero] at hi0
  have hfin := isFinite_of_toRat_le (by decide) hi0.le hi1
  rw [toRat_pred_one] at hi1
  obtain ⟨hround, -⟩ := sumsAreCorrectlyRounded (nan 4) o'.pubPhase o'.inc hpub hfin
  rw [← h.phase_eq] at hround
  obtain ⟨hw, hlo, hhi⟩ := isRounded_between hround hfin (hi := 0x3FFFFFFFFFFFFFFF) (by decide) (by linarith)
    (by rw [toRat_pred_two]; norm_num at h1 hi1 ⊢; linarith)
  rw [toRat_pred_two] at hhi
  exact ⟨hw, by linarith, hhi.trans_lt (by norm_num)⟩

end

/-- Settles O44: whatever the multiplier, what the clamp lets through is a NaN or within it, and division by the rate
keeps the order of the magnitudes. -/
theorem incrementIsBoundedByTheClamp : Obligations.IncrementIsBoundedByTheClamp := by
  intro s t sel i n c hc hconf hsr hsel ht
  obtain ⟨nan, m, hnan, -, hstep⟩ := isPAStep_of_exec hc hconf hsel ht
  exact hstep.inc_bounded (fun k => hnan (6 + k)) hsr n

/-- Settles O45: a NaN fails both comparisons of the fold, and the sum with it is a NaN. -/
theorem naNPhaseStaysNaN : Obligations.NaNPhaseStaysNaN := by
  intro s sel i c hc hconf hsel hp
  obtain ⟨t, ht, nan, m, hnan, -, hstep⟩ := exec_isPAStep hc hconf hsel
  obtain ⟨hpub, hwrap⟩ := hstep.publishes_nan hp
  refine ⟨t, ht, hpub, hwrap, ?_⟩
  rw [hstep.phase_eq, isNaN_add (hnan _), hpub]
  exact .inl hp

/-- Settles O46: the exact results lie between binary64 values inside the two ranges, so their roundings do too. -/
theorem positiveStepsKeepThePhaseInRange : Obligations.PositiveStepsKeepThePhaseInRange := by
  intro s t sel i c hc hconf hsel ht hpos hinc h0 h2
  obtain ⟨nan, m, -, -, hstep⟩ := isPAStep_of_exec hc hconf hsel ht
  obtain ⟨hpub, hpub0, hpub1⟩ := hstep.publishes_in_unit hpos h0 h2
  obtain ⟨hfin, hphase0, hphase2⟩ := hstep.stores_below_two hpos hinc hpub hpub0 hpub1
  have hpubNaN := isNaN_false_of_isFinite hpub
  have hphaseNaN := isNaN_false_of_isFinite hfin
  have hzeroNaN := isNaN_false_of_isFinite isFinite_zero
  rw [ge, gt, le_iff hzeroNaN hpubNaN, lt_iff hpubNaN (by decide), lt_iff hzeroNaN hphaseNaN,
    lt_iff hphaseNaN (by decide), toRat_zero, toRat_one, toRat_two]
  exact ⟨hpub0, hpub1.trans_lt (by norm_num), hphase0, hphase2⟩

end Sys2Proof.Machine
end

section
/-! SUPPORT. The proofs of the obligations of 42_oscillators.md: the two sample commands are the phase step and the
samples of its record, and each operation of the angle keeps it between two binary64 ends. -/

namespace Sys2Proof.Machine

open F64

/-! ## The sample (R190, R191) -/

/-- Where the NaN patterns of `IsSampleAt` stand among the operations of `sampleAt`. -/
def sampleSite (k : Nat) : Nat :=
  if k = 0 then 12 else if k = 1 then 13 else if k < 10 then k else if k < 20 then k - 6 else k - 20

/-- The datapath's sample is the one of the statements. -/
theorem isSampleAt_sampleAt {nan : Nat → Word} (hnan : ∀ k, isNaN (nan k) = true) (o : OscRec) (q : Word) :
    IsSampleAt o q (sampleAt nan o q) :=
  ⟨fun k => nan (sampleSite k), fun k => hnan (sampleSite k), rfl⟩

/-- A sample reads the two gains of its record and nothing else of it. -/
theorem sampleAt_congr (nan : Nat → Word) {o r : OscRec} (hamp : r.amplitude = o.amplitude)
    (hmod : r.ampMod = o.ampMod) (q : Word) : sampleAt nan r q = sampleAt nan o q := by
  rw [sampleAt, sampleAt, hamp, hmod]

/-! ## The output stages (R192, R195) -/

section
variable (v : OpenValues) (t : Nat) (sr : Word) (o : OscRec)

theorem toneStep_pubPhase : (toneStep v t sr o).osc.pubPhase = (paStep v t sr o).osc.pubPhase := by
  rw [toneStep, toneOutput]

theorem quadStep_pubPhase : (quadStep v t sr o).osc.pubPhase = (paStep v t sr o).osc.pubPhase := by
  rw [quadStep, quadOutput]

theorem paStep_phaseMod : (paStep v t sr o).osc.phaseMod = o.phaseMod :=
  paStep_get v t sr o (g := .phaseMod) (by decide)

theorem sampleAt_paStep (nan : Nat → Word) (q : Word) : sampleAt nan (paStep v t sr o).osc q = sampleAt nan o q :=
  sampleAt_congr nan (paStep_get v t sr o (g := .amplitude) (by decide))
    (paStep_get v t sr o (g := .ampMod) (by decide)) q

/-- TONESTEP samples with the gains and the `PHASE_MOD` that stood before it. -/
theorem toneStep_out : (toneStep v t sr o).osc.out =
    sampleAt (sitesFrom (v.nan t) 21) o (add (v.nan t 20) (toneStep v t sr o).osc.pubPhase o.phaseMod) := by
  rw [toneStep_pubPhase, ← sampleAt_paStep v t sr o, ← paStep_phaseMod v t sr o, toneStep, toneOutput]

/-- QUADSTEP samples in phase with the gains that stood before it. -/
theorem quadStep_out : (quadStep v t sr o).osc.out =
    sampleAt (sitesFrom (v.nan t) 21) o (quadStep v t sr o).osc.pubPhase := by
  rw [quadStep_pubPhase, ← sampleAt_paStep v t sr o, quadStep, quadOutput]

/-- QUADSTEP samples a quarter cycle on with the gains that stood before it. -/
theorem quadStep_outQ : (quadStep v t sr o).osc.outQ =
    sampleAt (sitesFrom (v.nan t) 41) o (add (v.nan t 40) (quadStep v t sr o).osc.pubPhase quarter) := by
  rw [quadStep_pubPhase, ← sampleAt_paStep v t sr o, quadStep, quadOutput]

end

/-- A sample of the block, from its operation `k` on, takes NaN patterns for its free values. -/
theorem isSampleAt_openValues (t k : Nat) (o : OscRec) (q : Word) :
    IsSampleAt o q (sampleAt (sitesFrom (Config.openValues.nan t) k) o q) :=
  isSampleAt_sampleAt (fun j => isNaN_openValues_nan t (k + j)) o q

/-- Settles O48: the phase step by the common step lemma, the sample by the equation of the output stage. -/
theorem tonestepWritesTheToneSample : Obligations.TonestepWritesTheToneSample := by
  intro s sel i hconf hsel
  refine ⟨_, Config.openValues.nan s.draws 20, isNaN_openValues_nan _ _, onOscillator_steps toneStep hsel hconf,
    StepCommand.tonestep.isPAStep i s, ?_,
    State.stepOsc_unchangedBut _ i _ s (paFields ++ [Field.out]) fun _ hg _ _ _ => toneStep_get _ _ _ _ hg⟩
  rw [State.stepOsc_oscRec_same, toneStep_out]
  exact isSampleAt_openValues _ _ _ _

/-- Settles O49: the phase step by the common step lemma, the samples by the equations of the output stage, neither
of which reads `PHASE_MOD`. -/
theorem quadstepWritesBothSamples : Obligations.QuadstepWritesBothSamples := by
  intro s sel i hconf hsel
  refine ⟨_, Config.openValues.nan s.draws 40, isNaN_openValues_nan _ _, onOscillator_steps quadStep hsel hconf,
    StepCommand.quadstep.isPAStep i s, ?_, ?_,
    State.stepOsc_unchangedBut _ i _ s (paFields ++ [Field.out, .outQ]) fun _ hg _ _ _ => quadStep_get _ _ _ _ hg⟩
  · rw [State.stepOsc_oscRec_same, quadStep_out]
    exact isSampleAt_openValues _ _ _ _
  · rw [State.stepOsc_oscRec_same, quadStep_outQ]
    exact isSampleAt_openValues _ _ _ _

/-! ## The angle (R190) -/

/-- `TAU` is twice `PI` exactly. -/
theorem toRat_tau : toRat Config.tau = 2 * toRat Config.pi := by decide +kernel

theorem isFinite_pi : isFinite Config.pi = true := by decide

theorem isFinite_tau : isFinite Config.tau = true := by decide

theorem toRat_pi_pos : 0 < toRat Config.pi := by decide +kernel

theorem wrap01_bounds (nan : Nat → Word) {q : Word} (hq : isFinite q = true) :
    isFinite (wrap01 nan q) = true ∧ 0 ≤ toRat (wrap01 nan q) ∧ toRat (wrap01 nan q) ≤ 1 := by
  obtain ⟨hge, hle, -⟩ := wrap01LiesInTheUnitInterval nan q hq
  have h0 := toRat_le_of_le hge
  have h1 := toRat_le_of_le hle
  rw [toRat_zero] at h0
  exact ⟨isFinite_of_toRat_le isFinite_one h0 h1, h0, h1.trans_eq toRat_one⟩

/-- A turn of at most one cycle, times `TAU`, stays from 0 to `TAU`. -/
theorem mul_tau_bounds (n : Word) {w : Word} (hw : isFinite w = true) (h0 : 0 ≤ toRat w) (h1 : toRat w ≤ 1) :
    isFinite (mul n w Config.tau) = true ∧ 0 ≤ toRat (mul n w Config.tau) ∧
      toRat (mul n w Config.tau) ≤ toRat Config.tau := by
  have htau : 0 ≤ toRat Config.tau := by linarith [toRat_tau, toRat_pi_pos]
  have h := isRounded_between (isRounded_mul n hw isFinite_tau) isFinite_zero isFinite_tau
    (by rw [toRat_zero]; exact mul_nonneg h0 htau) (mul_le_of_le_one_left htau h1)
  rwa [toRat_zero] at h

/-- What lies from 0 to `TAU` lies from `-PI` to `PI` after the subtraction of `PI`. -/
theorem sub_pi_bounds (n : Word) {x : Word} (hx : isFinite x = true) (h0 : 0 ≤ toRat x)
    (h1 : toRat x ≤ toRat Config.tau) :
    isFinite (sub n x Config.pi) = true ∧ -toRat Config.pi ≤ toRat (sub n x Config.pi) ∧
      toRat (sub n x Config.pi) ≤ toRat Config.pi := by
  obtain ⟨-, hround⟩ := sumsAreCorrectlyRounded n x Config.pi hx isFinite_pi
  have h := isRounded_between hround (lo := neg Config.pi) (by rw [isFinite_neg]; exact isFinite_pi) isFinite_pi
    (by rw [toRat_neg]; linarith) (by linarith [toRat_tau])
  rwa [toRat_neg] at h

/-- Settles O50: each of the three operations rounds a value between two binary64 ends, so its result stays between
them. -/
theorem angleLiesBetweenMinusPiAndPi : Obligations.AngleLiesBetweenMinusPiAndPi := by
  intro nan q hq
  obtain ⟨hwrap, hwrap0, hwrap1⟩ := wrap01_bounds nan hq
  obtain ⟨hturn, hturn0, hturn1⟩ := mul_tau_bounds (nan 2) hwrap hwrap0 hwrap1
  obtain ⟨hsub, hlo, hhi⟩ := sub_pi_bounds (nan 3) hturn hturn0 hturn1
  have hangle : isNaN (angle nan q) = false := (isNaN_neg _).trans (isNaN_false_of_isFinite hsub)
  have hpi := isNaN_false_of_isFinite isFinite_pi
  have hval : toRat (angle nan q) = -toRat (sub (nan 3) (mul (nan 2) (wrap01 nan q) Config.tau) Config.pi) :=
    toRat_neg _
  rw [show (0xC00921FB54442D18 : Word) = neg Config.pi by decide, show (0x400921FB54442D18 : Word) = Config.pi from rfl,
    ge, le_iff (by rwa [isNaN_neg]) hangle, le_iff hangle hpi, toRat_neg, hval]
  exact ⟨neg_le_neg hhi, neg_le.mp hlo⟩

end Sys2Proof.Machine
end

section
/-! SUPPORT. The proofs of the obligations of 43_synth_graph.md: INIT, a graph sample as its parts, and the render loop
as samples one after the other. -/

namespace Sys2Proof.Machine

open F64

/-! ## INIT (R222, R224) -/

/-- INIT on a graph not yet constructed, with a rate above 0 (R222). -/
theorem exec_init {s : State} (hconf : s.flag .configured = false) (hrate : gt s.sampleRate 0 = true) :
    exec .init s = .next ((s.construct.setMixOut 0).setStatus (withBit .configured s.status)) := by
  rw [exec, execInit, hconf, hrate]
  rfl

/-- The fields of the records lie above the block's own registers (10_state.md R21). -/
theorem le_index_osc (i : Osc) (f : Field) : 0x10 ≤ (Reg.osc i f).index.toNat := by
  cases i <;> cases f <;> decide

/-- Of the block's own registers INIT writes `STATUS` and `MIX_OUT` alone (R224). -/
theorem State.readReg_constructed (s : State) (status : Word) {j : BitVec 8} (hj : j.toNat < 0x10)
    (hstatus : j ≠ 0x01) (hmix : j ≠ 0x05) :
    ((s.construct.setMixOut 0).setStatus status).readReg j = s.readReg j := by
  unfold State.readReg
  cases hr : regAt j with
  | none => rfl
  | some r =>
    have hindex := index_of_regAt hr
    cases r with
    | status => exact absurd hindex.symm hstatus
    | mixOut => exact absurd hindex.symm hmix
    | osc i f =>
      have := le_index_osc i f
      rw [hindex] at this
      omega
    | _ => rfl

/-- Settles O28: the records by their fields, the block's own registers by the frame of construction. -/
theorem initLoadsTheConstructionValues : Obligations.InitLoadsTheConstructionValues := by
  intro s hconf hrate
  refine ⟨_, exec_init hconf hrate, fun i f => ?_, rfl, rfl, fun j => s.readReg_constructed _, fun _ => rfl, rfl,
    rfl⟩
  cases i <;> cases f <;> rfl

/-! ## A graph sample and its parts (R226 to R229) -/

theorem exec_gstep {s : State} (hconf : s.flag .configured = true) :
    exec .gstep s = .next (s.graphSample Config.openValues) :=
  whenConfigured_configured hconf _

/-- A step of an oscillator leaves the graph constructed. -/
theorem State.stepOsc_configured {s : State} (h : s.flag .configured = true) (v : OpenValues) (i : Osc) (f : OscStep) :
    (s.stepOsc v i f).flag .configured = true :=
  s.stepOsc_keepsFlags v i f .configured h

theorem State.feedLfo_configured {s : State} (h : s.flag .configured = true) : s.feedLfo.flag .configured = true :=
  s.feedLfo_keepsFlags .configured h

theorem State.graphSample_configured {s : State} (h : s.flag .configured = true) (v : OpenValues) :
    (s.graphSample v).flag .configured = true :=
  s.graphSample_keepsFlags v .configured h

/-- A frame holds with more indices written. -/
theorem UnchangedBut.mono {l l' : List (BitVec 8)} {s t : State} (h : UnchangedBut l s t) (hl : l ⊆ l') :
    UnchangedBut l' s t := by
  obtain ⟨hreg, hbuffer, hpending, hreply⟩ := h
  exact ⟨fun j hj => hreg j fun hmem => hj (hl hmem), hbuffer, hpending, hreply⟩

/-- Frames over one list of indices, one after the other. -/
theorem UnchangedBut.chain {l : List (BitVec 8)} {s t u : State} (h : UnchangedBut l s t) (h' : UnchangedBut l t u) :
    UnchangedBut l s u :=
  h.trans h' fun _ hj => ⟨hj, hj⟩

theorem State.toneStep_unchangedBut (v : OpenValues) (i : Osc) (s : State) :
    UnchangedBut (0x01 :: oscIndices i (paFields ++ [.out])) s (s.stepOsc v i toneStep) :=
  s.stepOsc_unchangedBut v i toneStep _ fun _ hg _ _ _ => toneStep_get _ _ _ _ hg

theorem State.quadStep_unchangedBut (v : OpenValues) (i : Osc) (s : State) :
    UnchangedBut (0x01 :: oscIndices i (paFields ++ [.out, .outQ])) s (s.stepOsc v i quadStep) :=
  s.stepOsc_unchangedBut v i quadStep _ fun _ hg _ _ _ => quadStep_get _ _ _ _ hg

/-- The frame of a graph sample is that of its parts together. -/
theorem State.graphSample_unchangedBut (v : OpenValues) (s : State) : UnchangedBut graphIndices s (s.graphSample v) :=
  ((s.quadStep_unchangedBut v .lfo).mono (by decide)).chain <|
    ((State.feedLfo_unchangedBut _).mono (by decide)).chain <|
      ((State.toneStep_unchangedBut v .osc1 _).mono (by decide)).chain <|
        ((State.toneStep_unchangedBut v .osc2 _).mono (by decide)).chain <|
          (State.putMix_unchangedBut v _).mono (by decide)

/-- A step command with a legal `SEL` on a constructed graph is its step. -/
theorem StepCommand.exec_eq {c : BitVec 4 → Instr} {f : OscStep} (hc : StepCommand c f) {sel : BitVec 4} {i : Osc}
    {s : State} (hsel : oscOfSel sel = some i) (hconf : s.flag .configured = true) :
    exec (c sel) s = .next (s.stepOsc Config.openValues i f) :=
  (exec_stepCommand hc sel s).trans (onOscillator_steps f hsel hconf)

/-- Settles O51: each command on a constructed graph is its step, and each leaves the graph constructed. -/
theorem gstepIsTheGraphSample : Obligations.GstepIsTheGraphSample := by
  intro s hconf
  obtain ⟨a, ha⟩ : ∃ a, a = s.stepOsc Config.openValues .lfo quadStep := ⟨_, rfl⟩
  obtain ⟨b, hb⟩ : ∃ b, b = a.feedLfo.stepOsc Config.openValues .osc1 toneStep := ⟨_, rfl⟩
  obtain ⟨c, hc⟩ : ∃ c, c = b.stepOsc Config.openValues .osc2 toneStep := ⟨_, rfl⟩
  have hsample : s.graphSample Config.openValues = c.putMix Config.openValues := by rw [hc, hb, ha]; rfl
  have haconf : a.feedLfo.flag .configured = true :=
    State.feedLfo_configured (ha ▸ State.stepOsc_configured hconf _ _ _)
  have hbconf : b.flag .configured = true := hb ▸ State.stepOsc_configured haconf _ _ _
  exact ⟨a, b, c, c.putMix Config.openValues, Config.openValues.nan c.draws, isNaN_openValues_nan _,
    ha ▸ StepCommand.quadstep.exec_eq rfl hconf, hb ▸ StepCommand.tonestep.exec_eq rfl haconf,
    hc ▸ StepCommand.tonestep.exec_eq rfl hbconf, hsample ▸ exec_gstep hconf, c.putMix_mixOut _,
    c.putMix_unchangedBut _, hsample ▸ s.graphSample_unchangedBut _⟩

/-! ## The lfo overwrites what the host wrote to FREQ_MOD (R227, R351) -/

/-- The state after host writes to `FREQ_MOD` of the two tone oscillators. -/
def State.withFreqMods (x y : Word) (s : State) : State :=
  (s.setOsc1 { s.osc1 with freqMod := x }).setOsc2 { s.osc2 with freqMod := y }

/-- The lfo's step reads no tone record, and its output then replaces both `FREQ_MOD`. -/
theorem State.graphSample_withFreqMods (v : OpenValues) (x y : Word) (s : State) :
    (s.withFreqMods x y).graphSample v = s.graphSample v := by
  have hfeed : ((s.withFreqMods x y).stepOsc v .lfo quadStep).feedLfo = (s.stepOsc v .lfo quadStep).feedLfo := rfl
  rw [State.graphSample, hfeed, State.graphSample]

/-- A render of one sample or more starts with a graph sample, which loses the host's `FREQ_MOD`. -/
theorem State.renderLoop_withFreqMods (v : OpenValues) (x y : Word) (s : State) {n : Nat} (hn : n ≠ 0) (k : Nat) :
    (s.withFreqMods x y).renderLoop v n k = s.renderLoop v n k := by
  obtain ⟨m, rfl⟩ := Nat.exists_eq_succ_of_ne_zero hn
  rw [State.renderLoop_succ, State.renderLoop_succ, State.graphSample_withFreqMods]

theorem exec_render {s : State} (hconf : s.flag .configured = true)
    (hfits : s.bufBase.toNat + s.bufCount.toNat ≤ s.bufLen.toNat) :
    exec .render s = .next (s.renderLoop Config.openValues s.bufCount.toNat s.bufBase.toNat) :=
  (whenConfigured_configured hconf _).trans (if_pos (decide_eq_true hfits))

/-- Settles O52. -/
theorem hostFreqModWritesAreLostInTheGraph : Obligations.HostFreqModWritesAreLostInTheGraph := by
  intro s x y hconf
  change exec .gstep (s.withFreqMods x y) = _ ∧ (_ → _ → exec .render (s.withFreqMods x y) = _)
  refine ⟨?_, fun hcount hfits => ?_⟩
  · rw [exec_gstep (s := s.withFreqMods x y) hconf, State.graphSample_withFreqMods, exec_gstep hconf]
  · have hn : s.bufCount.toNat ≠ 0 := fun h => hcount (BitVec.eq_of_toNat_eq h)
    rw [exec_render (s := s.withFreqMods x y) hconf hfits, exec_render hconf hfits]
    exact congrArg _ (s.renderLoop_withFreqMods _ x y hn _)

/-! ## RENDER is a run of graph samples (R230, R232) -/

/-- GSTEPs with their samples copied do what the render loop does. -/
theorem gstepsCopied_eq {s : State} (hconf : s.flag .configured = true) (n k : Nat) :
    gstepsCopied n k s = .next (s.renderLoop Config.openValues n k) := by
  induction n generalizing s k with
  | zero => rfl
  | succ n ih =>
    rw [gstepsCopied, exec_gstep hconf, State.renderLoop_succ]
    refine ih (s := State.setBuffer _ _) ?_ (k + 1)
    rw [State.setBuffer_flag]
    exact State.graphSample_configured hconf _

/-- The render loop writes the registers that a graph sample writes, and no other. -/
theorem State.renderLoop_readReg (v : OpenValues) (n k : Nat) (s : State) {j : BitVec 8} (hj : j ∉ graphIndices) :
    (s.renderLoop v n k).readReg j = s.readReg j :=
  State.renderLoop_induction v (fun t => t.readReg j = s.readReg j) k (k + n)
    (fun t h => ((t.graphSample_unchangedBut v).1 j hj).trans h)
    (fun t _ _ _ _ h => (State.readReg_setBuffer _ t j).trans h) n k s le_rfl le_rfl rfl

/-- Settles O54: both are the render loop, whose frame is that of one sample and one store inside the range. -/
theorem renderIsGstepsWithTheirSamplesCopied : Obligations.RenderIsGstepsWithTheirSamplesCopied := by
  intro s hconf hfits
  obtain ⟨-, -, -, -, -, hpending, hreply⟩ :=
    s.renderLoop_hostSide Config.openValues s.bufCount.toNat s.bufBase.toNat
  exact ⟨_, exec_render hconf hfits, gstepsCopied_eq hconf _ _, fun j => s.renderLoop_readReg _ _ _,
    fun k => s.renderLoop_buffer_other _ _ _ k, hpending, hreply⟩

/-! ## RENDER in two chunks (R232, R233) -/

/-- The state after host writes to `BUF_BASE` and `BUF_COUNT`. -/
def State.withRange (base n : Word) (s : State) : State := (s.setBufBase base).setBufCount n

section
variable (v : OpenValues) (base n : Word) (s : State)

theorem State.withRange_mixOut : (s.withRange base n).mixOut = s.mixOut := rfl

theorem State.withRange_buffer : (s.withRange base n).buffer = s.buffer := rfl

theorem State.stepOsc_withRange (i : Osc) (f : OscStep) :
    (s.withRange base n).stepOsc v i f = (s.stepOsc v i f).withRange base n := by
  cases i <;> rfl

theorem State.feedLfo_withRange : (s.withRange base n).feedLfo = s.feedLfo.withRange base n := rfl

theorem State.putMix_withRange : (s.withRange base n).putMix v = (s.putMix v).withRange base n := rfl

/-- A graph sample reads neither `BUF_BASE` nor `BUF_COUNT`. -/
theorem State.graphSample_withRange : (s.withRange base n).graphSample v = (s.graphSample v).withRange base n := by
  simp only [State.graphSample, State.stepOsc_withRange, State.feedLfo_withRange, State.putMix_withRange]

theorem State.setBuffer_withRange (m : Memory) :
    (s.withRange base n).setBuffer m = (s.setBuffer m).withRange base n := rfl

/-- The render loop takes its range as arguments and reads neither register. -/
theorem State.renderLoop_withRange (j k : Nat) :
    (s.withRange base n).renderLoop v j k = (s.renderLoop v j k).withRange base n := by
  induction j generalizing s k with
  | zero => rfl
  | succ j ih =>
    rw [State.renderLoop_succ, State.renderLoop_succ, State.graphSample_withRange, State.setBuffer_withRange, ih,
      State.withRange_buffer, State.withRange_mixOut]

end

/-- RENDER of `n` samples from `base` up, on a constructed graph and inside the buffer. -/
theorem exec_render_withRange {s : State} (hconf : s.flag .configured = true) (base n : Word)
    (hfits : base.toNat + n.toNat ≤ s.bufLen.toNat) :
    exec .render (s.withRange base n) =
      .next ((s.renderLoop Config.openValues n.toNat base.toNat).withRange base n) := by
  rw [exec_render (s := s.withRange base n) hconf hfits, State.renderLoop_withRange]
  rfl

/-- Settles O55: the sums are exact, and two loops over adjacent ranges are one loop. -/
theorem renderInTwoChunksIsRenderInOne : Obligations.RenderInTwoChunksIsRenderInOne := by
  intro s a b hconf hfits
  have hlen := s.bufLen.isLt
  have hsum : (a + b).toNat = a.toNat + b.toNat := by rw [BitVec.toNat_add, Nat.mod_eq_of_lt (by omega)]
  have hbase : (s.bufBase + a).toNat = s.bufBase.toNat + a.toNat := by
    rw [BitVec.toNat_add, Nat.mod_eq_of_lt (by omega)]
  have hmid := s.renderLoop_keepsFlags Config.openValues a.toNat s.bufBase.toNat .configured hconf
  obtain ⟨-, -, -, -, hmidLen, -, -⟩ := s.renderLoop_hostSide Config.openValues a.toNat s.bufBase.toNat
  refine ⟨_, _, _, exec_render_withRange hconf s.bufBase (a + b) (by omega),
    exec_render_withRange hconf s.bufBase a (by omega),
    exec_render_withRange hmid (s.bufBase + a) b (by rw [hmidLen]; omega), ?_⟩
  rw [hsum, hbase, State.renderLoop_append]
  rfl

end Sys2Proof.Machine
end

section
/-! SUPPORT. The first graph sample after INIT (43_synth_graph.md R234): every record publishes phase +0.0, because no
increment is negative whatever `EXP2_FRAC` is, and the samples there are fixed. -/

namespace Sys2Proof.F64

open Sys2Proof.Machine

/-- A positive zero is neutral on the left of a value that is not negative. -/
theorem add_zero_left {x : Word} (nan : Word) (hx : isFinite x = true) (hs : sign x = false) : add nan 0 x = x := by
  have hval : scaled x = quanta (mag x) := by simp [scaled, hs]
  have hzero : scaled 0 = 0 := (scaled_eq_zero 0).mpr (by decide)
  rw [add_finite nan isFinite_zero hx]
  refine pattern_ext ?_ ?_
  · by_cases h : scaled 0 + scaled x = 0
    · rw [addFinite_of_eq h, sign_pack _ (by norm_num), hs, Bool.and_false]
    · rw [addFinite_of_ne h, sign_pack _ (roundMag_lt _ _), hs, hzero, hval, zero_add,
        decide_eq_false (Int.natCast_nonneg _).not_gt]
  · rw [mag_addFinite, hzero, zero_add, natAbs_scaled, ← Nat.mul_one (quanta (mag x)),
      roundMag_exact _ _ one_pos ((isFinite_iff x).mp hx).le]

/-- 1.0 is neutral on the right. -/
theorem mul_one_right {w : Word} (nan : Word) (hw : isFinite w = true) : mul nan w one = w := by
  rw [mul_swap, mul_one_left nan hw]

/-- A pattern with a clear sign bit is not below one that is zero or negative. -/
theorem lt_of_sign {w u : Word} (hs : sign w = false) (hu : key u ≤ 0) : lt w u = false := by
  have hkey : key w = mag w := by simp [key, hs]
  rw [lt, hkey, decide_eq_false (hu.trans (Int.natCast_nonneg _)).not_gt, Bool.and_false]

theorem sign_of_toRat_pos {w : Word} (h : 0 < toRat w) : sign w = false := by
  rw [sign_of_toRat h.ne', decide_eq_false h.le.not_gt]

/-- The product of finite values is no NaN, and the signs multiply. -/
theorem mul_of_finite {a b : Word} (nan : Word) (ha : isFinite a = true) (hb : isFinite b = true) :
    isNaN (mul nan a b) = false ∧ sign (mul nan a b) = (sign a != sign b) := by
  rw [mul_finite nan ha hb]
  exact ⟨isNaN_pack_roundMag _ _ _, sign_pack _ (roundMag_lt _ _)⟩

end Sys2Proof.F64

namespace Sys2Proof.Machine

open F64

/-! ## The sample at phases 0 and 0.25 (R190, R191) -/

theorem angle_zero (nan : Nat → Word) : angle nan 0 = Config.pi := by
  rw [angle, wrap01_unit nan isFinite_zero (by rw [toRat_zero]; norm_num), mul_finite _ isFinite_zero isFinite_tau, sub,
    add_finite _ (by decide +kernel) (by decide)]
  decide +kernel

/-- The angle at a quarter cycle is `PI / 2`. -/
theorem angle_quarter (nan : Nat → Word) : angle nan quarter = 0x3FF921FB54442D18 := by
  have hval : toRat quarter = 1 / 4 := by decide +kernel
  rw [angle, wrap01_unit nan (by decide) (by rw [hval]; norm_num), mul_finite _ (by decide) isFinite_tau, sub,
    add_finite _ (by decide +kernel) (by decide)]
  decide +kernel

section
variable (nan : Nat → Word) (baseFreq cent : Word)

/-- Both gains of a record that INIT loads are 1.0 (R224). -/
theorem sampleAt_constructed {q x : Word} (hx : parabolicSine (sitesFrom nan 4) (angle nan q) = x)
    (hfin : isFinite x = true) : sampleAt nan (OscRec.constructed baseFreq cent) q = x := by
  rw [sampleAt, hx, OscRec.constructed, mul_one_right _ hfin, mul_one_right _ hfin]

theorem sampleAt_constructed_zero : sampleAt nan (OscRec.constructed baseFreq cent) 0 = 0 := by
  refine sampleAt_constructed nan baseFreq cent ?_ isFinite_zero
  rw [angle_zero]
  exact parabolicSine_eq_of_eval (by decide) (by decide +kernel) _

theorem sampleAt_constructed_quarter : sampleAt nan (OscRec.constructed baseFreq cent) quarter = one := by
  refine sampleAt_constructed nan baseFreq cent ?_ isFinite_one
  rw [angle_quarter]
  exact parabolicSine_eq_of_eval (by decide) (by decide +kernel) _

/-! ## The first increment (R161 to R165) -/

/-- The pitch exponent of a record that INIT loads is its cents in semitones (R161). -/
theorem pitchExponent_constructed (hfin : isFinite (div (nan 3) cent hundred) = true)
    (hsign : sign (div (nan 3) cent hundred) = false) :
    pitchExponent nan (OscRec.constructed baseFreq cent) = div (nan 3) cent hundred := by
  have hoctave : mul (nan 0) 0 twelve = 0 := by
    rw [mul_finite _ isFinite_zero (by decide)]
    decide +kernel
  have hsum (n : Word) : add n 0 0 = 0 := add_zero_left n isFinite_zero (by decide)
  rw [pitchExponent, OscRec.constructed, hoctave, hsum, hsum, add_zero_left _ hfin hsign]

end

/-- The two cent offsets that INIT loads, in octaves: neither moves the pitch by half an octave. -/
theorem octaves_of_cents {cent : Word} (hcent : cent = 0 ∨ cent = Config.osc2DetuneCents) :
    isFinite cent = true ∧ isFinite (div 0 cent hundred) = true ∧ sign (div 0 cent hundred) = false ∧
      isFinite (div 0 (div 0 cent hundred) twelve) = true ∧ exp2Int (div 0 (div 0 cent hundred) twelve) = 0 := by
  rcases hcent with rfl | rfl
  · decide +kernel
  · decide +kernel

/-- The exponent of R162 for a record that INIT loads has the integer part 0, so that the multiplier is `EXP2_FRAC`
unscaled. -/
theorem pitch_constructed (nan : Nat → Word) (n baseFreq : Word) {cent : Word}
    (hcent : cent = 0 ∨ cent = Config.osc2DetuneCents) :
    isFinite (div n (pitchExponent nan (OscRec.constructed baseFreq cent)) twelve) = true ∧
      exp2Int (div n (pitchExponent nan (OscRec.constructed baseFreq cent)) twelve) = 0 := by
  obtain ⟨hc, hsemi, hsign, hoctaves⟩ := octaves_of_cents hcent
  have hdiv (m : Word) {a b : Word} (ha : isFinite a = true) (hb : isFinite b = true) (h0 : isZero b = false) :
      div m a b = div 0 a b := by rw [div_finite _ ha hb h0, div_finite _ ha hb h0]
  have hhundred := hdiv (nan 3) hc (b := hundred) (by decide) (by decide)
  rw [pitchExponent_constructed nan baseFreq cent (by rw [hhundred, hsemi]) (by rw [hhundred, hsign]), hhundred,
    hdiv n hsemi (by decide) (by decide)]
  exact hoctaves

/-- At an integer part of 0 the multiplier is positive, whatever `EXP2_FRAC` is (R128). -/
theorem exp2_positive (draw : Word) (nan : Nat → Word) {x : Word} (hx : isFinite x = true) (hint : exp2Int x = 0) :
    isFinite (exp2 Config.exp2Frac draw nan x).value = true ∧ 0 < toRat (exp2 Config.exp2Frac draw nan x).value := by
  obtain ⟨hfp, -, habs⟩ := exp2FractionIsExact (nan 0) x hx
  obtain ⟨hg, -⟩ := exp2Frac_accurate _ hfp habs
  obtain ⟨hlo, hhi⟩ := exp2Frac_bounds hfp habs
  obtain ⟨hfin, hval⟩ := mul_exp2Scale (n := 0) (nan 1) hg hlo hhi (by norm_num) (by norm_num)
  rw [exp2_inRange _ _ _ ((exp2InRange_iff x).mpr ⟨hx, by omega, by omega⟩), hint]
  refine ⟨hfin, ?_⟩
  rw [exp2Fp, hval]
  linarith

/-- The multiplier of a record that INIT loads is finite and positive. -/
theorem pitchMultiplier_constructed (t : Nat) (baseFreq : Word) {cent : Word}
    (hcent : cent = 0 ∨ cent = Config.osc2DetuneCents) :
    isFinite (pitchMultiplier Config.openValues t (OscRec.constructed baseFreq cent)).value = true ∧
      sign (pitchMultiplier Config.openValues t (OscRec.constructed baseFreq cent)).value = false := by
  obtain ⟨hpitch, hint⟩ := pitch_constructed (Config.openValues.nan t) (Config.openValues.nan t 5) baseFreq hcent
  obtain ⟨hfin, hpos⟩ :=
    exp2_positive (Config.openValues.exp2Draw t) (sitesFrom (Config.openValues.nan t) 6) hpitch hint
  exact ⟨hfin, sign_of_toRat_pos hpos⟩

/-- The clamp of a value that is neither a NaN nor negative is finite and not negative. -/
theorem clamp_nonneg {x : Word} (hx : isNaN x = false) (hs : sign x = false) :
    isFinite (clamp x (neg Config.fClamp) Config.fClamp) = true ∧
      sign (clamp x (neg Config.fClamp) Config.fClamp) = false := by
  have hclamp : isNaN Config.fClamp = false := by decide
  have hlo : lt x (neg Config.fClamp) = false := lt_of_sign hs (by decide)
  rw [clamp, if_neg (by rw [hlo]; decide)]
  split
  next => decide
  next hhi =>
    have hmag := mag_le_of_not_lt hx hclamp (by rw [hlo]; decide) hhi
    exact ⟨(isFinite_iff x).mpr (hmag.trans_lt (by decide)), hs⟩

/-- The first increment is not negative, at every rate above 0 and for every `EXP2_FRAC`. -/
theorem stepIncrement_nonneg (nan : Nat → Word) {sr m : Word} (hsr : gt sr 0 = true) {o : OscRec}
    (hbase : isFinite o.baseFreq = true) (hsign : sign o.baseFreq = false) (hratio : o.freqModRatio = one)
    (hm : isFinite m = true) (hm0 : sign m = false) : lt (stepIncrement nan sr o m) 0 = false := by
  obtain ⟨hsrNaN, hsrZero, hsrSign⟩ := positive_of_gt_zero hsr
  obtain ⟨hproduct, hproduct0⟩ := mul_of_finite (nan 9) hbase hm
  rw [hsign, hm0] at hproduct0
  obtain ⟨hf, hf0⟩ := clamp_nonneg hproduct hproduct0
  refine lt_of_sign ?_ (by decide)
  rw [stepIncrement, stepFrequency, hratio, mul_one_right _ hbase, sign_div _ hf hsrNaN hsrZero, hf0, hsrSign]
  rfl

/-! ## The first sample of each record (R192, R195, R234) -/

section
variable (t : Nat) {sr baseFreq cent : Word} (hsr : gt sr 0 = true) (hbase : isFinite baseFreq = true)
  (hsign : sign baseFreq = false) (hcent : cent = 0 ∨ cent = Config.osc2DetuneCents)
include hsr hbase hsign hcent

/-- The first published phase is +0.0: the stored one is below 1.0, and it folds up under a negative increment alone. -/
theorem paStep_constructed_pubPhase :
    (paStep Config.openValues t sr (OscRec.constructed baseFreq cent)).osc.pubPhase = 0 := by
  obtain ⟨hm, hm0⟩ := pitchMultiplier_constructed t baseFreq hcent
  have hinc := stepIncrement_nonneg (Config.openValues.nan t) hsr (o := OscRec.constructed baseFreq cent) hbase hsign
    rfl hm hm0
  obtain ⟨inc, hdef⟩ : ∃ inc, inc = stepIncrement (Config.openValues.nan t) sr (OscRec.constructed baseFreq cent)
      (pitchMultiplier Config.openValues t (OscRec.constructed baseFreq cent)).value := ⟨_, rfl⟩
  rw [paStep, publish_pubPhase, ← hdef, show (OscRec.constructed baseFreq cent).phase = 0 from rfl]
  rw [← hdef] at hinc
  rcases publishedPhase_cases (Config.openValues.nan t) inc 0 with ⟨hdown, -⟩ | ⟨-, hup, -⟩ | ⟨-, -, hp, -⟩
  · exact absurd (foldsDown_iff.mp hdown).2 (by decide)
  · exact absurd (foldsUp_iff.mp hup).1 (by rw [hinc]; decide)
  · exact hp

/-- The first tone sample is +0.0. -/
theorem toneStep_constructed_out :
    (toneStep Config.openValues t sr (OscRec.constructed baseFreq cent)).osc.out = 0 := by
  rw [toneStep_out, toneStep_pubPhase, paStep_constructed_pubPhase t hsr hbase hsign hcent,
    show (OscRec.constructed baseFreq cent).phaseMod = 0 from rfl, add_zero_left _ isFinite_zero (by decide),
    sampleAt_constructed_zero]

/-- The first quadrature pair is +0.0 and 1.0. -/
theorem quadStep_constructed_out :
    (quadStep Config.openValues t sr (OscRec.constructed baseFreq cent)).osc.out = 0 ∧
      (quadStep Config.openValues t sr (OscRec.constructed baseFreq cent)).osc.outQ = one := by
  rw [quadStep_out, quadStep_outQ, quadStep_pubPhase, paStep_constructed_pubPhase t hsr hbase hsign hcent,
    add_zero_left _ (by decide) (by decide)]
  exact ⟨sampleAt_constructed_zero _ _ _, sampleAt_constructed_quarter _ _ _⟩

end

/-- The mix of two positive zeros is one. -/
theorem mix_zero (nan : Nat → Word) : mix nan 0 0 = 0 := by
  have hhalf (n : Word) : mul n half 0 = 0 := by
    rw [mul_finite _ (by decide) isFinite_zero]
    decide +kernel
  rw [mix, hhalf, hhalf, add_zero_left _ isFinite_zero (by decide)]

/-! ## The first graph sample (R226 to R228) -/

/-- The feed replaces `FREQ_MOD` of the tone records alone. -/
theorem State.feedLfo_oscRec (s : State) (i : Osc) : s.feedLfo.oscRec i =
    if i = .lfo then s.oscRec .lfo else (s.oscRec i).set .freqMod (s.oscRec .lfo).out := by
  cases i <;> rfl

section
variable (v : OpenValues) (s : State)

theorem State.graphSample_lfo :
    (s.graphSample v).oscRec .lfo = (quadStep v s.draws s.sampleRate (s.oscRec .lfo)).osc := by
  simp only [State.graphSample, State.putMix_oscRec, State.stepOsc_oscRec, State.feedLfo_oscRec, reduceCtorEq, if_true,
    if_false]

/-- Each tone record steps with the lfo's output of the same sample in `FREQ_MOD`. -/
theorem State.graphSample_tones :
    (s.graphSample v).oscRec .osc1 = (toneStep v (s.draws + 1) s.sampleRate
      ((s.oscRec .osc1).set .freqMod ((s.graphSample v).oscRec .lfo).out)).osc ∧
    (s.graphSample v).oscRec .osc2 = (toneStep v (s.draws + 2) s.sampleRate
      ((s.oscRec .osc2).set .freqMod ((s.graphSample v).oscRec .lfo).out)).osc := by
  rw [State.graphSample_lfo]
  constructor <;>
    simp only [State.graphSample, State.putMix_oscRec, State.stepOsc_oscRec, State.feedLfo_oscRec, reduceCtorEq,
      if_true, if_false, State.feedLfo_draws, State.feedLfo_sampleRate, State.stepOsc_draws, State.stepOsc_sampleRate]

/-- The mix reads the outputs that the sample leaves. -/
theorem State.graphSample_mixOut : ∃ nan, (s.graphSample v).mixOut =
    mix nan ((s.graphSample v).oscRec .osc1).out ((s.graphSample v).oscRec .osc2).out := by
  rw [State.graphSample, State.putMix_oscRec, State.putMix_oscRec]
  exact ⟨_, State.putMix_mixOut v _⟩

end

/-- Settles O53: the lfo's first output is the +0.0 that INIT left in `FREQ_MOD`, so that all three records step as INIT
loaded them. -/
theorem firstGraphSampleIsDetermined : Obligations.FirstGraphSampleIsDetermined := by
  intro s hconf hrate
  obtain ⟨t, ht⟩ : ∃ t, t = (s.construct.setMixOut 0).setStatus (withBit .configured s.status) := ⟨_, rfl⟩
  have htconf : t.flag .configured = true := by
    rw [ht, State.setStatus_withBit_flag, decide_eq_true rfl, Bool.or_true]
  have htrate : gt t.sampleRate 0 = true := by rw [ht]; exact hrate
  have hlfo : t.oscRec .lfo = OscRec.constructed Config.lfoFreq 0 := by rw [ht]; rfl
  have hosc1 : (t.oscRec .osc1).set .freqMod 0 = OscRec.constructed Config.refFreq 0 := by rw [ht]; rfl
  have hosc2 : (t.oscRec .osc2).set .freqMod 0 = OscRec.constructed Config.refFreq Config.osc2DetuneCents := by
    rw [ht]; rfl
  obtain ⟨u, hu⟩ : ∃ u, u = t.graphSample Config.openValues := ⟨_, rfl⟩
  have ⟨hout, houtQ⟩ : (u.oscRec .lfo).out = 0 ∧ (u.oscRec .lfo).outQ = one := by
    rw [hu, State.graphSample_lfo, hlfo]
    exact quadStep_constructed_out _ htrate (by decide) (by decide) (.inl rfl)
  obtain ⟨htone1, htone2⟩ := t.graphSample_tones Config.openValues
  have hout1 : (u.oscRec .osc1).out = 0 := by
    rw [hu, htone1, ← hu, hout, hosc1]
    exact toneStep_constructed_out _ htrate (by decide) (by decide) (.inl rfl)
  have hout2 : (u.oscRec .osc2).out = 0 := by
    rw [hu, htone2, ← hu, hout, hosc2]
    exact toneStep_constructed_out _ htrate (by decide) (by decide) (.inr rfl)
  have hmix : u.mixOut = 0 := by
    obtain ⟨nan, hmix⟩ := t.graphSample_mixOut Config.openValues
    rw [hu, hmix, ← hu, hout1, hout2, mix_zero]
  exact ⟨t, u, ht ▸ exec_init hconf hrate, hu ▸ exec_gstep htconf, hout1, hout2, hmix, hout, houtQ⟩

end Sys2Proof.Machine
end

section
/-! SUPPORT. The proof of the obligation of 44_control.md. -/

namespace Sys2Proof.Machine

/-- Settles O27: the dispatch hands NOP to `execNop`, which answers the state it was given (R260). -/
theorem nopChangesNothing : Obligations.NopChangesNothing := by
  intro s
  calc exec .nop s = execNop s := rfl
    _ = .next s := rfl

end Sys2Proof.Machine
end

section
/-! SUPPORT. The proofs of the obligations of 60_exceptions.md: which access or command raises which error, and that
a command raises at most one error that aborts it, or completes and leaves every error bit as it stood. -/

namespace Sys2Proof.Machine

open F64

/-- Raising an error answers a next state in which nothing but its bit is recorded (60_exceptions.md R300). -/
theorem exists_raisedOnly {r : Result} {b : StatusBit} {s : State} (h : r = raiseErr b s) :
    ∃ t, r = .next t ∧ RaisedOnly b.mask s t :=
  ⟨_, h.trans (raiseErr_eq b s), raisedOnly_setStatus b s⟩

/-! ## Refused host accesses (R305) -/

theorem hostWriteBuf_past {s : State} {k : Nat} (hk : s.bufLen.toNat ≤ k) (v : Word) :
    hostWriteBuf k v s = raiseErr .errWr s := if_neg hk.not_gt

theorem hostReadBuf_past {s : State} {k : Nat} (hk : s.bufLen.toNat ≤ k) :
    hostReadBuf k s = raiseErr .errWr (s.setReply (some 0)) := if_neg hk.not_gt

/-- Settles O12: a register write by the grounds of its refusal, a buffer access past the end by the range check. -/
theorem refusedHostAccessesRaiseErrWr : Obligations.RefusedHostAccessesRaiseErrWr := by
  refine ⟨fun s s' j v h hgrounds => ?_, fun s s' k v h hk => ?_, fun s s' k h hk => ?_⟩
  · have hrefused : RefusesWrite s' j := by rwa [RefusesWrite, h.flag]
    exact exists_raisedOnly (b := .errWr) (h.step_eq.trans (hostWriteReg_refused hrefused v))
  · rw [← h.bufLen] at hk
    exact exists_raisedOnly (b := .errWr) (h.step_eq.trans (hostWriteBuf_past hk v))
  · rw [← h.bufLen] at hk
    exact exists_raisedOnly (b := .errWr) (h.step_eq.trans (hostReadBuf_past hk))

/-! ## The errors of INIT and of illegal words (R301, R303) -/

/-- A second INIT is an illegal command (43_synth_graph.md R225). -/
theorem exec_init_configured {s : State} (hconf : s.flag .configured = true) :
    exec .init s = raiseErr .errCmd s := if_pos hconf

theorem exec_init_rate {s : State} (hconf : s.flag .configured = false) (hrate : gt s.sampleRate 0 = false) :
    exec .init s = raiseErr .errSr s := by
  rw [exec, execInit, hconf, hrate]
  rfl

/-- Settles O22: the legal words are the words that decode. -/
theorem illegalCommandsRaiseErrCmd : Obligations.IllegalCommandsRaiseErrCmd := by
  refine ⟨fun s s' v h hv => ?_, fun s hconf => exists_raisedOnly (b := .errCmd) (exec_init_configured hconf)⟩
  have hillegal : ∀ i, decode v ≠ .ok i := fun i hi => hv ((exactlySixteenCommandWordsAreLegal v).mp ⟨i, hi⟩)
  refine exists_raisedOnly (b := .errCmd) ?_
  calc step s = hostOp (.writeReg 0x00 v) s' := h.step_eq
    _ = writeCommand v s' := hostOp_writeReg_cmd v s'
    _ = raiseErr .errCmd s' := writeCommand_illegal hillegal s'

/-- Settles O24: a rate above 0 is no NaN and no zero, and its sign bit is clear. -/
theorem initRefusesARateNotAboveZero : Obligations.InitRefusesARateNotAboveZero := by
  intro s hconf hbad
  have hrate : gt s.sampleRate 0 = false := by
    refine Bool.eq_false_iff.mpr fun hpos => ?_
    obtain ⟨hnan, hzero, hsign⟩ := positive_of_gt_zero hpos
    rcases hbad with h | h | h
    · exact Bool.eq_false_iff.mp hzero h
    · exact Bool.eq_false_iff.mp hsign h
    · exact Bool.eq_false_iff.mp hnan h
  exact exists_raisedOnly (b := .errSr) (exec_init_rate hconf hrate)

/-! ## RENDER past the buffer (R304, 43_synth_graph.md R231) -/

theorem State.renderFits_eq_false {s : State} (h : s.bufLen.toNat < s.bufBase.toNat + s.bufCount.toNat) :
    s.renderFits = false := decide_eq_false h.not_ge

theorem exec_render_past {s : State} (hconf : s.flag .configured = true) (hfits : s.renderFits = false) :
    exec .render s = raiseErr .errRange s := by
  rw [exec, execRender, whenConfigured_configured hconf, hfits]
  rfl

/-- Settles O25. -/
theorem renderPastTheBufferRaisesErrRange : Obligations.RenderPastTheBufferRaisesErrRange := fun _ hconf hpast =>
  exists_raisedOnly (b := .errRange) (exec_render_past hconf (State.renderFits_eq_false hpast))

/-! ## At most one error, or none (R300, R307) -/

/-- The five recorded errors of `STATUS` (10_state.md R24). -/
def errorBits : List StatusBit := [.errCmd, .errNotCfg, .errSr, .errRange, .errWr]

/-- The errors that abort a command (R300). -/
def abortingBits : List StatusBit := [.errCmd, .errNotCfg, .errSr, .errRange]

/-- The errors are bits 1 to 5 of `STATUS`. -/
theorem exists_errorBit {n : Nat} (h1 : 1 ≤ n) (h5 : n ≤ 5) : ∃ b ∈ errorBits, b.pos = n := by
  have key : ∀ n < 6, 1 ≤ n → ∃ b ∈ errorBits, b.pos = n := by decide
  exact key n (Nat.lt_succ_of_le h5) h1

theorem ne_exp2Oor_of_mem_errorBits {b : StatusBit} (h : b ∈ errorBits) : b ≠ .exp2Oor := by
  rintro rfl
  exact absurd h (by decide)

theorem ne_configured_of_mem_errorBits {b : StatusBit} (h : b ∈ errorBits) : b ≠ .configured := by
  rintro rfl
  exact absurd h (by decide)

theorem State.readReg_status_getLsbD (s : State) (b : StatusBit) : (s.readReg 0x01).getLsbD b.pos = s.flag b :=
  congrArg (BitVec.getLsbD · b.pos) (s.readReg_index .status)

/-- Every error bit stands in `t` as it stood in `s`. -/
def KeepsErrors (s t : State) : Prop := ∀ b ∈ errorBits, t.flag b = s.flag b

theorem KeepsErrors.refl (s : State) : KeepsErrors s s := fun _ _ => rfl

theorem State.construct_keepsErrors (s : State) :
    KeepsErrors s ((s.construct.setMixOut 0).setStatus (withBit .configured s.status)) := fun _ hb =>
  s.setStatus_withBit_flag_of_ne (ne_configured_of_mem_errorBits hb)

theorem State.putExp2_keepsErrors (r : Exp2Result) (s : State) : KeepsErrors s (s.putExp2 r) := fun b hb => by
  calc (s.putExp2 r).flag b = (s.setStatus (withBitIf r.outOfRange .exp2Oor s.status)).flag b := rfl
    _ = (s.flag b || (r.outOfRange && decide (b = .exp2Oor))) := s.setStatus_withBitIf_flag _ _ _ _
    _ = s.flag b := by simp [ne_exp2Oor_of_mem_errorBits hb]

theorem State.stepOsc_keepsErrors (v : OpenValues) (i : Osc) (f : OscStep) (s : State) :
    KeepsErrors s (s.stepOsc v i f) := fun b hb => by
  simp [State.stepOsc_flag, ne_exp2Oor_of_mem_errorBits hb]

theorem State.graphSample_keepsErrors (v : OpenValues) (s : State) : KeepsErrors s (s.graphSample v) := fun b hb =>
  s.graphSample_flag v b (ne_exp2Oor_of_mem_errorBits hb)

theorem State.renderLoop_keepsErrors (v : OpenValues) (n k : Nat) (s : State) :
    KeepsErrors s (s.renderLoop v n k) :=
  State.renderLoop_induction v (KeepsErrors s) k (k + n)
    (fun t h b hb => (t.graphSample_keepsErrors v b hb).trans (h b hb)) (fun _ _ _ _ _ h => h)
    n k s le_rfl le_rfl (KeepsErrors.refl s)

/-- A command in `s` that ends in the result raises one error of `bits` and does nothing else, or completes and
leaves every error bit as it stood. -/
inductive RaisesOneOrCompletes (bits : List StatusBit) (s : State) : Result → Prop
  | raises {b : StatusBit} (hb : b ∈ bits) : RaisesOneOrCompletes bits s (raiseErr b s)
  | completes {t : State} (h : KeepsErrors s t) : RaisesOneOrCompletes bits s (.next t)

section
variable {bits : List StatusBit} {s : State} {r : Result}

theorem RaisesOneOrCompletes.mono {bits' : List StatusBit} (h : RaisesOneOrCompletes bits s r)
    (hbits : bits ⊆ bits') : RaisesOneOrCompletes bits' s r := by
  cases h with
  | raises hb => exact .raises (hbits hb)
  | completes h => exact .completes h

theorem RaisesOneOrCompletes.whenConfigured (h : RaisesOneOrCompletes bits s r) (hb : .errNotCfg ∈ bits) :
    RaisesOneOrCompletes bits s (whenConfigured s r) := by
  cases hconf : s.flag .configured
  · rw [whenConfigured_notConfigured hconf]
    exact .raises hb
  · rwa [whenConfigured_configured hconf]

/-- An error that is none of those the command may raise stands as it stood. -/
theorem RaisesOneOrCompletes.flag_eq {t : State} {b : StatusBit} (h : RaisesOneOrCompletes bits s (.next t))
    (herror : b ∈ errorBits) (hb : b ∉ bits) : t.flag b = s.flag b := by
  cases h with
  | raises hc => exact s.setStatus_withBit_flag_of_ne fun hbc => hb (hbc ▸ hc)
  | completes hkeeps => exact hkeeps b herror

/-- Aborted by one of the errors, by the mask of its bit, or complete. -/
theorem RaisesOneOrCompletes.raisedOnly_or {t : State} (h : RaisesOneOrCompletes bits s (.next t)) :
    (∃ b ∈ bits, RaisedOnly b.mask s t) ∨ KeepsErrors s t := by
  cases h with
  | @raises b hb => exact .inl ⟨b, hb, raisedOnly_setStatus b s⟩
  | completes hkeeps => exact .inr hkeeps
end

theorem exec_init_raises (s : State) : RaisesOneOrCompletes [.errCmd, .errSr] s (exec .init s) := by
  cases hconf : s.flag .configured
  · cases hrate : gt s.sampleRate 0
    · rw [exec_init_rate hconf hrate]
      exact .raises (by decide)
    · rw [exec_init hconf hrate]
      exact .completes s.construct_keepsErrors
  · rw [exec_init_configured hconf]
    exact .raises (by decide)

/-- The commands that need no constructed graph (R302). -/
def graphFreeCommands : List Instr := [.nop, .init, .psin, .exp2, .wrap01]

/-- Of the commands that need no constructed graph, INIT alone can raise an error. -/
theorem exec_graphFree_raises {i : Instr} (hi : i ∈ graphFreeCommands) (s : State) :
    RaisesOneOrCompletes [.errCmd, .errSr] s (exec i s) := by
  cases i with
  | nop => exact .completes (KeepsErrors.refl s)
  | init => exact exec_init_raises s
  | psin => exact .completes fun _ _ => rfl
  | exp2 => exact .completes (s.putExp2_keepsErrors _)
  | wrap01 => exact .completes fun _ _ => rfl
  | pastep sel | tonestep sel | quadstep sel => simp [graphFreeCommands] at hi
  | gstep | render => simp [graphFreeCommands] at hi

theorem onOscillator_raises (sel : BitVec 4) (f : OscStep) (s : State) :
    RaisesOneOrCompletes abortingBits s (onOscillator sel f s) := by
  rcases onOscillator_cases sel f s with ⟨-, h⟩ | ⟨_, -, -, h⟩ | ⟨i, -, -, h⟩ <;> rw [h]
  · exact .raises (by decide)
  · exact .raises (by decide)
  · exact .completes (s.stepOsc_keepsErrors _ i f)

/-- The range check of RENDER stands behind the check for a constructed graph (R307). -/
theorem exec_render_raises (s : State) : RaisesOneOrCompletes abortingBits s (exec .render s) := by
  refine RaisesOneOrCompletes.whenConfigured ?_ (by decide)
  split
  · exact .completes (s.renderLoop_keepsErrors _ _ _)
  · exact .raises (by decide)

/-- What every command can do to the error bits. -/
theorem exec_raises (i : Instr) (s : State) : RaisesOneOrCompletes abortingBits s (exec i s) := by
  cases i with
  | nop | init | psin | exp2 | wrap01 => exact (exec_graphFree_raises (by decide) s).mono (by decide)
  | pastep sel | tonestep sel | quadstep sel => exact onOscillator_raises sel _ s
  | gstep => exact .whenConfigured (.completes (s.graphSample_keepsErrors _)) (by decide)
  | render => exact exec_render_raises s

/-- Settles O26: an error aborts the command, or every error bit stands as it stood. -/
theorem atMostOneAbortingErrorPerCommand : Obligations.AtMostOneAbortingErrorPerCommand := by
  intro i s t _ h
  have hraises := exec_raises i s
  rw [h] at hraises
  rcases hraises.raisedOnly_or with ⟨b, hb, hraised⟩ | hkeeps
  · exact .inl ⟨b.mask, List.mem_map_of_mem hb, hraised⟩
  · refine .inr fun n h1 h5 => ?_
    obtain ⟨b, hb, rfl⟩ := exists_errorBit h1 h5
    rw [State.readReg_status_getLsbD, State.readReg_status_getLsbD, hkeeps b hb]

/-! ## Commands that need a constructed graph (R302) -/

theorem exists_oscOfSel {sel : BitVec 4} (h : selInRange sel = true) : ∃ i, oscOfSel sel = some i := by
  have key : ∀ sel : BitVec 4, selInRange sel = true → (oscOfSel sel).isSome = true := by decide
  exact Option.isSome_iff_exists.mp (key sel h)

theorem onOscillator_notConfigured {sel : BitVec 4} {s : State} (f : OscStep) (hsel : selInRange sel = true)
    (hconf : s.flag .configured = false) : onOscillator sel f s = raiseErr .errNotCfg s := by
  obtain ⟨i, hi⟩ := exists_oscOfSel hsel
  rw [onOscillator, hi]
  exact whenConfigured_notConfigured hconf _

theorem exec_notConfigured {i : Instr} {s : State} (hi : i ∉ graphFreeCommands) (hwf : i.wellFormed = true)
    (hconf : s.flag .configured = false) : exec i s = raiseErr .errNotCfg s := by
  cases i with
  | nop | init | psin | exp2 | wrap01 => exact absurd (by decide) hi
  | pastep sel | tonestep sel | quadstep sel => exact onOscillator_notConfigured _ hwf hconf
  | gstep | render => exact whenConfigured_notConfigured hconf _

/-- Settles O23: the check for a constructed graph comes first, and the other commands raise ERR_CMD and ERR_SR
alone. -/
theorem graphCommandsNeedAConstructedGraph : Obligations.GraphCommandsNeedAConstructedGraph := by
  constructor
  · intro i s hwf hconf hnop hinit hpsin hexp2 hwrap01
    have hi : i ∉ graphFreeCommands := by simp [graphFreeCommands, hnop, hinit, hpsin, hexp2, hwrap01]
    exact exists_raisedOnly (b := .errNotCfg) (exec_notConfigured hi hwf hconf)
  · intro i s t hi h
    have hraises := exec_graphFree_raises hi s
    rw [h] at hraises
    have hflag : t.flag .errNotCfg = s.flag .errNotCfg := hraises.flag_eq (by decide) (by decide)
    rwa [← State.readReg_status_getLsbD, ← State.readReg_status_getLsbD] at hflag

end Sys2Proof.Machine
end

section
/-! SUPPORT. The proof of the obligation of 70_reset_and_hazards.md: what a host reads after a reset transaction. -/

namespace Sys2Proof.Machine

theorem State.regValue_resetBlock {r : Reg} (h : r ≠ .bufLen) (s : State) :
    s.resetBlock.regValue r = State.reset.regValue r := by
  cases r with
  | bufLen => exact absurd rfl h
  | osc i f => rw [State.regValue, State.regValue, State.resetBlock_oscRec, State.reset_oscRec]
  | _ => rfl

/-- A reset leaves every index reading as after reset, but for `BUF_LEN`, which reads on as it did (R340). -/
theorem State.readReg_resetBlock (s : State) (j : BitVec 8) :
    s.resetBlock.readReg j = if j = 0x08 then s.readReg 0x08 else State.reset.readReg j := by
  split
  next hlen =>
    subst hlen
    calc s.resetBlock.readReg 0x08 = s.resetBlock.regValue .bufLen := s.resetBlock.readReg_index .bufLen
      _ = s.regValue .bufLen := rfl
      _ = s.readReg 0x08 := (s.readReg_index .bufLen).symm
  next hne =>
    have hframe : ∀ r : Reg, r.index ∉ [(0x08 : BitVec 8)] →
        s.resetBlock.regValue r = State.reset.regValue r := by
      intro r hr
      refine State.regValue_resetBlock ?_ s
      rintro rfl
      exact hr List.mem_cons_self
    exact readReg_frame hframe j (mt List.mem_singleton.mp hne)

/-- Settles O13: the step is the reset, which starts with no word for the host and reads `BUF_LEN` as the state it
is accepted in. -/
theorem resetPutsEveryRegisterToItsResetValue : Obligations.ResetPutsEveryRegisterToItsResetValue := by
  intro s s' h
  refine ⟨s'.resetBlock, h.step_eq, fun j => ?_, fun _ => rfl, rfl, h.reply⟩
  rw [State.readReg_resetBlock, h.readReg]

end Sys2Proof.Machine
end
